-- ==== Sys2Proof/Word.lean ====
section
/-! DEFINITION. The word types of the block (R13): bytes, 32-bit registers, 64-bit raw values and binary64 patterns. -/

namespace Sys2Proof

/-- One byte of the frame or of host memory. -/
abbrev Byte := BitVec 8

/-- A 32-bit register or command word (R13, R85). -/
abbrev Word := BitVec 32

/-- A raw value, as in the RAW register: the native width is 64 (R8, R25). -/
abbrev Raw := BitVec 64

/-- A binary64 bit pattern, as in SCALE, OFFSET and PHYS (R13, R27). -/
abbrev F64 := BitVec 64

/-- The eight byte registers FRAME_DATA[0..7] (R24). -/
abbrev FrameData := Vector Byte 8

/-- The number of host byte addresses, 2^ADDR_WIDTH with ADDR_WIDTH = 32 (R9, R60). -/
abbrev addressSpace : Nat := 4294967296

end Sys2Proof
end

