-- ==== Sys2Proof/Config.lean ====
section
/-! DEFINITION. What a platform fixes (R9, R30, R31): the layouts of the ROM, the modes, the address sets,
and the free values the spec leaves to a draw. -/

namespace Sys2Proof

/-- The two bit-numbering conventions: ORDER = 0 is `le` (Intel), ORDER = 1 is `be` (Motorola) (R91). -/
inductive ByteOrder where
  | le
  | be
deriving DecidableEq, Repr, Inhabited

/-- Display and routing metadata of a signal, opaque to the codec: no definition of the model reads it (R5, R31). -/
structure SignalLabel where
  name  : String := ""
  unit  : String := ""
  topic : String := ""
deriving DecidableEq, Repr, Inhabited

/-- One Signal Layout of the ROM (R31). `scale` and `offset` are binary64 patterns. -/
structure SignalLayout where
  startBit  : Nat
  bitLength : Nat
  byteOrder : ByteOrder
  signed    : Bool
  scale     : F64
  offset    : F64
  label     : SignalLabel := {}
deriving DecidableEq, Repr, Inhabited

/-- One Message Layout of the ROM; `sigs` is in declared order (R30). -/
structure MessageLayout where
  id         : Nat
  byteLength : Nat
  sigs       : List SignalLayout
deriving DecidableEq, Repr, Inhabited

/-- Whether two messages may share an ID; the default is `uniqueId` (R9, R129). -/
inductive IdMode where
  | uniqueId
  | byLength
deriving DecidableEq, Repr, Inhabited

/-- Which bits ENCODE clears before packing; the default is `signalBits` (R9, R122). -/
inductive ClearScope where
  | signalBits
  | declaredBytes
deriving DecidableEq, Repr, Inhabited

/-- A run of host byte addresses: `base`, `base + 1`, …, `base + size - 1`. -/
structure Span where
  base : Nat
  size : Nat
deriving DecidableEq, Repr, Inhabited

namespace Config

/-- The draw NAN_RESULT (R9, R172): the pattern whose sign and payload NaN number `n` takes. FREE VALUE, log 7. -/
opaque freeNan : Nat → F64

/-- The allocator's answer to its call number `n` for `bytes` bytes, `none` being FAIL (R191). FREE VALUE, log 6.
`State.allocAnswer` keeps it within the laws of R191. -/
opaque freeAlloc : (n bytes : Nat) → Option Nat

/-- At reset number `n`, whether the abandoned command had already written the byte at `address` (R227).
FREE VALUE, log 8. -/
opaque freeResetByte : (n address : Nat) → Bool

/-- At reset number `n`, whether the abandoned Owned DECODE had already called the allocator (R227).
FREE VALUE, log 8. -/
opaque freeResetAlloc : (n : Nat) → Bool

end Config

end Sys2Proof
end

