-- ==== Sys2Proof/Syntax.lean ====
section
/-! DEFINITION. The commands of the block (R94): one constructor per row of spec/opcode_table.json. -/

namespace Sys2Proof

/-- A field descriptor: the four values of format F (R15, R86). A command that does not read one of them still
carries it, so that no bit of its word is lost (R95). -/
structure FieldDesc where
  start  : Nat
  len    : Nat
  order  : ByteOrder
  signed : Bool
deriving DecidableEq, Repr, Inhabited

/-- The eight commands (R94). -/
inductive Instr where
  /-- NOP, format N (R110). -/
  | nop
  /-- EXTRACT, format F (R150). -/
  | extract (f : FieldDesc)
  /-- SEXT, format F (R152). -/
  | sext (f : FieldDesc)
  /-- PACK, format F (R154). -/
  | pack (f : FieldDesc)
  /-- SCALE, format F (R174). -/
  | scale (f : FieldDesc)
  /-- ROUTE, format M with KIND = 0 (R118). -/
  | route
  /-- DECODE, format M with KIND = 0 (R120). -/
  | decode
  /-- ENCODE, format M, of the message of ROM index `kind` (R124). -/
  | encode (kind : Nat)
deriving DecidableEq, Repr, Inhabited

end Sys2Proof
end

