-- ==== Sys2Proof/WellFormed.lean ====
section
/-! DEFINITION. The values the fields of a command word can hold (R86, R87, R89, R90, R93). Values a word can hold
and a command turns away when it executes (LEN = 0, a field that does not fit) are well-formed: they raise
IllegalCommand (R97). -/

namespace Sys2Proof

/-- START is 6 bits wide and LEN 7 bits wide (R86). -/
def FieldDesc.wellFormed (f : FieldDesc) : Bool :=
  decide (f.start < 64) && decide (f.len < 128)

/-- A command that has a word. KIND is 16 bits wide (R87). -/
def Instr.wellFormed : Instr → Bool
  | .nop => true
  | .extract f => f.wellFormed
  | .sext f => f.wellFormed
  | .pack f => f.wellFormed
  | .scale f => f.wellFormed
  | .route => true
  | .decode => true
  | .encode kind => decide (kind < 65536)

end Sys2Proof
end

