-- ==== Sys2Proof/Decode.lean ====
section
/-! DEFINITION. The decoder, total on all 2^32 words and rejecting by name (R96, R97), and after it the encoder,
written from the format tables (R86 to R88). -/

namespace Sys2Proof

/-- Why a word is illegal: the five cases of R96. The machine raises IllegalCommand for each. -/
inductive Illegal where
  /-- OP is 0x8 to 0xF. -/
  | reservedOpcode
  /-- A format-F word with a nonzero bit in 31:19. -/
  | reservedBitsF
  /-- A format-M word with a nonzero bit in 31:20. -/
  | reservedBitsM
  /-- A ROUTE or DECODE word with KIND != 0. -/
  | kindNotZero
  /-- A NOP word other than 0. -/
  | nopNotZero
deriving DecidableEq, Repr

/-- `w[lo+width-1:lo]` as an unsigned integer (R10). -/
def bits (w : Word) (lo width : Nat) : Nat :=
  (w.extractLsb' lo width).toNat

/-- The ORDER bit (R91). -/
def ByteOrder.ofBit (b : Bool) : ByteOrder :=
  if b then .be else .le

/-- The format-F fields of a word whose reserved bits are zero (R86). -/
def decodeFormatF (w : Word) (mk : FieldDesc → Instr) : Except Illegal Instr :=
  if bits w 19 13 ≠ 0 then .error .reservedBitsF
  else .ok (mk ⟨bits w 4 6, bits w 10 7, .ofBit (w.getLsbD 17), w.getLsbD 18⟩)

/-- A format-M word of a command that must have KIND = 0 (R87, R96). -/
def decodeKindZero (w : Word) (i : Instr) : Except Illegal Instr :=
  if bits w 20 12 ≠ 0 then .error .reservedBitsM
  else if bits w 4 16 ≠ 0 then .error .kindNotZero
  else .ok i

/-- The decoder of R97. -/
def decode (w : Word) : Except Illegal Instr :=
  match bits w 0 4 with
  | 0 => if w = 0 then .ok .nop else .error .nopNotZero
  | 1 => decodeFormatF w .extract
  | 2 => decodeFormatF w .sext
  | 3 => decodeFormatF w .pack
  | 4 => decodeFormatF w .scale
  | 5 => decodeKindZero w .route
  | 6 => decodeKindZero w .decode
  | 7 => if bits w 20 12 ≠ 0 then .error .reservedBitsM else .ok (.encode (bits w 4 16))
  | _ => .error .reservedOpcode

/-- A command word as spec/opcode_table.json numbers it: one 32-bit word, bit 0 the least significant. -/
def tableWord (nbits w : Nat) : Word :=
  BitVec.ofNat 32 (w % 2 ^ nbits)

/-- The instruction the decoder reads from a table word, none where it rejects it. -/
def decodeTableWord (nbits w : Nat) : Option Instr :=
  (decode (tableWord nbits w)).toOption

/-- ORDER as a bit (R91). -/
def ByteOrder.toBit : ByteOrder → Bool
  | .le => false
  | .be => true

/-- Format F: {reserved 31:19, SIGNED 18, ORDER 17, LEN 16:10, START 9:4, OP 3:0} (R86). -/
def encodeFormatF (op : BitVec 4) (f : FieldDesc) : Word :=
  0#13 ++ BitVec.ofBool f.signed ++ BitVec.ofBool f.order.toBit ++ BitVec.ofNat 7 f.len ++ BitVec.ofNat 6 f.start ++ op

/-- Format M: {reserved 31:20, KIND 19:4, OP 3:0} (R87). -/
def encodeFormatM (op : BitVec 4) (kind : Nat) : Word :=
  0#12 ++ BitVec.ofNat 16 kind ++ op

/-- The word of a well-formed command (R86 to R88, R94). -/
def encode : Instr → Word
  | .nop => 0#32
  | .extract f => encodeFormatF 1 f
  | .sext f => encodeFormatF 2 f
  | .pack f => encodeFormatF 3 f
  | .scale f => encodeFormatF 4 f
  | .route => encodeFormatM 5 0
  | .decode => encodeFormatM 6 0
  | .encode kind => encodeFormatM 7 kind

end Sys2Proof
end

