-- ==== Sys2Proof/Machine/Geometry.lean ====
section
/-! DEFINITION. Where the bits of a field lie in the frame (R140 to R144). -/

namespace Sys2Proof.Machine

/-- The MSB-0 index of the bit whose linear index is `s`, and back (R140). -/
def msb0 (s : Nat) : Nat :=
  8 * (s / 8) + 7 - s % 8

/-- The field (s, len, ord) lies in bytes 0 to n-1 (R143). -/
def fits (s len : Nat) (ord : ByteOrder) (n : Nat) : Bool :=
  decide (s ≤ 63) && decide (1 ≤ len) && decide (len ≤ 64) &&
  match ord with
  | .le => decide (s + len ≤ 8 * n)
  | .be => decide (msb0 s + len ≤ 8 * n)

/-- Byte and bit within the byte of value bit `k` of the field (s, len, ord) (R144). -/
def bitpos (s len : Nat) (ord : ByteOrder) (k : Nat) : Nat × Nat :=
  match ord with
  | .le => ((s + k) / 8, (s + k) % 8)
  | .be => ((msb0 s + len - 1 - k) / 8, 7 - (msb0 s + len - 1 - k) % 8)

end Sys2Proof.Machine
end

