-- ==== Sys2Proof/Machine/Rom.lean ====
section
/-! DEFINITION. The layout ROM as a list of messages: its well-formedness (R33), its sizes (R9, R37), the signal
numbering (R32), and the sets of host addresses (R62). -/

namespace Sys2Proof.Machine

/-- The number of signals of every message, in order. -/
def signalCounts (msgs : List MessageLayout) : List Nat :=
  msgs.map fun m => m.sigs.length

/-- MAX_SIGNALS: the largest signal count of any message (R9). -/
def maxSignals (msgs : List MessageLayout) : Nat :=
  (signalCounts msgs).foldr max 0

/-- Message `k`; an index out of range gives an empty message, which no command asks for. -/
def messageAt (msgs : List MessageLayout) (k : Nat) : MessageLayout :=
  msgs.getD k ⟨0, 0, []⟩

/-- SIGREF of signal `i` of message `k` (R32). -/
def sigref (msgs : List MessageLayout) (k i : Nat) : Nat :=
  ((signalCounts msgs).take k).sum + i

/-- A signal's ranges and its fit in the message's bytes (R33 item 3). -/
def signalWf (byteLength : Nat) (g : SignalLayout) : Bool :=
  decide (g.startBit ≤ 63) && decide (1 ≤ g.bitLength) && decide (g.bitLength ≤ 64) &&
  fits g.startBit g.bitLength g.byteOrder byteLength

/-- A message's ranges and its signals (R33 items 1 to 3). -/
def messageWf (m : MessageLayout) : Bool :=
  decide (m.id < 2 ^ 29) && decide (m.byteLength ≤ 8) && decide (m.sigs.length ≤ 65535) &&
  m.sigs.all (signalWf m.byteLength)

/-- No two messages share what the router looks them up by (R33 item 4). -/
def keysDistinct (mode : IdMode) (msgs : List MessageLayout) : Bool :=
  match mode with
  | .uniqueId => decide (msgs.map (·.id)).Nodup
  | .byLength => decide (msgs.map fun m => (m.id, m.byteLength)).Nodup

/-- ROM_WF (R33). Overlap of fields is not checked (R128). -/
def romWf (mode : IdMode) (msgs : List MessageLayout) : Bool :=
  decide (msgs.length ≤ 65535) && decide ((signalCounts msgs).sum < 2 ^ 32) &&
  msgs.all messageWf && keysDistinct mode msgs

/-- The address lies in the span. -/
def inSpan (s : Span) (a : Nat) : Bool :=
  decide (s.base ≤ a) && decide (a < s.base + s.size)

/-- The address is in the set the spans cover. -/
def inWindow (window : List Span) (a : Nat) : Bool :=
  window.any (inSpan · a)

/-- Two runs of addresses share an address. -/
def overlaps (s t : Span) : Bool :=
  decide (0 < s.size) && decide (0 < t.size) && decide (s.base < t.base + t.size) && decide (t.base < s.base + s.size)

/-- The register window at REG_BASE, 0x100 bytes (R38). -/
def registerWindow (regBase : Nat) : Span :=
  ⟨regBase, 0x100⟩

/-- The address sets of a platform: MEM_WINDOW is a set of host addresses (R62) that holds only ordinary memory, so
no byte of the register window (R70); the register window lies in the address space, and its base is a multiple of 4,
since its registers are reached by aligned accesses at multiples of 4 from it (R39). DEDUCED, log 14. -/
def addressesWf (window : List Span) (regBase : Nat) : Bool :=
  decide (regBase % 4 = 0) && decide (regBase + 0x100 ≤ addressSpace) &&
  window.all fun s => decide (s.base + s.size ≤ addressSpace) && !overlaps s (registerWindow regBase)

end Sys2Proof.Machine
end

