-- ==== Sys2Proof/Config/Platform.lean ====
section
/-! DEFINITION. The parameters of R9 as plain data. A platform carries the proofs that its ROM satisfies ROM_WF (R33)
and that its address sets make sense, so that an ill-formed one cannot be built: "a model is never built or reset with
a ROM that fails ROM_WF" (R228, S11). Log 1, log 18. -/

namespace Sys2Proof

/-- The layout ROM with ID_MODE (R9, R30); well-formed by construction (R33, R229). -/
structure Rom where
  mode : IdMode := .uniqueId
  msgs : List MessageLayout := []
  wf   : Machine.romWf mode msgs = true := by decide
deriving DecidableEq, Repr, Inhabited

/-- The platform: the parameters of R9 that are data. MEM_WINDOW is the set of addresses the spans cover.
`allocAnswers` is what ALLOC is known to answer: entry `n` is its answer to call number `n`, and past the end the answer
is a free value (log 6). -/
structure Platform where
  rom         : Rom := {}
  memWindow   : List Span := []
  regBase     : Nat := 0
  clearScope  : ClearScope := .signalBits
  scalerFused : Bool := false
  allocAnswers : List (Option Nat) := []
  addressesOk : Machine.addressesWf memWindow regBase = true := by decide
deriving DecidableEq, Repr, Inhabited

/-- The platform of the machine after reset: R9 leaves it to the implementation, so it is an uninterpreted constant
(log 1). -/
opaque Config.platform : Platform

end Sys2Proof
end

