-- ==== Sys2Proof/Machine/State.lean ====
section
/-! DEFINITION. The state of one block instance, the host memory it reaches, what the host is going to do, and the state
after reset (R20, R38, R43, R45). Every field is plain data. `MachineState` is the state the spec speaks of, and holds no
parameter of R17; `State` stands it beside the parameters, since the host's `step` takes one argument (log 1). -/

namespace Sys2Proof.Machine

/-- The codes of STATUS.CODE (R200). Codes 6 to 15 are never written (R207). -/
inductive Code where
  | ok
  | unknownMessage
  | lengthMismatch
  | nullArgument
  | illegalCommand
  | resourceFault
deriving DecidableEq, Repr, Inhabited

/-- Host memory: the bytes that differ from what an unlisted address reads as, at rising addresses. -/
abbrev Memory := List Host.Cell

/-- One call of the allocator (R191, R242): the bytes asked for, the answer (`none` is FAIL), and whether the host has
released the region since (R194). -/
structure AllocCall where
  bytes    : Nat
  answer   : Option Nat
  released : Bool
deriving DecidableEq, Repr, Inhabited

/-- What the host can do between two steps of the block (R16, R102). Log 3. -/
inductive HostAction where
  /-- The host lets the block take its turn (R100, R240). -/
  | wait
  /-- A load of `n` bytes at host address `addr`: `rd` or `mr`. -/
  | load (addr n : Nat)
  /-- A store of the low `n` bytes of `v` at host address `addr`: `wr` or `mw`. -/
  | store (addr n v : Nat)
  /-- The host releases the Owned buffer at `addr` to the allocator (R194). -/
  | release (addr : Nat)
  /-- From now on the host keeps these spans of memory to itself, and gives the block the rest (R233). Log 12. -/
  | keep (spans : List Span)
  /-- The reset event (R225). -/
  | reset
deriving DecidableEq, Repr, Inhabited

/-- Everything a step can change. STATUS.BUSY is `latch` not being empty (R43, log 5), and INFO is computed from the ROM
(R37). No parameter of R17 is here. -/
structure MachineState where
  /-- The last accepted command word (R36). -/
  cmd       : Word
  /-- STATUS.CODE (R35). -/
  code      : Code
  /-- STATUS.OVR (R35, R42). -/
  ovr       : Bool
  /-- COUNT (R29). -/
  count     : Word
  /-- MSGIDX (R29). -/
  msgIdx    : Word
  /-- FRAME_ID (R22). -/
  frameId   : Word
  /-- FRAME_DLC (R23). -/
  frameDlc  : Byte
  /-- FRAME_DATA[0..7] (R24). -/
  frameData : FrameData
  /-- RAW (R25). -/
  raw       : Raw
  /-- SCALE (R27). -/
  scale     : F64
  /-- OFFSET (R27). -/
  offset    : F64
  /-- PHYS (R27). -/
  phys      : F64
  /-- DEST (R28). -/
  dest      : Word
  /-- SRC (R28). -/
  src       : Word
  /-- HANDLE (R28). -/
  handle    : Word
  /-- LATCH (R43). -/
  latch     : Option Word
  /-- Host memory (R60). -/
  mem       : Memory
  /-- The host's coming actions, oldest first. The model's own, log 3. -/
  inputs    : List HostAction
  /-- What the host's last load returned. The model's own, log 16. -/
  hostData  : Nat
  /-- The memory the host keeps to itself: the rest is given to the block (R233). The model's own, log 12. -/
  withheld  : List Span
  /-- The allocator calls made, oldest first, as the end state of a run records them (R242). Log 6. -/
  allocs    : List AllocCall
  /-- How many NaN draws were made. The model's own, log 7. -/
  nanDraws  : Nat
  /-- How many resets were taken. The model's own, log 8. -/
  resetDraws : Nat
deriving DecidableEq, Repr

/-- A state with the parameters it steps under (R17). -/
structure State extends MachineState where
  /-- The parameters of R9; no step writes it (R17, R34). Log 1. -/
  plat      : Platform
deriving DecidableEq, Repr

/-- Why the machine stops with a fault. Only a host action raises one; no command of the block does. -/
inductive Fault where
  /-- A host load or store of a byte at or past 2^32, where no address exists (R60). Raised by `HostAction.load` and
  `HostAction.store`. Safe: the machine stops where the spec defines nothing. Log 13. -/
  | addressBeyondSpace
deriving DecidableEq, Repr

/-- Why the machine refuses to go on: the run is outside the spec (93_implementation_defined.md, "refuse"). Only a host
action raises one; no command of the block does. -/
inductive Refusal where
  /-- An instruction whose meaning is not written, by its mnemonic. No arm of `exec` answers it any more. -/
  | notModelled (mnemonic : String)
  /-- A host access that touches the register window and is not an aligned 32-bit access to it (R39, S8). Safe. -/
  | windowAccessForm
  /-- A host access to the result region of a running DECODE (R75, R234). Safe. -/
  | touchesResultRegion
  /-- A host store into the raw-value region of a running ENCODE (R75, R234). Safe. -/
  | storesToSourceRegion
  /-- A command naming, as the result region of a Borrowed DECODE or the source region of an ENCODE, memory the host has
  not given to the block (R233, U3, U4). Raised by the `HostAction.store` of its word to CMD, and by a `HostAction.keep`
  that takes back the region of a running command. Safe. Log 12. -/
  | regionNotGiven
  /-- A host access to memory outside MEM_WINDOW, of which the spec says nothing (R62, R242). Safe. Log 13. -/
  | hostMemoryOutsideWindow
deriving DecidableEq, Repr

/-- The machine right after reset (R45), on an uninterpreted platform (log 1). Memory lists nothing (log 2), and the
model's own fields hold the values named in logs 3, 6, 7, 8, 12 and 16. -/
def State.reset : State where
  plat := Config.platform
  cmd := 0
  code := .ok
  ovr := false
  count := 0
  msgIdx := 0
  frameId := 0
  frameDlc := 0
  frameData := Vector.replicate 8 0
  raw := 0
  scale := 0
  offset := 0
  phys := 0
  dest := 0
  src := 0
  handle := 0
  latch := none
  mem := []
  inputs := []
  hostData := 0
  withheld := []
  allocs := []
  nanDraws := 0
  resetDraws := 0

end Sys2Proof.Machine
end

