-- ==== Sys2Proof/Machine/Flags.lean ====
section
/-! DEFINITION. STATUS and its fields (R35, R42, R43, R200). -/

namespace Sys2Proof.Machine

/-- The number of a code (R200). -/
def Code.toBits : Code → BitVec 4
  | .ok => 0
  | .unknownMessage => 1
  | .lengthMismatch => 2
  | .nullArgument => 3
  | .illegalCommand => 4
  | .resourceFault => 5

/-- STATUS.BUSY: 1 exactly when LATCH is not empty (R43). Log 5. -/
def State.busy (s : State) : Bool :=
  s.latch.isSome

/-- STATUS as the host reads it: CODE 3:0, BUSY 8, OVR 9, every other bit 0 (R35). -/
def State.status (s : State) : Word :=
  0#22 ++ BitVec.ofBool s.ovr ++ BitVec.ofBool s.busy ++ 0#4 ++ s.code.toBits

/-- INFO: NUM_MESSAGES in bits 15:0 and MAX_SIGNALS in bits 31:16 (R37). -/
def State.info (s : State) : Word :=
  BitVec.ofNat 16 (maxSignals s.plat.rom.msgs) ++ BitVec.ofNat 16 s.plat.rom.msgs.length

end Sys2Proof.Machine
end

