-- ==== Sys2Proof/Machine/Ops.lean ====
section
/-! DEFINITION. The shared operations: ending a command (R12), host memory (R62 to R66), the allocator (R191) and the
result buffer writer (R185 to R192). -/

namespace Sys2Proof.Machine

/-! ### Ending a command -/

/-- `finish(code)` of R12: writes STATUS.CODE and clears STATUS.BUSY, which empties LATCH (R43, R100). -/
def State.finish (s : State) (c : Code) : State :=
  { s with code := c, latch := none }

/-- `raise E` of R12, the one way a command reports an error. It is the same as `finish(E)`: no state is saved, no mode
changes and no control is transferred (R212), so there is nothing to return from (R213). -/
def State.raise (s : State) (c : Code) : State :=
  s.finish c

/-! ### Host memory -/

/-- What an address that is not listed reads as. The spec gives no contents. DESIGN CHOICE, unsafe: log 2. -/
def unlistedByte : Byte := 0

/-- The byte at an address. -/
def Memory.read : Memory → Nat → Byte
  | [], _ => unlistedByte
  | (k, x) :: m, a => if k = a then x else Memory.read m a

/-- Writes one byte, keeping the canonical form. -/
def Memory.write : Memory → Nat → Byte → Memory
  | [], a, b => if b = unlistedByte then [] else [(a, b)]
  | (k, x) :: m, a, b =>
    if a < k then (if b = unlistedByte then (k, x) :: m else (a, b) :: (k, x) :: m)
    else if a = k then (if b = unlistedByte then m else (a, b) :: m)
    else (k, x) :: Memory.write m a b

/-- The canonical form: addresses strictly rise, and no listed byte is what an unlisted address reads as. -/
def Memory.wf : Memory → Bool
  | [] => true
  | (k, x) :: m => decide (x ≠ unlistedByte) && m.all (fun c => decide (k < c.1)) && Memory.wf m

/-- Writes bytes at rising addresses from `a` (R64, R65). -/
def Memory.writeBytes : Memory → Nat → List Byte → Memory
  | m, _, [] => m
  | m, a, b :: bs => Memory.writeBytes (m.write a b) (a + 1) bs

/-- The `n` bytes at rising addresses from `a` (R63, R65). -/
def Memory.readBytes (m : Memory) : Nat → Nat → List Byte
  | _, 0 => []
  | a, n + 1 => m.read a :: Memory.readBytes m (a + 1) n

/-- The number whose little-endian image the bytes are (R63, R67). -/
def ofBytesLE : List Byte → Nat
  | [] => 0
  | b :: bs => b.toNat + 256 * ofBytesLE bs

/-- The little-endian image of the low `n` bytes of a number (R64, R67). -/
def toBytesLE : (n v : Nat) → List Byte
  | 0, _ => []
  | n + 1, v => BitVec.ofNat 8 v :: toBytesLE n (v / 256)

/-- `MemRead(a, n)` (R63). -/
def Memory.readLE (m : Memory) (a n : Nat) : Nat :=
  ofBytesLE (m.readBytes a n)

/-- `MemWrite(a, n, v)` (R64). -/
def Memory.writeLE (m : Memory) (a n v : Nat) : Memory :=
  m.writeBytes a (toBytesLE n v)

/-- `admitted(a, n)` (R62): the region lies in the address space and every byte of it in MEM_WINDOW; a region of no
bytes is admitted anywhere. -/
def admitted (window : List Span) (a n : Nat) : Bool :=
  decide (n = 0) ||
  (decide (a + n ≤ addressSpace) && (List.range n).all fun j => inWindow window (a + j))

/-! ### The allocator -/

/-- The regions the allocator has returned and the host has not released (R191 law 3). -/
def State.liveRegions (s : State) : List Span :=
  s.allocs.filterMap fun c => if c.released then none else c.answer.map fun a => ⟨a, c.bytes⟩

/-- Laws 1 to 3 of R191. Law 4 speaks of running commands; the one that runs here is the Owned DECODE that asks, which
names no other region (log 6, log 10). -/
def State.lawfulRegion (s : State) (a n : Nat) : Bool :=
  decide (a ≠ 0) && admitted s.plat.memWindow a n && s.liveRegions.all fun r => !overlaps ⟨a, n⟩ r

/-- What the allocator says to its next call, which is number `s.allocs.length`: a parameter of the step (R17), either
the answer the platform lists or a free value. -/
def State.allocDraw (s : State) (n : Nat) : Option Nat :=
  s.plat.allocAnswers.getD s.allocs.length (Config.freeAlloc s.allocs.length n)

/-- `Alloc(n)` (R191): the draw constrained by the laws. A draw that breaks them is read as FAIL. Log 6. -/
def State.allocAnswer (s : State) (n : Nat) : Option Nat :=
  (s.allocDraw n).filter fun a => s.lawfulRegion a n

/-- The allocator's own bookkeeping of one call. No register of the block changes. -/
def State.recordAlloc (s : State) (n : Nat) : State :=
  { s with allocs := s.allocs ++ [⟨n, s.allocAnswer n, false⟩] }

/-- The release of the region at `a` by the host (R194); an address that is no live region changes nothing (log 6). -/
def releaseIn (a : Nat) (calls : List AllocCall) : List AllocCall :=
  calls.map fun c => if c.answer = some a then { c with released := true } else c

/-! ### The result buffer writer -/

/-- A DECODE of `n` signals that calls the allocator: Owned mode with `n > 0` (R190, R191). -/
def State.consultsAllocator (s : State) (n : Nat) : Bool :=
  decide (s.dest = 0) && decide (n ≠ 0)

/-- `resultBase(DEST, N)` (R190); `none` is ResourceFault. -/
def State.resultBase (s : State) (n : Nat) : Option Nat :=
  if s.dest = 0 then
    if n = 0 then some 0 else s.allocAnswer (16 * n)
  else if admitted s.plat.memWindow s.dest.toNat (16 * n) then some s.dest.toNat else none

/-- The state once resultBase has answered: the allocator has noted the call, if there was one. -/
def State.afterResultBase (s : State) (n : Nat) : State :=
  if s.consultsAllocator n then s.recordAlloc (16 * n) else s

/-- The 16-byte record image `zext_32(SIGREF) | (VALUE << 64)` (R188). -/
def recordImage (ref : Nat) (v : F64) : Nat :=
  ref % 2 ^ 32 + v.toNat * 2 ^ 64

/-- The images of the records from number `i` on, each at `base + 16*i` (R189), written in ascending order (R72). -/
def writeRecords (m : Memory) (base : Nat) : (i : Nat) → List Nat → Memory
  | _, [] => m
  | i, r :: rs => writeRecords (m.writeLE (base + 16 * i) 16 r) base (i + 1) rs

end Sys2Proof.Machine
end

