-- ==== Sys2Proof/Machine/Operands.lean ====
section
/-! DEFINITION. The operands of the commands: single bits of the frame (R11), the field check of the field commands
(R203), and the raw-value array of ENCODE (R124). -/

namespace Sys2Proof.Machine

/-- Bit `p.2` of frame byte `p.1` (R11). -/
def getBit (d : FrameData) (p : Nat × Nat) : Bool :=
  (d.getD p.1 0).getLsbD p.2

/-- `b` with its bit `i` replaced. -/
def setBitOf {n : Nat} (b : BitVec n) (i : Nat) (v : Bool) : BitVec n :=
  if v then b ||| BitVec.twoPow n i else b &&& ~~~BitVec.twoPow n i

/-- `D[j][b] <- v` (R147). -/
def setBit (d : FrameData) (p : Nat × Nat) (v : Bool) : FrameData :=
  d.setIfInBounds p.1 (setBitOf (d.getD p.1 0) p.2 v)

/-- LEN is 1 to 64 (R90). -/
def lenLegal (f : FieldDesc) : Bool :=
  decide (1 ≤ f.len) && decide (f.len ≤ 64)

/-- What EXTRACT and PACK check before they act: LEN in range, then the field fits in 8 bytes, whatever FRAME_DLC holds
(R143, R150, R154). -/
def fieldLegal (f : FieldDesc) : Bool :=
  lenLegal f && fits f.start f.len f.order 8

/-- The raw values `MemRead(SRC + 8*i, 8)` for i = 0 to n-1, in ascending order (R124, R72). -/
def readRaws (m : Memory) (src : Nat) : Nat → List Raw
  | 0 => []
  | n + 1 => readRaws m src n ++ [BitVec.ofNat 64 (m.readLE (src + 8 * n) 8)]

end Sys2Proof.Machine
end

