-- ==== Sys2Proof/Machine/Codec.lean ====
section
/-! DEFINITION. The bit-field codec: extractor, sign-extender and packer (R145 to R147), and the commands EXTRACT, SEXT
and PACK (R150, R152, R154). -/

namespace Sys2Proof.Machine

/-- The low `n` value bits of the field (s, len, ord), in a 64-bit accumulator (R145). -/
def extractBits (d : FrameData) (s len : Nat) (ord : ByteOrder) : Nat → Raw
  | 0 => 0
  | n + 1 => setBitOf (extractBits d s len ord n) n (getBit d (bitpos s len ord n))

/-- `extract(D, s, L, ord)` (R145). -/
def extract (d : FrameData) (s len : Nat) (ord : ByteOrder) : Raw :=
  extractBits d s len ord len

/-- `sext_N(v)` (R12). -/
def sextFrom (n : Nat) (v : Raw) : Raw := (v.setWidth n).signExtend 64

/-- `zext_N(v)` (R12). -/
def zextFrom (n : Nat) (v : Raw) : Raw := (v.setWidth n).setWidth 64

/-- `signx(v, L, sg)` (R146). -/
def signx (v : Raw) (len : Nat) (signed : Bool) : Raw :=
  if signed && v.getLsbD (len - 1) then sextFrom len v else zextFrom len v

/-- The frame with the low `n` value bits of the field (s, len, ord) replaced by those of `v` (R147). -/
def packBits (d : FrameData) (s len : Nat) (ord : ByteOrder) (v : Raw) : Nat → FrameData
  | 0 => d
  | n + 1 => setBit (packBits d s len ord v n) (bitpos s len ord n) (v.getLsbD n)

/-- `pack(D, s, L, ord, v)` (R147). -/
def packField (d : FrameData) (s len : Nat) (ord : ByteOrder) (v : Raw) : FrameData :=
  packBits d s len ord v len

/-- EXTRACT (R150): RAW from FRAME_DATA, zero-extended. SIGNED is ignored (R95). -/
def execExtract (f : FieldDesc) (s : State) : Host.Outcome State Fault Refusal :=
  .next (if fieldLegal f then
    State.finish { s with raw := extract s.frameData f.start f.len f.order } .ok
  else s.raise .illegalCommand)

/-- SEXT (R152): RAW from RAW. START and ORDER are ignored (R95). -/
def execSext (f : FieldDesc) (s : State) : Host.Outcome State Fault Refusal :=
  .next (if lenLegal f then
    State.finish { s with raw := signx s.raw f.len f.signed } .ok
  else s.raise .illegalCommand)

/-- PACK (R154): LEN bits of FRAME_DATA from RAW. SIGNED is ignored (R95). -/
def execPack (f : FieldDesc) (s : State) : Host.Outcome State Fault Refusal :=
  .next (if fieldLegal f then
    State.finish { s with frameData := packField s.frameData f.start f.len f.order s.raw } .ok
  else s.raise .illegalCommand)

end Sys2Proof.Machine
end

