-- ==== Sys2Proof/Machine/Float.lean ====
section
/-! DEFINITION. IEEE-754 binary64 with rounding to nearest, ties to even (R170). The format and the rounding are general
knowledge by the spec's own mark (G1 to G4). Log 15.

Every finite binary64 value is a whole number of units of 2^-1074, its `magnitude`. An operation computes its exact
result in units of 2^-2148 and rounds it once. -/

namespace Sys2Proof.Machine

namespace F64

/-- The sign bit. -/
def sign (x : F64) : Bool := x.getLsbD 63

/-- The biased exponent, bits 62:52. -/
def expField (x : F64) : Nat := x.toNat / 2 ^ 52 % 2 ^ 11

/-- The fraction, bits 51:0. -/
def fraction (x : F64) : Nat := x.toNat % 2 ^ 52

def isNaN (x : F64) : Bool := decide (expField x = 2047) && decide (fraction x ≠ 0)

def isInf (x : F64) : Bool := decide (expField x = 2047) && decide (fraction x = 0)

def isFinite (x : F64) : Bool := decide (expField x ≠ 2047)

def isZero (x : F64) : Bool := decide (expField x = 0) && decide (fraction x = 0)

/-- The absolute value of a finite pattern in units of 2^-1074: subnormals have exponent field 0 and no hidden bit. -/
def magnitude (x : F64) : Nat :=
  if expField x = 0 then fraction x else (2 ^ 52 + fraction x) <<< (expField x - 1)

/-- The value of a finite pattern in units of 2^-1074. -/
def units (x : F64) : Int :=
  if sign x then -(magnitude x : Int) else (magnitude x : Int)

/-- A pattern with the given sign and the given bits 62:0. -/
def withSign (neg : Bool) (low : Nat) : F64 :=
  BitVec.ofBool neg ++ BitVec.ofNat 63 low

/-- The bits 62:0 of infinity. -/
def infLow : Nat := 2047 <<< 52

def inf (neg : Bool) : F64 := withSign neg infLow

def zero (neg : Bool) : F64 := withSign neg 0

/-- A NaN that stands for "the IEEE result is a NaN" inside the scaler; `settleNan` replaces it by the draw (R172). -/
def nanMark : F64 := 0x7FF8000000000000#64

/-- `m / 2^d` rounded to the nearest whole number, ties to even. -/
def roundQuot (m d : Nat) : Nat :=
  let q := m >>> d
  let r := m % 2 ^ d
  if 2 * r > 2 ^ d ∨ (2 * r = 2 ^ d ∧ q % 2 = 1) then q + 1 else q

/-- How many low bits of `m` lie below the last place of the result: all below 2^-1074, and all but 53. -/
def dropBits (m : Nat) : Nat :=
  max 1074 (Nat.log2 m + 1 - 53)

/-- The bits 62:0 of the binary64 nearest to `m * 2^-2148`; a carry out of the fraction moves into the exponent, and
what reaches the exponent of infinity is infinity. -/
def roundLow (m : Nat) : Nat :=
  let low := (dropBits m - 1074) <<< 52 + roundQuot m (dropBits m)
  if infLow ≤ low then infLow else low

/-- The binary64 nearest to `m * 2^-2148` with the given sign. -/
def round (neg : Bool) (m : Nat) : F64 :=
  withSign neg (roundLow m)

/-- The binary64 nearest to `n * 2^-2148`; an exact zero has the sign `zeroNeg`. -/
def roundInt (zeroNeg : Bool) (n : Int) : F64 :=
  if n = 0 then zero zeroNeg else round (decide (n < 0)) n.natAbs

end F64

/-- `toF64u(x)` (R170). -/
def toF64u (x : Raw) : F64 :=
  F64.roundInt false ((x.toNat <<< 2148 : Nat) : Int)

/-- `toF64s(x)` (R170). -/
def toF64s (x : Raw) : F64 :=
  F64.roundInt false (x.toInt * ((1 <<< 2148 : Nat) : Int))

/-- `mulF64(a, b)` (R170). -/
def mulF64 (a b : F64) : F64 :=
  if F64.isNaN a || F64.isNaN b then F64.nanMark
  else if F64.isInf a || F64.isInf b then
    if F64.isZero a || F64.isZero b then F64.nanMark else F64.inf (F64.sign a != F64.sign b)
  else F64.round (F64.sign a != F64.sign b) (F64.magnitude a * F64.magnitude b)

/-- `addF64(a, b)` (R170). A sum that is exactly zero is -0 only when both operands are negative. -/
def addF64 (a b : F64) : F64 :=
  if F64.isNaN a || F64.isNaN b then F64.nanMark
  else if F64.isInf a then
    if F64.isInf b && F64.sign a != F64.sign b then F64.nanMark else a
  else if F64.isInf b then b
  else F64.roundInt (F64.sign a && F64.sign b) ((F64.units a + F64.units b) * ((1 <<< 1074 : Nat) : Int))

/-- `fmaF64(a, b, c)`: a*b + c, rounded once (R170). -/
def fmaF64 (a b c : F64) : F64 :=
  if F64.isNaN a || F64.isNaN b || F64.isNaN c then F64.nanMark
  else if F64.isInf a || F64.isInf b then
    if F64.isZero a || F64.isZero b then F64.nanMark
    else if F64.isInf c && F64.sign c != (F64.sign a != F64.sign b) then F64.nanMark
    else F64.inf (F64.sign a != F64.sign b)
  else if F64.isInf c then c
  else F64.roundInt ((F64.sign a != F64.sign b) && F64.sign c)
    (F64.units a * F64.units b + F64.units c * ((1 <<< 1074 : Nat) : Int))

end Sys2Proof.Machine
end

