-- ==== Sys2Proof/Machine/Scaler.lean ====
section
/-! DEFINITION. The linear scaler and the command SCALE (R170 to R174). -/

namespace Sys2Proof.Machine

/-- A NaN whose sign and payload are those of the draw; a draw with an all-zero fraction has its last bit set, so
that every NaN is some draw's and every draw gives a NaN (R172). Log 7. -/
def nanOfDraw (draw : F64) : F64 :=
  0x7FF0000000000000#64 ||| (draw &&& 0x800FFFFFFFFFFFFF#64) |||
    (if F64.fraction draw = 0 then 1#64 else 0#64)

/-- The IEEE-754 result, or the draw's NaN where the IEEE-754 result is a NaN (R172). -/
def settleNan (draw v : F64) : F64 :=
  if F64.isNaN v then nanOfDraw draw else v

/-- The raw value as a binary64, in the signedness the signal declares (R171). -/
def rawToF64 (raw : Raw) (signed : Bool) : F64 :=
  if signed then toF64s raw else toF64u raw

/-- `scale` of R171 before R172 settles a NaN: rounded once when fused, else after the multiply and after the add. -/
def scaleIeee (fused : Bool) (raw : Raw) (signed : Bool) (sc off : F64) : F64 :=
  if fused then fmaF64 (rawToF64 raw signed) sc off else addF64 (mulF64 (rawToF64 raw signed) sc) off

/-- `scale(raw, sg, sc, of)` with the NaN draw of this result (R171, R172). -/
def scaleValue (fused : Bool) (draw : F64) (raw : Raw) (signed : Bool) (sc off : F64) : F64 :=
  settleNan draw (scaleIeee fused raw signed sc off)

/-- SCALE (R174): PHYS from RAW, SCALE and OFFSET. START, LEN and ORDER are ignored (R95). One NaN draw is used up. -/
def execScale (f : FieldDesc) (s : State) : Host.Outcome State Fault Refusal :=
  .next (State.finish { s with
    phys := scaleValue s.plat.scalerFused (Config.freeNan s.nanDraws) s.raw f.signed s.scale s.offset
    nanDraws := s.nanDraws + 1 } .ok)

end Sys2Proof.Machine
end

