-- ==== Sys2Proof/Machine/Message.lean ====
section
/-! DEFINITION. The message dispatcher: ID router, signal iterator, and the commands NOP, ROUTE, DECODE and ENCODE
(R110 to R128). -/

namespace Sys2Proof.Machine

/-! ### The ID router -/

/-- The ROM indices whose message satisfies a test, in order. -/
def indicesWhere (p : MessageLayout → Bool) (msgs : List MessageLayout) : List Nat :=
  (List.range msgs.length).filter fun k => p (messageAt msgs k)

/-- The set C of R115: the messages with this ID, compared on all 32 bits. -/
def withId (msgs : List MessageLayout) (id : Word) : List Nat :=
  indicesWhere (fun m => decide (m.id = id.toNat)) msgs

/-- The set L of R115: those of them whose length is the DLC, compared on all 8 bits (R116). -/
def withIdAndLength (msgs : List MessageLayout) (id : Word) (dlc : Byte) : List Nat :=
  indicesWhere (fun m => decide (m.id = id.toNat) && decide (m.byteLength = dlc.toNat)) msgs

/-- `route(id, dlc)` (R115): the lookup before the length check (R116). -/
def route (msgs : List MessageLayout) (id : Word) (dlc : Byte) : Except Code Nat :=
  if withId msgs id = [] then .error .unknownMessage
  else match withIdAndLength msgs id dlc with
    | [] => .error .lengthMismatch
    | k :: _ => .ok k

/-- What the router says of the frame mailbox. -/
def State.routed (s : State) : Except Code Nat :=
  route s.plat.rom.msgs s.frameId s.frameDlc

/-! ### The signal iterator -/

/-- `decodeSignal(D, g)` (R119), with the NaN draw of this signal's scaling. -/
def decodeSignal (fused : Bool) (draw : F64) (d : FrameData) (g : SignalLayout) : F64 :=
  scaleValue fused draw (signx (extract d g.startBit g.bitLength g.byteOrder) g.bitLength g.signed) g.signed g.scale g.offset

/-- The record images of the signals from number `i` on, in declared order (R117, R120, R188). Signal `i` takes NaN draw
number `draw + i`. -/
def recordImages (fused : Bool) (msgs : List MessageLayout) (k draw : Nat) (d : FrameData) :
    (i : Nat) → List SignalLayout → List Nat
  | _, [] => []
  | i, g :: gs =>
    recordImage (sigref msgs k i) (decodeSignal fused (Config.freeNan (draw + i)) d g) ::
      recordImages fused msgs k draw d (i + 1) gs

/-- The signals of the message of ROM index `k`. -/
def State.signalsOf (s : State) (k : Nat) : List SignalLayout :=
  (messageAt s.plat.rom.msgs k).sigs

/-- N, the number of signals of the message of ROM index `k`. -/
def State.countOf (s : State) (k : Nat) : Nat :=
  (s.signalsOf k).length

/-- The records DECODE writes for message `k`. -/
def State.decodedRecords (s : State) (k : Nat) : List Nat :=
  recordImages s.plat.scalerFused s.plat.rom.msgs k s.nanDraws s.frameData 0 (s.signalsOf k)

/-- DECODE once message `k` is routed (R120): the base, the records, then COUNT, MSGIDX and, in Owned mode, HANDLE. -/
def State.decodeMessage (s : State) (k : Nat) : State :=
  match s.resultBase (s.countOf k) with
  | none => (s.afterResultBase (s.countOf k)).raise .resourceFault
  | some base =>
    State.finish { s.afterResultBase (s.countOf k) with
      mem := writeRecords s.mem base 0 (s.decodedRecords k)
      count := BitVec.ofNat 32 (s.countOf k)
      msgIdx := BitVec.ofNat 32 k
      handle := if s.dest = 0 then BitVec.ofNat 32 base else s.handle
      nanDraws := s.nanDraws + s.countOf k } .ok

/-- The bit positions ENCODE clears first (R122). -/
def clearPositions (scope : ClearScope) (m : MessageLayout) : List (Nat × Nat) :=
  match scope with
  | .signalBits =>
    m.sigs.flatMap fun g => (List.range g.bitLength).map (bitpos g.startBit g.bitLength g.byteOrder)
  | .declaredBytes =>
    (List.range m.byteLength).flatMap fun j => (List.range 8).map fun b => (j, b)

/-- `D[j][b] <- 0` for every position listed (R124). -/
def clearBits (d : FrameData) (ps : List (Nat × Nat)) : FrameData :=
  ps.foldl (fun d p => setBit d p false) d

/-- The packs of ENCODE in layout order, value `i` into signal `i` (R117, R124). -/
def packSignals : FrameData → List SignalLayout → List Raw → FrameData
  | d, g :: gs, v :: vs => packSignals (packField d g.startBit g.bitLength g.byteOrder v) gs vs
  | d, _, _ => d

/-- The frame bytes ENCODE leaves (R124). -/
def encodeFrame (scope : ClearScope) (m : MessageLayout) (d : FrameData) (raws : List Raw) : FrameData :=
  packSignals (clearBits d (clearPositions scope m)) m.sigs raws

/-- The checks of ENCODE in order: KIND, the null pointer, the window (R124, R210). -/
def State.encodeChecks (s : State) (kind : Nat) : Except Code Unit :=
  if s.plat.rom.msgs.length ≤ kind then .error .illegalCommand
  else if s.countOf kind ≠ 0 ∧ s.src = 0 then .error .nullArgument
  else if !admitted s.plat.memWindow s.src.toNat (8 * s.countOf kind) then .error .resourceFault
  else .ok ()

/-- The raw values ENCODE reads for message `kind`. -/
def State.sourceRaws (s : State) (kind : Nat) : List Raw :=
  readRaws s.mem s.src.toNat (s.countOf kind)

/-! ### The commands -/

/-- NOP (R110). -/
def execNop (s : State) : Host.Outcome State Fault Refusal :=
  .next (s.finish .ok)

/-- ROUTE (R118): MSGIDX from FRAME_ID and FRAME_DLC. -/
def execRoute (s : State) : Host.Outcome State Fault Refusal :=
  .next (match s.routed with
    | .error e => s.raise e
    | .ok k => State.finish { s with msgIdx := BitVec.ofNat 32 k } .ok)

/-- DECODE (R120). -/
def execDecode (s : State) : Host.Outcome State Fault Refusal :=
  .next (match s.routed with
    | .error e => s.raise e
    | .ok k => s.decodeMessage k)

/-- ENCODE of message `kind` (R124). -/
def execEncode (kind : Nat) (s : State) : Host.Outcome State Fault Refusal :=
  .next (match s.encodeChecks kind with
    | .error e => s.raise e
    | .ok _ =>
      State.finish { s with
        frameData :=
          encodeFrame s.plat.clearScope (messageAt s.plat.rom.msgs kind) s.frameData (s.sourceRaws kind)
        frameId := BitVec.ofNat 32 (messageAt s.plat.rom.msgs kind).id
        frameDlc := BitVec.ofNat 8 (messageAt s.plat.rom.msgs kind).byteLength
        count := BitVec.ofNat 32 (s.countOf kind)
        msgIdx := BitVec.ofNat 32 kind } .ok)

end Sys2Proof.Machine
end

