-- ==== Sys2Proof/Machine/Dispatch.lean ====
section
/-! DEFINITION. One arm per command (R94). -/

namespace Sys2Proof.Machine

def exec (i : Instr) (s : State) : Host.Outcome State Fault Refusal :=
  match i with
  | .nop => Sys2Proof.Machine.execNop s
  | .extract f => Sys2Proof.Machine.execExtract f s
  | .sext f => Sys2Proof.Machine.execSext f s
  | .pack f => Sys2Proof.Machine.execPack f s
  | .scale f => Sys2Proof.Machine.execScale f s
  | .route => Sys2Proof.Machine.execRoute s
  | .decode => Sys2Proof.Machine.execDecode s
  | .encode kind => Sys2Proof.Machine.execEncode kind s

end Sys2Proof.Machine
end

