-- ==== Sys2Proof/Machine/Window.lean ====
section
/-! DEFINITION. The register window: the map of R38, and what a host access to it does (R35 to R42, R99). -/

namespace Sys2Proof.Machine

/-- The registers of the window (R38). `reserved` stands for every offset from 0x50 to 0xFC. -/
inductive Reg where
  | cmd | status | count | msgIdx | frameId | frameDlc | dataLo | dataHi | rawLo | rawHi
  | scaleLo | scaleHi | offsetLo | offsetHi | physLo | physHi | dest | src | handle | info | reserved
deriving DecidableEq, Repr

/-- The register at a word number of the window, the word number being the offset divided by 4 (R38). -/
def regAt (word : Nat) : Reg :=
  [Reg.cmd, .status, .count, .msgIdx, .frameId, .frameDlc, .dataLo, .dataHi, .rawLo, .rawHi,
    .scaleLo, .scaleHi, .offsetLo, .offsetHi, .physLo, .physHi, .dest, .src, .handle, .info].getD word .reserved

/-- Four bytes of the frame as a view: byte `j` in the low-order bits (R24, R67). -/
def frameView (d : FrameData) (j : Nat) : Word :=
  d.getD (j + 3) 0 ++ d.getD (j + 2) 0 ++ d.getD (j + 1) 0 ++ d.getD j 0

/-- A host write to a view writes all four of its bytes (R24). -/
def setFrameView (d : FrameData) (j : Nat) (v : Word) : FrameData :=
  (((d.setIfInBounds j (v.extractLsb' 0 8)).setIfInBounds (j + 1) (v.extractLsb' 8 8)).setIfInBounds (j + 2)
    (v.extractLsb' 16 8)).setIfInBounds (j + 3) (v.extractLsb' 24 8)

/-- Bits 31:0 of a 64-bit register. -/
def lowWord (x : Raw) : Word := x.extractLsb' 0 32

/-- Bits 63:32 of a 64-bit register. -/
def highWord (x : Raw) : Word := x.extractLsb' 32 32

/-- What a host read returns (R38); reserved offsets and reserved bits read as zero (R40). -/
def State.regRead (s : State) : Reg → Word
  | .cmd => s.cmd
  | .status => s.status
  | .count => s.count
  | .msgIdx => s.msgIdx
  | .frameId => s.frameId
  | .frameDlc => s.frameDlc.setWidth 32
  | .dataLo => frameView s.frameData 0
  | .dataHi => frameView s.frameData 4
  | .rawLo => lowWord s.raw
  | .rawHi => highWord s.raw
  | .scaleLo => lowWord s.scale
  | .scaleHi => highWord s.scale
  | .offsetLo => lowWord s.offset
  | .offsetHi => highWord s.offset
  | .physLo => lowWord s.phys
  | .physHi => highWord s.phys
  | .dest => s.dest
  | .src => s.src
  | .handle => s.handle
  | .info => s.info
  | .reserved => 0

/-- CMD and the RW registers: those whose writes are lost while BUSY = 1 (R41). -/
def Reg.lockedWhileBusy : Reg → Bool
  | .cmd | .frameId | .frameDlc | .dataLo | .dataHi | .rawLo | .rawHi
  | .scaleLo | .scaleHi | .offsetLo | .offsetHi | .dest | .src => true
  | .status | .count | .msgIdx | .physLo | .physHi | .handle | .info | .reserved => false

/-- A write of CMD while BUSY = 0 is accepted: the word is latched and CMD reads it (R36, R99). -/
def State.accept (s : State) (w : Word) : State :=
  { s with latch := some w, cmd := w }

/-- A write that BUSY = 1 makes the block ignore sets OVR (R41). -/
def State.loseWrite (s : State) : State :=
  { s with ovr := true }

/-- A host write to a register while BUSY = 0. Writes to read-only registers and reserved offsets are ignored (R40);
STATUS is write-1-to-clear in bit 9 and read-only elsewhere (R35, R40). -/
def State.regStore (s : State) (r : Reg) (v : Word) : State :=
  match r with
  | .cmd => s.accept v
  | .status => if v.getLsbD 9 then { s with ovr := false } else s
  | .frameId => { s with frameId := v }
  | .frameDlc => { s with frameDlc := v.extractLsb' 0 8 }
  | .dataLo => { s with frameData := setFrameView s.frameData 0 v }
  | .dataHi => { s with frameData := setFrameView s.frameData 4 v }
  | .rawLo => { s with raw := highWord s.raw ++ v }
  | .rawHi => { s with raw := v ++ lowWord s.raw }
  | .scaleLo => { s with scale := highWord s.scale ++ v }
  | .scaleHi => { s with scale := v ++ lowWord s.scale }
  | .offsetLo => { s with offset := highWord s.offset ++ v }
  | .offsetHi => { s with offset := v ++ lowWord s.offset }
  | .dest => { s with dest := v }
  | .src => { s with src := v }
  | .count | .msgIdx | .physLo | .physHi | .handle | .info | .reserved => s

/-- A host write to a register (R40, R41). -/
def State.regWrite (s : State) (r : Reg) (v : Word) : State :=
  if s.busy && r.lockedWhileBusy then s.loseWrite else s.regStore r v

end Sys2Proof.Machine
end

