-- ==== Sys2Proof/Machine/HostSide.lean ====
section
/-! DEFINITION. What the host does to the machine: loads and stores (R39, R60, R62), its duties (R75, R233), release
of Owned buffers (R194), and the reset event (R225 to R227). -/

namespace Sys2Proof.Machine

/-! ### The host's duties -/

/-- What the running command does with a region of host memory. -/
inductive RegionUse where
  | result
  | source
deriving DecidableEq, Repr

/-- Where the result region of a DECODE of message `k` starts: at DEST in Borrowed mode, whether or not the region is
admitted, and at the allocator's answer, if there is one, in Owned mode (R75, R187, R190). Log 11. -/
def State.resultRegionBase (s : State) (k : Nat) : Option Nat :=
  if s.dest = 0 then s.resultBase (s.countOf k) else some s.dest.toNat

/-- The region of host memory that the duties of R75 speak of: the result region of a running DECODE, or [SRC, SRC + 8N)
of a running ENCODE. N is that of the routed message or of KIND, so a command without a message has no region. Whether
the later checks of the command pass does not matter. Log 11. -/
def State.runningRegion (s : State) : Option (RegionUse × Span) :=
  match s.latch.map decode with
  | some (.ok .decode) =>
    match s.routed with
    | .ok k => (s.resultRegionBase k).map fun base => (.result, ⟨base, 16 * s.countOf k⟩)
    | .error _ => none
  | some (.ok (.encode kind)) =>
    if kind < s.plat.rom.msgs.length then some (.source, ⟨s.src.toNat, 8 * s.countOf kind⟩) else none
  | _ => none

/-- The duty of R75 a host access breaks, if it breaks one: no access to the result region of a running DECODE, no
write to the source region of a running ENCODE. -/
def State.brokenDuty (s : State) (isStore : Bool) (r : Span) : Option Refusal :=
  match s.runningRegion with
  | some (.result, t) => if overlaps r t then some .touchesResultRegion else none
  | some (.source, t) => if isStore && overlaps r t then some .storesToSourceRegion else none
  | none => none

/-- The region of host memory the latched command is going to use and the host must have given to the block: the result
region of a Borrowed DECODE or the source region of an ENCODE, of a command that passes its checks (R233). An Owned region
is the allocator's to give. Log 12. -/
def State.borrowedRegion (s : State) : Option Span :=
  match s.latch.map decode with
  | some (.ok .decode) =>
    match s.routed with
    | .ok k =>
      if s.dest = 0 then none else (s.resultBase (s.countOf k)).map fun base => ⟨base, 16 * s.countOf k⟩
    | .error _ => none
  | some (.ok (.encode kind)) =>
    match s.encodeChecks kind with
    | .ok _ => some ⟨s.src.toNat, 8 * s.countOf kind⟩
    | .error _ => none
  | _ => none

/-- The latched command names memory the host has not given to the block (R233). Log 12. -/
def State.namesUngiven (s : State) : Bool :=
  match s.borrowedRegion with
  | some t => s.withheld.any fun kept => overlaps kept t
  | none => false

/-! ### Loads and stores -/

/-- Where a host access goes. -/
inductive Target where
  /-- The register at a word of the window (R38, R39). -/
  | register (r : Reg)
  /-- Host memory in MEM_WINDOW (R62). -/
  | memory
  /-- Nowhere the spec describes. -/
  | refused (r : Refusal)
  /-- An address that does not exist. -/
  | fault (r : Fault)
deriving DecidableEq, Repr

/-- The target of a host access of `n` bytes at `addr`: the register window takes aligned 32-bit accesses only (R39),
and memory accesses keep the duties of R75. -/
def State.target (s : State) (isStore : Bool) (addr n : Nat) : Target :=
  if overlaps ⟨addr, n⟩ (registerWindow s.plat.regBase) then
    if n = 4 ∧ s.plat.regBase ≤ addr ∧ (addr - s.plat.regBase) % 4 = 0 then
      .register (regAt ((addr - s.plat.regBase) / 4))
    else .refused .windowAccessForm
  else if admitted s.plat.memWindow addr n then
    match s.brokenDuty isStore ⟨addr, n⟩ with
    | some r => .refused r
    | none => .memory
  else if addressSpace < addr + n then .fault .addressBeyondSpace
  else .refused .hostMemoryOutsideWindow

/-- A host load; what it returns goes to `hostData` (log 16). A load changes nothing else. -/
def hostLoad (addr n : Nat) (s : State) : Host.Outcome State Fault Refusal :=
  match s.target false addr n with
  | .register r => .next { s with hostData := (s.regRead r).toNat }
  | .memory => .next { s with hostData := s.mem.readLE addr n }
  | .refused r => .refused r
  | .fault r => .fault r

/-- A host store to a register. A store to CMD that would have a command accepted which names memory the host has not
given is refused (R233); operands are locked from acceptance on (R41), so this is where the host's duty is decided. -/
def storeRegister (r : Reg) (v : Word) (s : State) : Host.Outcome State Fault Refusal :=
  if r = .cmd ∧ s.busy = false ∧ (s.accept v).namesUngiven = true then .refused .regionNotGiven
  else .next (s.regWrite r v)

/-- A host store of the low `n` bytes of `v` (log 19). -/
def hostStore (addr n v : Nat) (s : State) : Host.Outcome State Fault Refusal :=
  match s.target true addr n with
  | .register r => storeRegister r (BitVec.ofNat 32 v) s
  | .memory => .next { s with mem := s.mem.writeLE addr n v }
  | .refused r => .refused r
  | .fault r => .fault r

/-- The host gives an Owned buffer back to the allocator; no register of the block is involved (R194). -/
def hostRelease (addr : Nat) (s : State) : Host.Outcome State Fault Refusal :=
  .next { s with allocs := releaseIn addr s.allocs }

/-- From now on the host keeps these spans to itself; one that takes back the region of a running command is refused
(R233). -/
def hostKeep (spans : List Span) (s : State) : Host.Outcome State Fault Refusal :=
  if State.namesUngiven { s with withheld := spans } = true then .refused .regionNotGiven
  else .next { s with withheld := spans }

/-! ### Reset -/

/-- The bytes of a region after its command was cut short: byte by byte the old or the new one (R227). -/
def mixBytes (reset : Nat) (old new : Memory) : (a n : Nat) → List Byte
  | _, 0 => []
  | a, n + 1 =>
    (if Config.freeResetByte reset a then new.read a else old.read a) :: mixBytes reset old new (a + 1) n

/-- Memory when a command with result region `t`, which would have left memory `new`, is cut short (R227). -/
def mixMemory (reset : Nat) (old new : Memory) (t : Span) : Memory :=
  old.writeBytes t.base (mixBytes reset old new t.base t.size)

/-- What an abandoned DECODE of message `k` leaves outside the registers: its region byte by byte old or new, and, in
Owned mode, the allocator's record of the call if it had been made, which the block does not undo (R227, log 8). -/
def State.abandonDecode (s : State) (k : Nat) : State :=
  if s.consultsAllocator (s.countOf k) && !Config.freeResetAlloc s.resetDraws then s
  else match s.resultBase (s.countOf k) with
    | none => s.afterResultBase (s.countOf k)
    | some base =>
      { s.afterResultBase (s.countOf k) with
        mem := mixMemory s.resetDraws s.mem (writeRecords s.mem base 0 (s.decodedRecords k))
          ⟨base, 16 * s.countOf k⟩
        nanDraws := s.nanDraws + s.countOf k }

/-- What the latched command leaves outside the registers when reset cuts it short (R227). Only a DECODE writes
memory or asks the allocator. -/
def State.abandonLatched (s : State) : State :=
  match s.latch.map decode with
  | some (.ok .decode) =>
    match s.routed with
    | .ok k => s.abandonDecode k
    | .error _ => s
  | _ => s

/-- Every register of the block, and LATCH, at its reset value (R45). What is not the block's stays: the platform,
memory, the host's actions and data and what it keeps, the record of the allocator, and the counts of draws. -/
def State.resetRegisters (s : State) : State :=
  { State.reset with
    plat := s.plat
    mem := s.mem
    inputs := s.inputs
    hostData := s.hostData
    withheld := s.withheld
    allocs := s.allocs
    nanDraws := s.nanDraws
    resetDraws := s.resetDraws + 1 }

/-- The reset event (R225, R227). -/
def resetEvent (s : State) : Host.Outcome State Fault Refusal :=
  .next s.abandonLatched.resetRegisters

/-! ### The block's turn -/

/-- The block step (R100): when LATCH holds a word, the whole command runs; an illegal word raises IllegalCommand (R96).
With LATCH empty the block is idle and loses nothing (R221). -/
def blockStep (s : State) : Host.Outcome State Fault Refusal :=
  match s.latch with
  | none => .next s
  | some w =>
    match decode w with
    | .error _ => .next (s.raise .illegalCommand)
    | .ok i => exec i s

/-- One host action. `wait` gives the block its turn. -/
def hostStep (a : HostAction) (s : State) : Host.Outcome State Fault Refusal :=
  match a with
  | .wait => blockStep s
  | .load addr n => hostLoad addr n s
  | .store addr n v => hostStore addr n v s
  | .release addr => hostRelease addr s
  | .keep spans => hostKeep spans s
  | .reset => resetEvent s

/-- The state with command word `w` latched and the host waiting, so that the block's next step runs it (R99). -/
def State.latchWord (s : State) (w : Word) : State :=
  { s with latch := some w, cmd := w, inputs := [] }

end Sys2Proof.Machine
end

