-- ==== Sys2Proof/Machine/Step.lean ====
section
/-! DEFINITION. One step of the machine. The block fetches nothing (R79): its next command is the one in LATCH. The
host's coming actions stand in `inputs` and are taken first; when there are none, it is the block's turn. Log 3. -/

namespace Sys2Proof.Machine

/-- One step: the oldest host action, or the block step when the host does nothing (R16, R100, R240). -/
def step (s : State) : Host.Outcome State Fault Refusal :=
  match s.inputs with
  | [] => blockStep s
  | a :: rest => hostStep a { s with inputs := rest }

/-- The step relation with the parameters as its argument (R17): from the state `d`, under the platform `p`. -/
def stepUnder (p : Platform) (d : MachineState) : Host.Outcome MachineState Fault Refusal :=
  match step ⟨d, p⟩ with
  | .next t => .next t.toMachineState
  | .fault r => .fault r
  | .refused r => .refused r

/-- The state whose next step runs the command of a table word: the word is latched, as an accepted CMD write leaves it
(R99), and the host does nothing before it runs. Log 4. -/
def State.withFetchWord (s : State) (nbits w : Nat) : State :=
  s.latchWord (tableWord nbits w)

end Sys2Proof.Machine
end

