-- ==== Sys2Proof/Safety.lean ====
section
/-! DEFINITION. What the claims speak of: the invariant of every run, the frame of a command, the register window as
numbers, the numbers that frame bytes and fields stand for, and what the host gives and uses. -/

namespace Sys2Proof.Safety

open Sys2Proof.Machine

/-! ### The invariant -/

/-- Every listed byte of host memory lies in MEM_WINDOW (R62). -/
def memoryInWindow (s : State) : Bool :=
  s.mem.all fun c => inWindow s.plat.memWindow c.1

/-- The live regions of the allocator meet laws 1 to 3 of R191. -/
def regionsLawful (s : State) : Prop :=
  (∀ r ∈ s.liveRegions, r.base ≠ 0 ∧ admitted s.plat.memWindow r.base r.size = true) ∧
  s.liveRegions.Pairwise fun r t => overlaps r t = false

/-- What every step keeps. -/
structure Inv (s : State) : Prop where
  /-- Memory is in canonical form. -/
  memoryCanonical : Memory.wf s.mem = true
  /-- Only admitted bytes are listed (R62). -/
  memoryAdmitted : memoryInWindow s = true
  /-- While BUSY = 1, CMD reads the word that runs (R36, R43). -/
  cmdIsLatched : ∀ w, s.latch = some w → s.cmd = w
  /-- COUNT is the signal count of some message, so at most MAX_SIGNALS (R29, R9). -/
  countBounded : s.count.toNat ≤ maxSignals s.plat.rom.msgs
  /-- MSGIDX is a ROM index once a command has written it (R29). -/
  msgIdxValid : s.msgIdx = 0 ∨ s.msgIdx.toNat < s.plat.rom.msgs.length
  /-- The allocator's regions keep the laws of R191. -/
  regions : regionsLawful s
  /-- The running command names no memory the host has not given (R233). -/
  regionGiven : s.namesUngiven = false

/-! ### Frames -/

/-- The registers no command writes: CMD, OVR, SCALE, OFFSET, DEST and SRC (R21, R42). -/
def sameOperands (s t : State) : Prop :=
  t.cmd = s.cmd ∧ t.ovr = s.ovr ∧ t.scale = s.scale ∧ t.offset = s.offset ∧ t.dest = s.dest ∧ t.src = s.src

/-- What is neither the block's nor its memory's: the platform, the host's actions, its data and what it keeps, and the
count of resets. -/
def sameEnvironment (s t : State) : Prop :=
  t.plat = s.plat ∧ t.inputs = s.inputs ∧ t.hostData = s.hostData ∧ t.withheld = s.withheld ∧
    t.resetDraws = s.resetDraws

/-- The state after a command that reported `c` and changed nothing but STATUS (R12, R215). -/
def statusOnly (s : State) (c : Code) : State :=
  { s with code := c, latch := none }

/-- Every byte of host memory outside the `n` bytes at `base` reads in `m` as it did in `s`. -/
def sameOutside (s : State) (m : Memory) (base n : Nat) : Prop :=
  ∀ a, a < base ∨ base + n ≤ a → Memory.read m a = Memory.read s.mem a

/-! ### The register window as numbers -/

/-- The number of a code in STATUS (R200). -/
def codeNumber : Code → Nat
  | .ok => 0
  | .unknownMessage => 1
  | .lengthMismatch => 2
  | .nullArgument => 3
  | .illegalCommand => 4
  | .resourceFault => 5

/-- STATUS as a number: CODE from bit 0, BUSY in bit 8, OVR in bit 9 (R35, R43). -/
def statusNumber (s : State) : Nat :=
  codeNumber s.code + (if s.latch = none then 0 else 2 ^ 8) + (if s.ovr = true then 2 ^ 9 else 0)

/-- Four frame bytes from byte `j` on as a number, byte `j` lowest (R24). -/
def viewNumber (d : FrameData) (j : Nat) : Nat :=
  (d.getD j 0).toNat + 2 ^ 8 * (d.getD (j + 1) 0).toNat + 2 ^ 16 * (d.getD (j + 2) 0).toNat +
    2 ^ 24 * (d.getD (j + 3) 0).toNat

/-- What the register window reads, word by word from offset 0x00 to 0x4C in the order of the table of R38, as numbers. -/
def windowValues (s : State) : List Nat :=
  [s.cmd.toNat, statusNumber s, s.count.toNat, s.msgIdx.toNat, s.frameId.toNat, s.frameDlc.toNat,
    viewNumber s.frameData 0, viewNumber s.frameData 4, s.raw.toNat % 2 ^ 32, s.raw.toNat / 2 ^ 32,
    s.scale.toNat % 2 ^ 32, s.scale.toNat / 2 ^ 32, s.offset.toNat % 2 ^ 32, s.offset.toNat / 2 ^ 32,
    s.phys.toNat % 2 ^ 32, s.phys.toNat / 2 ^ 32, s.dest.toNat, s.src.toNat, s.handle.toNat,
    s.plat.rom.msgs.length + 2 ^ 16 * maxSignals s.plat.rom.msgs]

/-- The frame with bytes `j` to `j + 3` those of a word, its lowest byte first, and the other bytes kept (R24). -/
def frameWritten (old new : FrameData) (j : Nat) (v : Word) : Prop :=
  ∀ i, i < 8 → (new.getD i 0).toNat =
    if j ≤ i ∧ i < j + 4 then v.toNat / 2 ^ (8 * (i - j)) % 2 ^ 8 else (old.getD i 0).toNat

/-- Bits 31:0 are those of a word, and bits 63:32 are kept. -/
def lowWritten (old new : Raw) (v : Word) : Prop :=
  new.toNat = v.toNat + 2 ^ 32 * (old.toNat / 2 ^ 32)

/-- Bits 63:32 are those of a word, and bits 31:0 are kept. -/
def highWritten (old new : Raw) (v : Word) : Prop :=
  new.toNat = old.toNat % 2 ^ 32 + 2 ^ 32 * v.toNat

/-! ### The scaler -/

/-- `r` is what an operation of the scaler gives on finite operands, and `exact` is its exact result in units of 2^-2148
(R170): a conversion, a product, a sum, or a product and a sum. -/
def finiteOperation (exact : Int) (r : F64) : Prop :=
  (∃ x : Raw, (r = toF64u x ∧ exact = (x.toNat : Int) * 2 ^ 2148) ∨ (r = toF64s x ∧ exact = x.toInt * 2 ^ 2148)) ∨
  (∃ a b : F64, F64.isFinite a = true ∧ F64.isFinite b = true ∧
    ((r = mulF64 a b ∧ exact = F64.units a * F64.units b) ∨
     (r = addF64 a b ∧ exact = (F64.units a + F64.units b) * 2 ^ 1074))) ∨
  (∃ a b c : F64, F64.isFinite a = true ∧ F64.isFinite b = true ∧ F64.isFinite c = true ∧
    r = fmaF64 a b c ∧ exact = F64.units a * F64.units b + F64.units c * 2 ^ 1074)

/-! ### The frame as numbers, and its fields -/

/-- The little-endian 64-bit reading W of the frame (R145). -/
def littleReading (d : FrameData) : Nat :=
  ofBytesLE d.toList

/-- The big-endian 64-bit reading V of the frame (R145). -/
def bigReading (d : FrameData) : Nat :=
  ofBytesLE d.toList.reverse

/-- Where the field's least significant bit stands in the reading of its own byte order: START in W, and
64 - msb0(START) - LEN in V (R145, R147). -/
def fieldShift (f : FieldDesc) : Nat :=
  match f.order with
  | .le => f.start
  | .be => 64 - msb0 f.start - f.len

/-- The reading of the frame in the field's own byte order: W or V (R145). -/
def fieldReading (f : FieldDesc) (d : FrameData) : Nat :=
  match f.order with
  | .le => littleReading d
  | .be => bigReading d

/-- The position belongs to the field (s, len, ord) (R144). -/
def inField (s len : Nat) (ord : ByteOrder) (p : Nat × Nat) : Prop :=
  ∃ k, k < len ∧ bitpos s len ord k = p

/-- The position belongs to the signal's field. -/
def inSignal (g : SignalLayout) (p : Nat × Nat) : Prop :=
  inField g.startBit g.bitLength g.byteOrder p

/-- No position belongs to both signals (R148). -/
def disjointSignals (g h : SignalLayout) : Prop :=
  ∀ p, inSignal g p → ¬ inSignal h p

/-- The signal's field in a frame, as DECODE extracts it (R119). -/
def extractSignal (d : FrameData) (g : SignalLayout) : Raw :=
  extract d g.startBit g.bitLength g.byteOrder

/-! ### Messages and records -/

/-- The frame mailbox names message `k`: a message of the ROM with its ID and its length (R115, R116). -/
def namesMessage (s : State) (k : Nat) : Prop :=
  k < s.plat.rom.msgs.length ∧ (messageAt s.plat.rom.msgs k).id = s.frameId.toNat ∧
    (messageAt s.plat.rom.msgs k).byteLength = s.frameDlc.toNat

/-- Some message of the ROM has the ID of the frame mailbox (R115). -/
def idKnown (s : State) : Prop :=
  ∃ k, k < s.plat.rom.msgs.length ∧ (messageAt s.plat.rom.msgs k).id = s.frameId.toNat

/-- Memory `m` holds at `base` the records of message `k` decoded in state `s`: SIGREF in bytes 0 to 3, zero in bytes 4 to
7, and the signal's value in bytes 8 to 15 of record `i`, for every signal `i` (R188, R189). Where the value is a NaN, its
sign and payload are some draw (R172). -/
def recordsStored (s : State) (m : Memory) (k base : Nat) : Prop :=
  ∀ i g, (s.signalsOf k)[i]? = some g →
    m.readLE (base + 16 * i) 4 = sigref s.plat.rom.msgs k i ∧
    m.readLE (base + 16 * i + 4) 4 = 0 ∧
    ∃ draw : F64, m.readLE (base + 16 * i + 8) 8 = (decodeSignal s.plat.scalerFused draw s.frameData g).toNat

/-! ### Regions of host memory -/

/-- The region of `n` bytes at `base` shares a byte with memory the host keeps to itself (R233). -/
def touchesWithheld (s : State) (base n : Nat) : Prop :=
  ∃ kept ∈ s.withheld, overlaps kept ⟨base, n⟩ = true

/-- The command of word `w` would use memory the host has not given (R233): as the result region of a DECODE in Borrowed
mode, or as the source region of an ENCODE whose checks pass. -/
def usesWithheld (s : State) (w : Word) : Prop :=
  ∃ k, (decode w = .ok .decode ∧ namesMessage s k ∧ s.dest ≠ 0 ∧
      admitted s.plat.memWindow s.dest.toNat (16 * s.countOf k) = true ∧
      touchesWithheld s s.dest.toNat (16 * s.countOf k)) ∨
    (decode w = .ok (.encode k) ∧ k < s.plat.rom.msgs.length ∧ (s.countOf k = 0 ∨ s.src ≠ 0) ∧
      admitted s.plat.memWindow s.src.toNat (8 * s.countOf k) = true ∧
      touchesWithheld s s.src.toNat (8 * s.countOf k))

/-- The result region of a DECODE of message `k` starts at `base`: at DEST in Borrowed mode, admitted or not, and at the
address the allocator answers in Owned mode (R75, R187, R190). -/
def resultStartsAt (s : State) (k base : Nat) : Prop :=
  (s.dest ≠ 0 ∧ base = s.dest.toNat) ∨ (s.dest = 0 ∧ s.resultBase (s.countOf k) = some base)

/-- The region lies clear of the result region of a running DECODE (R75). -/
def sparesResult (s : State) (r : Span) : Prop :=
  ∀ w k base, s.latch = some w → decode w = .ok .decode → namesMessage s k → resultStartsAt s k base →
    overlaps r ⟨base, 16 * s.countOf k⟩ = false

/-- The region lies clear of [SRC, SRC + 8N) of a running ENCODE, whether or not its checks pass (R75). -/
def sparesSource (s : State) (r : Span) : Prop :=
  ∀ w k, s.latch = some w → decode w = .ok (.encode k) → k < s.plat.rom.msgs.length →
    overlaps r ⟨s.src.toNat, 8 * s.countOf k⟩ = false

end Sys2Proof.Safety
end

