-- ==== Sys2Proof/Certificates/Slice0/Obligations.lean ====
section
/-! DEFINITION. The statements for the provers. Each docstring says which sentence of the spec it formalises. -/

open Sys2Proof Sys2Proof.Machine Sys2Proof.Safety

/-! ### Encoding -/

/-- Decoding the word of a well-formed command gives the command back, every field at every value its word can hold
(R86 to R88, R97). -/
def Obligations.DecodeAfterEncode : Prop :=
  ∀ i : Instr, i.wellFormed = true → decode (encode i) = .ok i

/-- A legal word has one meaning: it is the word of the well-formed command it decodes to (R86 to R88, R97). -/
def Obligations.EncodeAfterDecode : Prop :=
  ∀ (w : Word) (i : Instr), decode w = .ok i → i.wellFormed = true ∧ encode i = w

/-- R96: the illegal words are those listed, and an illegal word in LATCH executes as `raise IllegalCommand` with no other
effect. -/
def Obligations.IllegalWordsRaise : Prop :=
  (∀ w : Word, (∃ r, decode w = .error r) ↔
    8 ≤ w.toNat % 16 ∨
    (1 ≤ w.toNat % 16 ∧ w.toNat % 16 ≤ 4 ∧ w.toNat / 2 ^ 19 ≠ 0) ∨
    (5 ≤ w.toNat % 16 ∧ w.toNat % 16 ≤ 7 ∧ w.toNat / 2 ^ 20 ≠ 0) ∨
    ((w.toNat % 16 = 5 ∨ w.toNat % 16 = 6) ∧ w.toNat / 2 ^ 4 % 2 ^ 16 ≠ 0) ∨
    (w.toNat % 16 = 0 ∧ w.toNat ≠ 0)) ∧
  ∀ (s : State) (w : Word) (r : Illegal), s.inputs = [] → s.latch = some w → decode w = .error r →
    step s = .next (statusOnly s .illegalCommand)

/-- The worked encodings of R104 and the words of `nop`, `route` and `decode` of R98, decoded by the formats of R86 to R88 and
the opcode map of R94. A sanity statement. -/
def Obligations.WorkedWordsDecode : Prop :=
  decode 0x00000000#32 = .ok .nop ∧
  decode 0x00028071#32 = .ok (.extract ⟨7, 32, .be, false⟩) ∧
  decode 0x00043002#32 = .ok (.sext ⟨0, 12, .le, true⟩) ∧
  decode 0x00022643#32 = .ok (.pack ⟨36, 9, .be, false⟩) ∧
  decode 0x00000004#32 = .ok (.scale ⟨0, 0, .le, false⟩) ∧
  decode 0x00000005#32 = .ok .route ∧
  decode 0x00000006#32 = .ok .decode ∧
  decode 0x00000017#32 = .ok (.encode 1)

/-! ### The machine -/

/-- A step runs the decoded instruction: when LATCH holds the word of a command, the step is that command, whether the host
does nothing or gives the block its turn by waiting; with LATCH empty and nothing from the host, nothing changes (R100,
R221). That the host's coming actions decide who moves is the model's choice, log 3. -/
def Obligations.StepRunsLatchedCommand : Prop :=
  ∀ (s : State) (w : Word) (i : Instr), s.latch = some w → decode w = .ok i →
    (s.inputs = [] → step s = exec i s) ∧
    (∀ rest, s.inputs = .wait :: rest → step s = exec i { s with inputs := rest }) ∧
    ∀ u : State, u.latch = none → u.inputs = [] → step u = .next u

/-- R45 and R225: after reset, and after the reset event in any state, every register the host can read reads 0 but INFO,
which keeps its constant; LATCH is empty and the platform with its ROM is unchanged. -/
def Obligations.ResetLeavesZero : Prop :=
  (∀ r : Reg, r ≠ .info → State.reset.regRead r = 0) ∧ State.reset.latch = none ∧
  ∀ s : State, ∃ t, hostStep .reset s = .next t ∧ (∀ r : Reg, r ≠ .info → t.regRead r = 0) ∧
    t.regRead .info = s.regRead .info ∧ t.latch = none ∧ t.plat = s.plat

/-- The invariant of every run holds after reset. That memory lists nothing then (log 2), that the allocator has no record of
a call (log 6) and that the host keeps no memory to itself (R233, log 12) are the model's own choices of reset values. -/
def Obligations.InvariantHoldsAtReset : Prop :=
  Inv State.reset

/-- Every step keeps the invariant: canonical memory inside MEM_WINDOW, CMD equal to the running word, COUNT at most
MAX_SIGNALS, MSGIDX a ROM index, the laws of R191 on live regions, and no running command that names memory the host has not given (R233). How the live
regions are recorded (log 6) and how the host tells what it gives (log 12) are the model's own choices. -/
def Obligations.StepKeepsInvariant : Prop :=
  ∀ s t : State, Inv s → step s = .next t → Inv t

/-- R100: every command finishes, with BUSY = 0; it keeps the registers no command writes, CMD, OVR, SCALE, OFFSET, DEST and
SRC (R21, R42), the platform (R34), and four fields of the model's own: the host's coming actions (log 3), what its last
load returned (log 16), the memory it keeps to itself (log 12) and the count of resets (log 8). -/
def Obligations.EveryCommandFinishes : Prop :=
  ∀ (i : Instr) (s : State), ∃ t, exec i s = .next t ∧ t.busy = false ∧ sameOperands s t ∧ sameEnvironment s t

/-- R34: the ROM is read-only; no command, no host access and no reset writes it (nor any other parameter). -/
def Obligations.RomIsNeverWritten : Prop :=
  ∀ s t : State, step s = .next t → t.plat = s.plat

/-- R17: what the block needs besides its state (the ROM, the parameters of R9, the allocator's answers, the admission
set) is a parameter of the step relation: the step of a state `d` under a platform `p` is `stepUnder p d`, a state of the
same kind, with the platform put back beside it. The NaN draw and what the platform leaves open of the allocator are
constants outside both (logs 6, 7). -/
def Obligations.ParametersAreArguments : Prop :=
  ∀ (p : Platform) (d : MachineState),
    step ⟨d, p⟩ = match stepUnder p d with
      | .next e => .next ⟨e, p⟩
      | .fault r => .fault r
      | .refused r => .refused r

/-- R215: a command that ends in an error changes only STATUS.CODE and STATUS.BUSY, and no memory byte. Only a DECODE in
Owned mode that ends in ResourceFault has asked the allocator. -/
def Obligations.ErrorsChangeOnlyStatus : Prop :=
  ∀ (i : Instr) (s t : State), exec i s = .next t → t.code ≠ .ok →
    statusOnly s t.code = { t with allocs := s.allocs } ∧
    (¬ (i = .decode ∧ s.dest = 0 ∧ t.code = .resourceFault) → t = statusOnly s t.code)

/-- R61: NOP, EXTRACT, SEXT, PACK, SCALE and ROUTE act on registers only: memory is not written, and what they do does
not depend on it. -/
def Obligations.OnlyMessageCommandsTouchMemory : Prop :=
  ∀ (i : Instr) (s t : State) (m : Memory), i ≠ .decode → (∀ kind, i ≠ .encode kind) → exec i s = .next t →
    t.mem = s.mem ∧ exec i { s with mem := m } = .next { t with mem := m }

/-- R110: NOP does nothing but report success. -/
def Obligations.NopOnlyReportsOk : Prop :=
  decode 0x00000000#32 = .ok .nop ∧ ∀ s : State, exec .nop s = .next (statusOnly s .ok)

/-! ### Fields of the frame -/

/-- R141 and R142: value bits of an LE field go up from the bit START names, passing from bit 7 to bit 0 of the next byte;
those of a BE field go down from the bit START names, its most significant, passing from bit 0 to bit 7 of the next byte.
Value bit k is at linear index s + k, or at MSB-0 index msb0(s) + L - 1 - k. -/
def Obligations.FieldsWalkTheFrame : Prop :=
  ∀ s len k : Nat, k < len →
    (bitpos s len .le 0 = (s / 8, s % 8) ∧
      8 * (bitpos s len .le k).1 + (bitpos s len .le k).2 = s + k ∧
      bitpos s len .le (k + 1) =
        if (bitpos s len .le k).2 = 7 then ((bitpos s len .le k).1 + 1, 0)
        else ((bitpos s len .le k).1, (bitpos s len .le k).2 + 1)) ∧
    bitpos s len .be (len - 1) = (s / 8, s % 8) ∧
    8 * (bitpos s len .be k).1 + 7 - (bitpos s len .be k).2 = msb0 s + len - 1 - k ∧
    (0 < k → bitpos s len .be (k - 1) =
      if (bitpos s len .be k).2 = 0 then ((bitpos s len .be k).1 + 1, 7)
      else ((bitpos s len .be k).1, (bitpos s len .be k).2 - 1))

/-- R143: a field in range fits in n bytes exactly when every bit its convention visits lies in bytes 0 to n-1, and R144:
then its positions are distinct. -/
def Obligations.FitsMeansInsideTheBytes : Prop :=
  ∀ (s len : Nat) (ord : ByteOrder) (n : Nat), s ≤ 63 → 1 ≤ len → len ≤ 64 →
    (fits s len ord n = true ↔ ∀ k, k < len → (bitpos s len ord k).1 < n) ∧
    ∀ k k', k < len → k' < len → bitpos s len ord k = bitpos s len ord k' → k = k'

/-- R149: a field inside one byte is the same field in both conventions when the BE start is the LE start plus L - 1. -/
def Obligations.OneByteFieldInBothOrders : Prop :=
  ∀ (d : FrameData) (s len : Nat), 1 ≤ len → s / 8 = (s + len - 1) / 8 →
    extract d s len .le = extract d (s + len - 1) len .be

/-! ### EXTRACT, SEXT, PACK -/

/-- R150: EXTRACT of a legal field gives RAW the field's bits, zero-extended, by the closed forms of R145 in the
little-endian or big-endian reading of the frame, and changes nothing else but STATUS; LEN out of range or a field that
does not fit raises IllegalCommand. SIGNED does not matter. -/
def Obligations.ExtractReadsTheField : Prop :=
  ∀ (f : FieldDesc) (s : State),
    (f.wellFormed = true → decode (encodeFormatF 1 f) = .ok (.extract f)) ∧
    (1 ≤ f.len → f.len ≤ 64 → fits f.start f.len f.order 8 = true → ∃ v : Raw,
      exec (.extract f) s = .next { s with raw := v, code := .ok, latch := none } ∧
      v.toNat = fieldReading f s.frameData / 2 ^ fieldShift f % 2 ^ f.len) ∧
    (f.len = 0 ∨ 64 < f.len ∨ fits f.start f.len f.order 8 = false →
      exec (.extract f) s = .next (statusOnly s .illegalCommand))

/-- R152, R146: SEXT of a LEN in range reads the low LEN bits of RAW as two's complement (SIGNED = 1) or as unsigned
(SIGNED = 0) and gives RAW that value in 64 bits; LEN out of range raises IllegalCommand. START and ORDER do not matter. -/
def Obligations.SextExtendsRaw : Prop :=
  ∀ (f : FieldDesc) (s : State),
    (f.wellFormed = true → decode (encodeFormatF 2 f) = .ok (.sext f)) ∧
    (1 ≤ f.len → f.len ≤ 64 → ∃ v : Raw,
      exec (.sext f) s = .next { s with raw := v, code := .ok, latch := none } ∧
      (f.signed = false → v.toNat = s.raw.toNat % 2 ^ f.len) ∧
      (f.signed = true → v.toInt =
        if s.raw.toNat % 2 ^ f.len < 2 ^ (f.len - 1) then ((s.raw.toNat % 2 ^ f.len : Nat) : Int)
        else ((s.raw.toNat % 2 ^ f.len : Nat) : Int) - 2 ^ f.len)) ∧
    (f.len = 0 ∨ 64 < f.len → exec (.sext f) s = .next (statusOnly s .illegalCommand))

/-- R154, R147: PACK of a legal field replaces the field's bits, in the reading of the frame of the field's own byte order,
by the low LEN bits of RAW and keeps the bits above and below them; nothing else changes but STATUS. LEN out of range or a
field that does not fit raises IllegalCommand. SIGNED does not matter. -/
def Obligations.PackWritesTheField : Prop :=
  ∀ (f : FieldDesc) (s : State),
    (f.wellFormed = true → decode (encodeFormatF 3 f) = .ok (.pack f)) ∧
    (1 ≤ f.len → f.len ≤ 64 → fits f.start f.len f.order 8 = true → ∃ d : FrameData,
      exec (.pack f) s = .next { s with frameData := d, code := .ok, latch := none } ∧
      fieldReading f d / 2 ^ fieldShift f % 2 ^ f.len = s.raw.toNat % 2 ^ f.len ∧
      fieldReading f d % 2 ^ fieldShift f = fieldReading f s.frameData % 2 ^ fieldShift f ∧
      fieldReading f d / 2 ^ (fieldShift f + f.len) = fieldReading f s.frameData / 2 ^ (fieldShift f + f.len)) ∧
    (f.len = 0 ∨ 64 < f.len ∨ fits f.start f.len f.order 8 = false →
      exec (.pack f) s = .next (statusOnly s .illegalCommand))

/-- R148 laws 1 and 2, on the commands: PACK then EXTRACT of the same field gives the low LEN bits of RAW; EXTRACT then
PACK of the same field leaves FRAME_DATA as it was. -/
def Obligations.ExtractAndPackAreInverse : Prop :=
  ∀ (f : FieldDesc) (s : State), 1 ≤ f.len → f.len ≤ 64 → fits f.start f.len f.order 8 = true →
    (∃ t u : State, exec (.pack f) s = .next t ∧ exec (.extract f) t = .next u ∧
      u.raw.toNat = s.raw.toNat % 2 ^ f.len) ∧
    ∃ t u : State, exec (.extract f) s = .next t ∧ exec (.pack f) t = .next u ∧ u.frameData = s.frameData

/-- R148 laws 3 and 4: packing a field changes no bit outside it, does not change what is extracted from a field disjoint
from it, and commutes with packing such a field. -/
def Obligations.DisjointFieldsAreIndependent : Prop :=
  ∀ (g h : SignalLayout) (d : FrameData) (v w : Raw),
    fits g.startBit g.bitLength g.byteOrder 8 = true → fits h.startBit h.bitLength h.byteOrder 8 = true →
    (∀ p, ¬ inSignal g p → getBit (packField d g.startBit g.bitLength g.byteOrder v) p = getBit d p) ∧
    (disjointSignals g h →
      extractSignal (packField d g.startBit g.bitLength g.byteOrder v) h = extractSignal d h ∧
      packField (packField d g.startBit g.bitLength g.byteOrder v) h.startBit h.bitLength h.byteOrder w =
        packField (packField d h.startBit h.bitLength h.byteOrder w) g.startBit g.bitLength g.byteOrder v)

/-! ### The scaler -/

/-- R174, R171, R172: SCALE reads RAW as signed or unsigned by SIGNED and gives PHYS the fused or unfused result of
RAW * SCALE + OFFSET; where that result is a NaN, PHYS is some NaN. Nothing else of the block or of memory changes but
STATUS; how the model counts its NaN draws (log 7) is left open here. START, LEN and ORDER do not matter. A SCALE word with a
reserved bit set, OP = 4 and bits 31:19 not 0, raises IllegalCommand when the block takes its turn (R97). -/
def Obligations.ScaleComputesPhys : Prop :=
  ∀ (f : FieldDesc) (s : State),
    (f.wellFormed = true → decode (encodeFormatF 4 f) = .ok (.scale f)) ∧
    (∀ x r : F64, x = (if f.signed then toF64s s.raw else toF64u s.raw) →
      r = (if s.plat.scalerFused then fmaF64 x s.scale s.offset else addF64 (mulF64 x s.scale) s.offset) →
      ∃ (v : F64) (draws : Nat),
        exec (.scale f) s = .next { s with phys := v, nanDraws := draws, code := .ok, latch := none } ∧
        (F64.isNaN r = false → v = r) ∧ (F64.isNaN r = true → F64.isNaN v = true)) ∧
    ∀ w : Word, w.toNat % 16 = 4 → w.toNat / 2 ^ 19 ≠ 0 → s.inputs = [] → s.latch = some w →
      step s = .next (statusOnly s .illegalCommand)

/-- R172: an IEEE-754 result is a NaN exactly when an operand is a NaN, infinity is multiplied by zero, or infinities of
opposite sign are added; converting an integer never gives one. -/
def Obligations.NanResultsAreTheInvalidOperations : Prop :=
  (∀ a b : F64, F64.isNaN (mulF64 a b) = true ↔
    F64.isNaN a = true ∨ F64.isNaN b = true ∨ (F64.isInf a = true ∧ F64.isZero b = true) ∨
      (F64.isZero a = true ∧ F64.isInf b = true)) ∧
  (∀ a b : F64, F64.isNaN (addF64 a b) = true ↔
    F64.isNaN a = true ∨ F64.isNaN b = true ∨
      (F64.isInf a = true ∧ F64.isInf b = true ∧ F64.sign a ≠ F64.sign b)) ∧
  (∀ a b c : F64, F64.isNaN (fmaF64 a b c) = true ↔
    F64.isNaN a = true ∨ F64.isNaN b = true ∨ F64.isNaN c = true ∨
      (F64.isInf a = true ∧ F64.isZero b = true) ∨ (F64.isZero a = true ∧ F64.isInf b = true) ∨
      ((F64.isInf a = true ∨ F64.isInf b = true) ∧ F64.isInf c = true ∧
        F64.sign c ≠ (F64.sign a != F64.sign b))) ∧
  ∀ x : Raw, F64.isNaN (toF64s x) = false ∧ F64.isNaN (toF64u x) = false

/-- R170: integers of magnitude at most 2^53 convert to binary64 exactly, read as unsigned or as signed. Values are counted
in units of 2^-1074. -/
def Obligations.SmallIntegersConvertExactly : Prop :=
  ∀ x : Raw,
    (x.toNat ≤ 2 ^ 53 → F64.isFinite (toF64u x) = true ∧ F64.units (toF64u x) = (x.toNat : Int) * 2 ^ 1074) ∧
    (x.toInt.natAbs ≤ 2 ^ 53 → F64.isFinite (toF64s x) = true ∧ F64.units (toF64s x) = x.toInt * 2 ^ 1074)

/-- R170: every operation of the scaler on finite operands that gives a finite result gives the binary64 nearest to the
exact result, and of two equally near the one with an even fraction. Values are counted in units of 2^-1074 and exact
results in units of 2^-2148. -/
def Obligations.ScalerRoundsToNearestEven : Prop :=
  ∀ (exact : Int) (r : F64), F64.isFinite r = true → finiteOperation exact r →
    ∀ y : F64, F64.isFinite y = true →
      |F64.units r * 2 ^ 1074 - exact| ≤ |F64.units y * 2 ^ 1074 - exact| ∧
      (|F64.units r * 2 ^ 1074 - exact| = |F64.units y * 2 ^ 1074 - exact| → F64.units y ≠ F64.units r →
        F64.fraction r % 2 = 0)

/-- R170, R172: an operation of the scaler on finite operands never gives a NaN; it overflows to infinity exactly when the
exact result is at least half a last place above the largest finite number in magnitude, that is (2^54 - 1) * 2^970, and
otherwise it is finite; a result whose exact value is not zero has the sign of that value, be it finite, infinite or a
zero it was rounded to. -/
def Obligations.ScalerOverflowsToInfinity : Prop :=
  ∀ (exact : Int) (r : F64), finiteOperation exact r →
    F64.isNaN r = false ∧
    (F64.isInf r = true ↔ (2 ^ 54 - 1) * 2 ^ (970 + 2148) ≤ |exact|) ∧
    (F64.isFinite r = true ↔ |exact| < (2 ^ 54 - 1) * 2 ^ (970 + 2148)) ∧
    (exact ≠ 0 → F64.sign r = decide (exact < 0))

/-- R172: the sign of zero. The integer 0 converts to +0. An exactly zero product has the sign of the product, and an
exactly zero sum is -0 only when both its terms are negative (log 15). -/
def Obligations.ScalerSignOfZero : Prop :=
  (∀ (x : Raw) (r : F64), x = 0 → r = toF64u x ∨ r = toF64s x → F64.isZero r = true ∧ F64.sign r = false) ∧
  (∀ a b : F64, F64.isFinite a = true → F64.isFinite b = true →
    (F64.units a * F64.units b = 0 → F64.isZero (mulF64 a b) = true ∧
      F64.sign (mulF64 a b) = (F64.sign a != F64.sign b)) ∧
    (F64.units a + F64.units b = 0 → F64.isZero (addF64 a b) = true ∧
      F64.sign (addF64 a b) = (F64.sign a && F64.sign b))) ∧
  ∀ a b c : F64, F64.isFinite a = true → F64.isFinite b = true → F64.isFinite c = true →
    F64.units a * F64.units b + F64.units c * 2 ^ 1074 = 0 →
    F64.isZero (fmaF64 a b c) = true ∧
      F64.sign (fmaF64 a b c) = ((F64.sign a != F64.sign b) && F64.sign c)

/-- R172: infinite operands. Where the result is no NaN, a product with an infinite factor is the infinity of the product's
sign, a sum with an infinite term is that infinity, and so is a fused product and sum, whichever term is infinite. -/
def Obligations.ScalerCarriesInfinity : Prop :=
  (∀ a b : F64, F64.isNaN (mulF64 a b) = false → F64.isInf a = true ∨ F64.isInf b = true →
    F64.isInf (mulF64 a b) = true ∧ F64.sign (mulF64 a b) = (F64.sign a != F64.sign b)) ∧
  (∀ a b : F64, F64.isNaN (addF64 a b) = false →
    (F64.isInf a = true → addF64 a b = a) ∧ (F64.isInf b = true → addF64 a b = b)) ∧
  ∀ a b c : F64, F64.isNaN (fmaF64 a b c) = false →
    (F64.isInf a = true ∨ F64.isInf b = true → F64.isInf (fmaF64 a b c) = true ∧
      F64.sign (fmaF64 a b c) = (F64.sign a != F64.sign b)) ∧
    (F64.isInf c = true → fmaF64 a b c = c)

/-! ### ROUTE and the router -/

/-- R118, R115, R116: when the mailbox names a message by ID and length, ROUTE finishes Ok with that message's index in
MSGIDX and changes nothing else but STATUS. The index is unique, since the ROM is well-formed. An unknown ID gives
UnknownMessage and a known ID with no message of that length gives LengthMismatch, with MSGIDX unchanged; a ROUTE word with
KIND != 0 is illegal. -/
def Obligations.RouteSelectsTheMessage : Prop :=
  (∀ kind, kind < 2 ^ 16 →
    decode (encodeFormatM 5 kind) = if kind = 0 then .ok .route else .error .kindNotZero) ∧
  ∀ s : State,
    (∀ k, namesMessage s k →
      exec .route s = .next { s with msgIdx := BitVec.ofNat 32 k, code := .ok, latch := none } ∧
      ∀ k', namesMessage s k' → k' = k) ∧
    (¬ idKnown s → exec .route s = .next (statusOnly s .unknownMessage)) ∧
    (idKnown s → (∀ k, ¬ namesMessage s k) → exec .route s = .next (statusOnly s .lengthMismatch))

/-- R202: ROUTE and DECODE raise UnknownMessage exactly when no message of the ROM has the ID, whatever the length; ENCODE
never raises it. -/
def Obligations.UnknownMessageExactly : Prop :=
  ∀ s : State,
    (¬ idKnown s → exec .route s = .next (statusOnly s .unknownMessage) ∧
      exec .decode s = .next (statusOnly s .unknownMessage)) ∧
    (idKnown s → ∀ t, exec .route s = .next t ∨ exec .decode s = .next t → t.code ≠ .unknownMessage) ∧
    ∀ kind t, exec (.encode kind) s = .next t → t.code ≠ .unknownMessage

/-- R204, R116: ROUTE and DECODE raise LengthMismatch, and change nothing else, exactly when the ID is known but no message
with that ID has FRAME_DLC as its length: not when a message has both, and not when the ID is unknown. -/
def Obligations.LengthMismatchExactly : Prop :=
  ∀ s : State,
    (idKnown s → (∀ k, ¬ namesMessage s k) → exec .route s = .next (statusOnly s .lengthMismatch) ∧
      exec .decode s = .next (statusOnly s .lengthMismatch)) ∧
    (∀ k, namesMessage s k → ∀ t, exec .route s = .next t ∨ exec .decode s = .next t → t.code ≠ .lengthMismatch) ∧
    (¬ idKnown s → ∀ t, exec .route s = .next t ∨ exec .decode s = .next t → t.code ≠ .lengthMismatch)

/-- R32: SIGREF numbers every signal of the ROM once, in message order and then in signal order. -/
def Obligations.SigrefNumbersEverySignalOnce : Prop :=
  ∀ msgs : List MessageLayout,
    (∀ k i, k < msgs.length → i < (messageAt msgs k).sigs.length → sigref msgs k i < (signalCounts msgs).sum) ∧
    (∀ n, n < (signalCounts msgs).sum → ∃ k i, k < msgs.length ∧ i < (messageAt msgs k).sigs.length ∧
      sigref msgs k i = n) ∧
    ∀ k i k' i', k < msgs.length → i < (messageAt msgs k).sigs.length → k' < msgs.length →
      i' < (messageAt msgs k').sigs.length → (k < k' ∨ (k = k' ∧ i < i')) → sigref msgs k i < sigref msgs k' i'

/-! ### DECODE -/

/-- R187, R120, R188, R189: a DECODE with DEST != 0 of a mailbox that names message k, into an admitted region, writes the
message's N records from DEST on and nothing else of memory, never asks the allocator, and sets COUNT and MSGIDX. How the
model counts its NaN draws (log 7) is left open here. -/
def Obligations.BorrowedDecodeWritesRecords : Prop :=
  ∀ (s : State) (k : Nat), Memory.wf s.mem = true → namesMessage s k → s.dest ≠ 0 →
    admitted s.plat.memWindow s.dest.toNat (16 * s.countOf k) = true →
    ∃ (m : Memory) (draws : Nat),
      exec .decode s = .next { s with
        mem := m, count := BitVec.ofNat 32 (s.countOf k), msgIdx := BitVec.ofNat 32 k,
        nanDraws := draws, code := .ok, latch := none } ∧
      recordsStored s m k s.dest.toNat ∧ sameOutside s m s.dest.toNat (16 * s.countOf k)

/-- R186, R190, R191, R192: a DECODE with DEST = 0 of a mailbox that names message k with N > 0 signals asks the allocator
once for 16N bytes; its answer is not 0, admitted and disjoint from every live region, and the N records are written
there, HANDLE, COUNT and MSGIDX are set, and nothing else of memory changes. The record of the call is the model's own
field (log 6); how it counts its NaN draws (log 7) is left open here. -/
def Obligations.OwnedDecodeWritesRecords : Prop :=
  ∀ (s : State) (k a : Nat), Memory.wf s.mem = true → namesMessage s k → s.dest = 0 → s.countOf k ≠ 0 →
    s.allocAnswer (16 * s.countOf k) = some a →
    (a ≠ 0 ∧ admitted s.plat.memWindow a (16 * s.countOf k) = true ∧
      ∀ r ∈ s.liveRegions, overlaps ⟨a, 16 * s.countOf k⟩ r = false) ∧
    ∃ (m : Memory) (draws : Nat),
      exec .decode s = .next { s with
        mem := m, count := BitVec.ofNat 32 (s.countOf k), msgIdx := BitVec.ofNat 32 k, handle := BitVec.ofNat 32 a,
        nanDraws := draws,
        allocs := s.allocs ++ [⟨16 * s.countOf k, some a, false⟩], code := .ok, latch := none } ∧
      recordsStored s m k a ∧ sameOutside s m a (16 * s.countOf k)

/-- HANDLE is written only by a successful DECODE in Owned mode, and then holds the base that resultBase returned (R192). -/
def Obligations.HandleIsWrittenOnlyByOwnedDecode : Prop :=
  (∀ (i : Instr) (s t : State), exec i s = .next t → ¬ (i = .decode ∧ s.dest = 0 ∧ t.code = .ok) →
    t.handle = s.handle) ∧
  ∀ s t : State, s.dest = 0 → exec .decode s = .next t → t.code = .ok →
    ∃ k base, namesMessage s k ∧ s.resultBase (s.countOf k) = some base ∧ t.handle.toNat = base

/-- R191 and R120 for N = 0: in Owned mode nothing is allocated and HANDLE becomes 0, in Borrowed mode HANDLE keeps its value;
no memory is written in either. -/
def Obligations.DecodeOfNoSignals : Prop :=
  ∀ (s : State) (k : Nat), namesMessage s k → s.countOf k = 0 →
    exec .decode s = .next { s with
      count := 0, msgIdx := BitVec.ofNat 32 k, handle := if s.dest = 0 then 0 else s.handle,
      code := .ok, latch := none }

/-- R206: DECODE of a message raises ResourceFault when the Borrowed region is not admitted, or when the allocator answers
FAIL in Owned mode with N > 0; ENCODE of a message raises it when its source region is not admitted and the earlier checks
pass. Nothing of the block or of memory changes but STATUS; what the allocator notes of the call that failed (log 6) is left
open here. -/
def Obligations.ResourceFaultWhenRefused : Prop :=
  ∀ (s : State) (k : Nat),
    (namesMessage s k → s.dest ≠ 0 → admitted s.plat.memWindow s.dest.toNat (16 * s.countOf k) = false →
      exec .decode s = .next (statusOnly s .resourceFault)) ∧
    (namesMessage s k → s.dest = 0 → s.countOf k ≠ 0 → s.allocAnswer (16 * s.countOf k) = none →
      ∃ calls : List AllocCall,
        exec .decode s = .next (statusOnly { s with allocs := calls } .resourceFault)) ∧
    (k < s.plat.rom.msgs.length → (s.countOf k = 0 ∨ s.src ≠ 0) →
      admitted s.plat.memWindow s.src.toNat (8 * s.countOf k) = false →
      exec (.encode k) s = .next (statusOnly s .resourceFault))

/-- R24, R119: DECODE reads only bytes 0 to byteLength-1 of FRAME_DATA: with other bytes beyond them it does the same. -/
def Obligations.DecodeIgnoresBytesBeyondLength : Prop :=
  ∀ (s t : State) (d : FrameData),
    (∀ k, namesMessage s k → ∀ j, j < (messageAt s.plat.rom.msgs k).byteLength →
      d.getD j 0 = s.frameData.getD j 0) →
    exec .decode s = .next t → exec .decode { s with frameData := d } = .next { t with frameData := d }

/-- R195: Owned and Borrowed decodes of the same frame write the same bytes, each at its own base. Both start from the same
NaN draw, which the model counts in a field of its own (log 7). -/
def Obligations.OwnedAndBorrowedWriteTheSame : Prop :=
  ∀ (s t u : State) (k a : Nat) (dest : Word), Memory.wf s.mem = true → namesMessage s k → s.dest = 0 →
    s.countOf k ≠ 0 → s.allocAnswer (16 * s.countOf k) = some a → dest ≠ 0 →
    admitted s.plat.memWindow dest.toNat (16 * s.countOf k) = true →
    exec .decode s = .next t → exec .decode { s with dest := dest } = .next u →
    t.count = u.count ∧ t.msgIdx = u.msgIdx ∧ u.handle = s.handle ∧
    ∀ j, j < 16 * s.countOf k → Memory.read t.mem (a + j) = Memory.read u.mem (dest.toNat + j)

/-! ### ENCODE -/

/-- R124: an ENCODE whose checks pass sets FRAME_ID, FRAME_DLC, COUNT and MSGIDX from the message, reads the
8-byte little-endian value i at SRC + 8i, and changes FRAME_DATA so: a bit of signal i that no later signal holds is the
bit of value i (the last writer wins); a bit in no signal keeps its value, but is 0 in bytes 0 to byteLength-1 under
DECLARED_BYTES (R122, R128). No memory is written and nothing else changes but STATUS. The checks that fail raise, in their
order, IllegalCommand, NullArgument and ResourceFault, and change nothing but STATUS. -/
def Obligations.EncodePacksTheMessage : Prop :=
  ∀ (s : State) (k : Nat),
    (s.plat.rom.msgs.length ≤ k → exec (.encode k) s = .next (statusOnly s .illegalCommand)) ∧
    (k < s.plat.rom.msgs.length → s.countOf k ≠ 0 → s.src = 0 →
      exec (.encode k) s = .next (statusOnly s .nullArgument)) ∧
    (k < s.plat.rom.msgs.length → (s.countOf k = 0 ∨ s.src ≠ 0) →
      admitted s.plat.memWindow s.src.toNat (8 * s.countOf k) = false →
      exec (.encode k) s = .next (statusOnly s .resourceFault)) ∧
    (k < s.plat.rom.msgs.length → (s.countOf k = 0 ∨ s.src ≠ 0) →
      admitted s.plat.memWindow s.src.toNat (8 * s.countOf k) = true →
      ∃ d : FrameData,
        exec (.encode k) s = .next { s with
          frameData := d, frameId := BitVec.ofNat 32 (messageAt s.plat.rom.msgs k).id,
          frameDlc := BitVec.ofNat 8 (messageAt s.plat.rom.msgs k).byteLength,
          count := BitVec.ofNat 32 (s.countOf k), msgIdx := BitVec.ofNat 32 k, code := .ok, latch := none } ∧
        (∀ i g b, (s.signalsOf k)[i]? = some g → b < g.bitLength →
          (∀ j h, i < j → (s.signalsOf k)[j]? = some h →
            ¬ inSignal h (bitpos g.startBit g.bitLength g.byteOrder b)) →
          getBit d (bitpos g.startBit g.bitLength g.byteOrder b) =
            (s.mem.readLE (s.src.toNat + 8 * i) 8).testBit b) ∧
        ∀ p : Nat × Nat, p.1 < 8 → p.2 < 8 → (∀ g ∈ s.signalsOf k, ¬ inSignal g p) →
          getBit d p =
            if s.plat.clearScope = .declaredBytes ∧ p.1 < (messageAt s.plat.rom.msgs k).byteLength then false
            else getBit s.frameData p)

/-- R123, R205, R210: the checks of ENCODE in their order: KIND out of range raises IllegalCommand whatever SRC is; then SRC = 0
with N > 0 signals raises NullArgument whatever the window is. Nothing else changes. DECODE never raises NullArgument. -/
def Obligations.EncodeChecksKindThenPointer : Prop :=
  (∀ kind, kind < 2 ^ 16 → decode (encodeFormatM 7 kind) = .ok (.encode kind)) ∧
  ∀ (s : State) (kind : Nat),
    (s.plat.rom.msgs.length ≤ kind → exec (.encode kind) s = .next (statusOnly s .illegalCommand)) ∧
    (kind < s.plat.rom.msgs.length → s.countOf kind ≠ 0 → s.src = 0 →
      exec (.encode kind) s = .next (statusOnly s .nullArgument)) ∧
    ∀ t, exec .decode s = .next t → t.code ≠ .nullArgument

/-- R130: after a successful ENCODE of a message whose fields do not overlap, ROUTE selects that message, and extracting
field i of the frame gives value i cut to its low bits; where value i is in the range of its field, signed or unsigned,
the sign-extender gives back the same 64-bit pattern, and a DECODE of the frame into an admitted Borrowed region finishes Ok
with that value scaled in record i (a NaN being some NaN, R172). -/
def Obligations.EncodeThenDecodeRecoversRaws : Prop :=
  ∀ (s : State) (k : Nat), Memory.wf s.mem = true → k < s.plat.rom.msgs.length → (s.countOf k = 0 ∨ s.src ≠ 0) →
    admitted s.plat.memWindow s.src.toNat (8 * s.countOf k) = true →
    (s.signalsOf k).Pairwise disjointSignals →
    ∃ t u w : State, exec (.encode k) s = .next t ∧ exec .route t = .next u ∧ u.code = .ok ∧ u.msgIdx.toNat = k ∧
      exec .decode t = .next w ∧
      (s.dest ≠ 0 → admitted s.plat.memWindow s.dest.toNat (16 * s.countOf k) = true → w.code = .ok) ∧
      ∀ i g, (s.signalsOf k)[i]? = some g →
        (extractSignal t.frameData g).toNat = s.mem.readLE (s.src.toNat + 8 * i) 8 % 2 ^ g.bitLength ∧
        ∀ v : Raw, v.toNat = s.mem.readLE (s.src.toNat + 8 * i) 8 →
          (g.signed = true ∧ -(2 ^ (g.bitLength - 1)) ≤ v.toInt ∧ v.toInt < 2 ^ (g.bitLength - 1)) ∨
            (g.signed = false ∧ v.toNat < 2 ^ g.bitLength) →
          signx (extractSignal t.frameData g) g.bitLength g.signed = v ∧
          (s.dest ≠ 0 → admitted s.plat.memWindow s.dest.toNat (16 * s.countOf k) = true →
            ∃ draw : F64, w.mem.readLE (s.dest.toNat + 16 * i + 8) 8 =
              (scaleValue s.plat.scalerFused draw v g.signed g.scale g.offset).toNat)

/-- R125: under CLEAR_SCOPE = SIGNAL_BITS the clear step of ENCODE has no effect on its result. -/
def Obligations.ClearingSignalBitsIsUnobservable : Prop :=
  ∀ (rom : Rom) (m : MessageLayout) (d : FrameData) (raws : List Raw), m ∈ rom.msgs → raws.length = m.sigs.length →
    encodeFrame .signalBits m d raws = packSignals d m.sigs raws

/-! ### The register window -/

/-- R99: a host write of a word to CMD while BUSY = 0 latches it, sets BUSY and makes CMD read it, and changes nothing else;
while BUSY = 1 it is ignored and sets OVR. A word whose command would use memory the host keeps to itself puts the run
outside the spec (R233): `CapacityIsTheHostsDuty` says what the model does then. A host that keeps nothing writes no such
word. -/
def Obligations.CommandAcceptance : Prop :=
  ∀ (s : State) (w : Word) (rest : List HostAction), s.inputs = .store s.plat.regBase 4 w.toNat :: rest →
    (s.busy = false → ¬ usesWithheld s w → step s = .next { s with latch := some w, cmd := w, inputs := rest }) ∧
    (s.withheld = [] → ¬ usesWithheld s w) ∧
    (s.busy = true → step s = .next { s with ovr := true, inputs := rest })

/-- R41: while BUSY = 1 a host write to CMD or to an RW register is ignored and sets OVR, a host write to any other register
does what it does at BUSY = 0, and a host read returns the current register. -/
def Obligations.WritesWhileBusyAreLost : Prop :=
  ∀ (s : State) (word n : Nat) (v : Word) (rest : List HostAction), word < 64 → s.busy = true →
    n = s.plat.regBase + 4 * word →
    (s.inputs = .store n 4 v.toNat :: rest →
      step s = .next (if word = 0 ∨ (4 ≤ word ∧ word ≤ 13) ∨ word = 16 ∨ word = 17
        then { s with ovr := true, inputs := rest }
        else if word = 1 ∧ v.getLsbD 9 = true then { s with ovr := false, inputs := rest }
        else { s with inputs := rest })) ∧
    (s.inputs = .load n 4 :: rest →
      step s = .next { s with hostData := (s.regRead (regAt word)).toNat, inputs := rest })

/-- R40: a write to a read-only register (COUNT, MSGIDX, PHYS_LO, PHYS_HI, HANDLE, INFO) or to a reserved offset has no
effect, reserved offsets and reserved bits read 0, a write to FRAME_DLC keeps only its low 8 bits, and a write to STATUS
changes only OVR: 1 in bit 9 clears it, 0 leaves it. -/
def Obligations.ReadOnlyAndReservedOffsets : Prop :=
  ∀ (s : State) (word : Nat) (v : Word) (rest : List HostAction), word < 64 →
    (s.inputs = .store (s.plat.regBase + 4 * word) 4 v.toNat :: rest →
      (word = 2 ∨ word = 3 ∨ word = 14 ∨ word = 15 ∨ word = 18 ∨ word = 19 ∨ 20 ≤ word →
        step s = .next { s with inputs := rest }) ∧
      (word = 1 → step s = .next { s with ovr := s.ovr && !v.getLsbD 9, inputs := rest }) ∧
      (word = 5 → s.busy = false → step s = .next { s with frameDlc := v.setWidth 8, inputs := rest })) ∧
    (s.regRead .frameDlc).toNat < 256 ∧ s.regRead .status &&& 0xFFFFFCF0#32 = 0 ∧
    (s.inputs = .load (s.plat.regBase + 4 * word) 4 :: rest → 20 ≤ word →
      step s = .next { s with hostData := 0, inputs := rest })

/-- R38: the map of the register window for reads. A host load of any word, whether a command runs or not, returns what the
map has at its offset: CMD, STATUS, COUNT, MSGIDX, FRAME_ID, FRAME_DLC, the frame bytes 0 to 3 and 4 to 7 with the first
one lowest, the low and the high half of RAW, SCALE, OFFSET and PHYS, then DEST, SRC, HANDLE and INFO, and 0 at the reserved
offsets. It changes nothing else. -/
def Obligations.RegisterMapOfLoads : Prop :=
  ∀ (s : State) (word : Nat) (rest : List HostAction), word < 64 →
    s.inputs = .load (s.plat.regBase + 4 * word) 4 :: rest →
    step s = .next { s with hostData := (windowValues s).getD word 0, inputs := rest }

/-- R38: the map of the register window for writes. A host store to an RW word while BUSY = 0 writes the register, the
four frame bytes or the half of the register that the map has at its offset (FRAME_DLC takes the low 8 bits), and nothing
else. -/
def Obligations.RegisterMapOfStores : Prop :=
  ∀ (s : State) (word : Nat) (v : Word) (rest : List HostAction), s.busy = false →
    s.inputs = .store (s.plat.regBase + 4 * word) 4 v.toNat :: rest →
    (word = 4 → step s = .next { s with frameId := v, inputs := rest }) ∧
    (word = 5 → ∃ x, x.toNat = v.toNat % 2 ^ 8 ∧ step s = .next { s with frameDlc := x, inputs := rest }) ∧
    (word = 6 → ∃ d, frameWritten s.frameData d 0 v ∧ step s = .next { s with frameData := d, inputs := rest }) ∧
    (word = 7 → ∃ d, frameWritten s.frameData d 4 v ∧ step s = .next { s with frameData := d, inputs := rest }) ∧
    (word = 8 → ∃ x, lowWritten s.raw x v ∧ step s = .next { s with raw := x, inputs := rest }) ∧
    (word = 9 → ∃ x, highWritten s.raw x v ∧ step s = .next { s with raw := x, inputs := rest }) ∧
    (word = 10 → ∃ x, lowWritten s.scale x v ∧ step s = .next { s with scale := x, inputs := rest }) ∧
    (word = 11 → ∃ x, highWritten s.scale x v ∧ step s = .next { s with scale := x, inputs := rest }) ∧
    (word = 12 → ∃ x, lowWritten s.offset x v ∧ step s = .next { s with offset := x, inputs := rest }) ∧
    (word = 13 → ∃ x, highWritten s.offset x v ∧ step s = .next { s with offset := x, inputs := rest }) ∧
    (word = 16 → step s = .next { s with dest := v, inputs := rest }) ∧
    (word = 17 → step s = .next { s with src := v, inputs := rest })

/-- R38, R22 to R28: what the host writes to an RW register while BUSY = 0 it reads back (FRAME_DLC keeps 8 bits), and every
other register reads as before. -/
def Obligations.WrittenRegistersReadBack : Prop :=
  ∀ (s : State) (word : Nat) (v : Word), (4 ≤ word ∧ word ≤ 13) ∨ word = 16 ∨ word = 17 → s.busy = false →
    s.inputs = [.store (s.plat.regBase + 4 * word) 4 v.toNat] →
    ∃ t, step s = .next t ∧
      t.regRead (regAt word) = (if word = 5 then v % 256#32 else v) ∧
      ∀ other, other < 64 → other ≠ word → t.regRead (regAt other) = s.regRead (regAt other)

/-- R35, R200: STATUS holds the number of the code in bits 3:0, BUSY in bit 8, OVR in bit 9 and zeros elsewhere; the codes
are numbered 0 to 5 in the order of R200. -/
def Obligations.StatusWordFields : Prop :=
  ∀ s : State, ∃ n, n < 6 ∧
    [Code.ok, .unknownMessage, .lengthMismatch, .nullArgument, .illegalCommand, .resourceFault][n]? = some s.code ∧
    (s.regRead .status).toNat =
      n + 256 * (if s.latch = none then 0 else 1) + 512 * (if s.ovr = true then 1 else 0)

/-- R37: INFO holds NUM_MESSAGES in bits 15:0 and MAX_SIGNALS in bits 31:16, and no step changes INFO. MAX_SIGNALS is the
largest signal count of a message: it bounds every count, and some message has that many, or the ROM is empty and it is 0
(R9). -/
def Obligations.InfoDescribesTheRom : Prop :=
  ∀ s : State,
    (s.regRead .info).toNat = s.plat.rom.msgs.length + 65536 * maxSignals s.plat.rom.msgs ∧
    (∀ m ∈ s.plat.rom.msgs, m.sigs.length ≤ maxSignals s.plat.rom.msgs) ∧
    ((∃ m ∈ s.plat.rom.msgs, m.sigs.length = maxSignals s.plat.rom.msgs) ∨
      (s.plat.rom.msgs = [] ∧ maxSignals s.plat.rom.msgs = 0)) ∧
    ∀ t, step s = .next t → t.regRead .info = s.regRead .info

/-- R42: OVR is sticky: only a host write of 1 to STATUS bit 9, or reset, clears it; no command changes it. -/
def Obligations.OvrIsSticky : Prop :=
  (∀ (i : Instr) (s t : State), exec i s = .next t → t.ovr = s.ovr) ∧
  ∀ s t : State, s.ovr = true → step s = .next t → t.ovr = false →
    ∃ rest, s.inputs = .reset :: rest ∨
      ∃ v, s.inputs = .store (s.plat.regBase + 4) 4 v :: rest ∧ v.testBit 9 = true

/-- R39: a host access that touches the register window and is not an aligned 32-bit access to it is refused. -/
def Obligations.WindowTakesAlignedWordsOnly : Prop :=
  ∀ (s : State) (addr n v : Nat) (rest : List HostAction),
    overlaps ⟨addr, n⟩ (registerWindow s.plat.regBase) = true →
    (∀ word, word < 64 → ¬ (n = 4 ∧ addr = s.plat.regBase + 4 * word)) →
    (s.inputs = .store addr n v :: rest ∨ s.inputs = .load addr n :: rest) →
    step s = .refused .windowAccessForm

/-! ### Host memory, duties and reset -/

/-- R75: while a DECODE runs, a host access to its result region is refused; while an ENCODE of a message runs, a host store
into its source region [SRC, SRC + 8N) is refused. Whether the checks of the ENCODE pass, or the Borrowed region of the DECODE
is admitted, does not matter. That the result region of a DECODE whose window check fails is the one DEST names is the
model's reading (log 11). -/
def Obligations.HostDutiesWhileBusy : Prop :=
  ∀ (s : State) (w : Word) (addr n v base k : Nat) (rest : List HostAction), s.latch = some w →
    admitted s.plat.memWindow addr n = true →
    (decode w = .ok .decode → namesMessage s k → resultStartsAt s k base →
      overlaps ⟨addr, n⟩ ⟨base, 16 * s.countOf k⟩ = true →
      (s.inputs = .store addr n v :: rest ∨ s.inputs = .load addr n :: rest) →
      step s = .refused .touchesResultRegion) ∧
    (decode w = .ok (.encode k) → k < s.plat.rom.msgs.length →
      overlaps ⟨addr, n⟩ ⟨s.src.toNat, 8 * s.countOf k⟩ = true → s.inputs = .store addr n v :: rest →
      step s = .refused .storesToSourceRegion)

/-- R233, U3, U4: the extent of its buffers is the host's duty, not the block's check. Once the host has said that it keeps
some memory to itself, a Borrowed DECODE or an ENCODE that would use it is refused when it is written to CMD, and taking
back the region of a running command is refused; any other change of what the host keeps goes on and changes nothing else.
The block's own commands check no capacity: an access the host did not keep runs as the window admits it. That the host's
gift is told by what it keeps, all of MEM_WINDOW being given at reset, is the model's choice (log 12). -/
def Obligations.CapacityIsTheHostsDuty : Prop :=
  (∀ (s : State) (w : Word) (rest : List HostAction), s.busy = false → usesWithheld s w →
    s.inputs = .store s.plat.regBase 4 w.toNat :: rest → step s = .refused .regionNotGiven) ∧
  (∀ (s : State) (kept : List Span) (rest : List HostAction), s.inputs = .keep kept :: rest →
    (∀ w, s.latch = some w → usesWithheld { s with withheld := kept } w → step s = .refused .regionNotGiven) ∧
    ((∀ w, s.latch = some w → ¬ usesWithheld { s with withheld := kept } w) →
      step s = .next { s with withheld := kept, inputs := rest })) ∧
  ∀ (i : Instr) (s t : State) (kept : List Span), exec i s = .next t →
    exec i { s with withheld := kept } = .next { t with withheld := kept }

/-- R227: reset while a command runs leaves each byte of memory at its old value or at the value the command would have
written, gives every register its reset value, and releases no region of the allocator; with no command running, or an
illegal one, it writes no memory (R225). Of an Owned DECODE cut short, either memory and the allocator's record are as before,
the allocator not having been asked yet, or the region it answered is live: that both can be is the model's deduction (log
8). -/
def Obligations.ResetCutsTheCommandShort : Prop :=
  ∀ s t : State, Memory.wf s.mem = true → hostStep .reset s = .next t →
    (∀ w i u, s.latch = some w → decode w = .ok i → exec i s = .next u →
      ∀ a, Memory.read t.mem a = Memory.read s.mem a ∨ Memory.read t.mem a = Memory.read u.mem a) ∧
    ((s.latch = none ∨ ∃ w r, s.latch = some w ∧ decode w = .error r) → t.mem = s.mem) ∧
    (∀ r : Reg, r ≠ .info → t.regRead r = State.reset.regRead r) ∧ t.latch = none ∧
    (∀ r ∈ s.liveRegions, r ∈ t.liveRegions) ∧
    ∀ w k a, s.latch = some w → decode w = .ok .decode → namesMessage s k → s.dest = 0 → s.countOf k ≠ 0 →
      s.allocAnswer (16 * s.countOf k) = some a →
      (t.mem = s.mem ∧ t.allocs = s.allocs) ∨ ⟨a, 16 * s.countOf k⟩ ∈ t.liveRegions

/-- Host accesses to memory: in MEM_WINDOW a load returns the little-endian number of the bytes and a store writes them (R60,
R62, R70), with no command running and also while one runs whose regions the access spares as R75 asks: the result region
of a DECODE for both, the source region of an ENCODE for a store. A release changes only what the allocator holds live
(R194); that the release of an address no live region starts at changes nothing is the model's choice (log 6). Outside MEM_WINDOW the model refuses, and at or past 2^32 it faults (log 13). -/
def Obligations.HostMemoryAccesses : Prop :=
  ∀ (s : State) (addr n v : Nat) (rest : List HostAction),
    (admitted s.plat.memWindow addr n = true → sparesResult s ⟨addr, n⟩ →
      (s.inputs = .load addr n :: rest → step s = .next { s with hostData := s.mem.readLE addr n, inputs := rest }) ∧
      (sparesSource s ⟨addr, n⟩ → s.inputs = .store addr n v :: rest →
        step s = .next { s with mem := s.mem.writeLE addr n v, inputs := rest })) ∧
    (s.latch = none → sparesResult s ⟨addr, n⟩ ∧ sparesSource s ⟨addr, n⟩) ∧
    (overlaps ⟨addr, n⟩ (registerWindow s.plat.regBase) = false → admitted s.plat.memWindow addr n = false →
      (s.inputs = .load addr n :: rest ∨ s.inputs = .store addr n v :: rest) →
      step s = if addressSpace < addr + n then .fault .addressBeyondSpace else .refused .hostMemoryOutsideWindow) ∧
    (s.inputs = .release addr :: rest → ∃ calls t, step s = .next t ∧ t = { s with allocs := calls, inputs := rest } ∧
      (∀ r ∈ t.liveRegions, r ∈ s.liveRegions ∧ r.base ≠ addr) ∧
      ∀ r ∈ s.liveRegions, r.base ≠ addr → r ∈ t.liveRegions)

/-- R63, R64: MemWrite writes byte j of its value at a + j and no other byte, MemRead returns the little-endian number of the
bytes, so that a read of what was written gives it back. -/
def Obligations.MemoryPortReadsAndWritesLittleEndian : Prop :=
  ∀ (m : Memory) (a n v : Nat), Memory.wf m = true →
    (∀ j, j < n → Memory.read (m.writeLE a n v) (a + j) = BitVec.ofNat 8 (v / 2 ^ (8 * j))) ∧
    (∀ c, c < a ∨ a + n ≤ c → Memory.read (m.writeLE a n v) c = Memory.read m c) ∧
    m.readLE a n = ((List.range n).map fun j => (Memory.read m (a + j)).toNat * 2 ^ (8 * j)).sum ∧
    (v < 2 ^ (8 * n) → (m.writeLE a n v).readLE a n = v)
end

