-- ==== Sys2Proof/Laws/State.lean ====
section
/-! SUPPORT. One lemma per field per named update of the state, so that no later proof unfolds a record update. -/

namespace Sys2Proof.Machine

/-- Raising is finishing (R12). -/
@[simp] theorem State.raise_eq_finish (s : State) (c : Code) : s.raise c = s.finish c := rfl

@[simp] theorem State.busy_finish (s : State) (c : Code) : (s.finish c).busy = false := rfl
@[simp] theorem State.busy_accept (s : State) (w : Word) : (s.accept w).busy = true := rfl

/-! ### finish -/

@[simp] theorem State.finish_plat (s : State) (c : Code) : (s.finish c).plat = s.plat := rfl
@[simp] theorem State.finish_cmd (s : State) (c : Code) : (s.finish c).cmd = s.cmd := rfl
@[simp] theorem State.finish_code (s : State) (c : Code) : (s.finish c).code = c := rfl
@[simp] theorem State.finish_ovr (s : State) (c : Code) : (s.finish c).ovr = s.ovr := rfl
@[simp] theorem State.finish_count (s : State) (c : Code) : (s.finish c).count = s.count := rfl
@[simp] theorem State.finish_msgIdx (s : State) (c : Code) : (s.finish c).msgIdx = s.msgIdx := rfl
@[simp] theorem State.finish_frameId (s : State) (c : Code) : (s.finish c).frameId = s.frameId := rfl
@[simp] theorem State.finish_frameDlc (s : State) (c : Code) : (s.finish c).frameDlc = s.frameDlc := rfl
@[simp] theorem State.finish_frameData (s : State) (c : Code) : (s.finish c).frameData = s.frameData := rfl
@[simp] theorem State.finish_raw (s : State) (c : Code) : (s.finish c).raw = s.raw := rfl
@[simp] theorem State.finish_scale (s : State) (c : Code) : (s.finish c).scale = s.scale := rfl
@[simp] theorem State.finish_offset (s : State) (c : Code) : (s.finish c).offset = s.offset := rfl
@[simp] theorem State.finish_phys (s : State) (c : Code) : (s.finish c).phys = s.phys := rfl
@[simp] theorem State.finish_dest (s : State) (c : Code) : (s.finish c).dest = s.dest := rfl
@[simp] theorem State.finish_src (s : State) (c : Code) : (s.finish c).src = s.src := rfl
@[simp] theorem State.finish_handle (s : State) (c : Code) : (s.finish c).handle = s.handle := rfl
@[simp] theorem State.finish_latch (s : State) (c : Code) : (s.finish c).latch = none := rfl
@[simp] theorem State.finish_mem (s : State) (c : Code) : (s.finish c).mem = s.mem := rfl
@[simp] theorem State.finish_inputs (s : State) (c : Code) : (s.finish c).inputs = s.inputs := rfl
@[simp] theorem State.finish_hostData (s : State) (c : Code) : (s.finish c).hostData = s.hostData := rfl
@[simp] theorem State.finish_withheld (s : State) (c : Code) : (s.finish c).withheld = s.withheld := rfl
@[simp] theorem State.finish_allocs (s : State) (c : Code) : (s.finish c).allocs = s.allocs := rfl
@[simp] theorem State.finish_nanDraws (s : State) (c : Code) : (s.finish c).nanDraws = s.nanDraws := rfl
@[simp] theorem State.finish_resetDraws (s : State) (c : Code) : (s.finish c).resetDraws = s.resetDraws := rfl

/-! ### recordAlloc -/

@[simp] theorem State.recordAlloc_plat (s : State) (n : Nat) : (s.recordAlloc n).plat = s.plat := rfl
@[simp] theorem State.recordAlloc_cmd (s : State) (n : Nat) : (s.recordAlloc n).cmd = s.cmd := rfl
@[simp] theorem State.recordAlloc_code (s : State) (n : Nat) : (s.recordAlloc n).code = s.code := rfl
@[simp] theorem State.recordAlloc_ovr (s : State) (n : Nat) : (s.recordAlloc n).ovr = s.ovr := rfl
@[simp] theorem State.recordAlloc_count (s : State) (n : Nat) : (s.recordAlloc n).count = s.count := rfl
@[simp] theorem State.recordAlloc_msgIdx (s : State) (n : Nat) : (s.recordAlloc n).msgIdx = s.msgIdx := rfl
@[simp] theorem State.recordAlloc_frameId (s : State) (n : Nat) : (s.recordAlloc n).frameId = s.frameId := rfl
@[simp] theorem State.recordAlloc_frameDlc (s : State) (n : Nat) : (s.recordAlloc n).frameDlc = s.frameDlc := rfl
@[simp] theorem State.recordAlloc_frameData (s : State) (n : Nat) : (s.recordAlloc n).frameData = s.frameData := rfl
@[simp] theorem State.recordAlloc_raw (s : State) (n : Nat) : (s.recordAlloc n).raw = s.raw := rfl
@[simp] theorem State.recordAlloc_scale (s : State) (n : Nat) : (s.recordAlloc n).scale = s.scale := rfl
@[simp] theorem State.recordAlloc_offset (s : State) (n : Nat) : (s.recordAlloc n).offset = s.offset := rfl
@[simp] theorem State.recordAlloc_phys (s : State) (n : Nat) : (s.recordAlloc n).phys = s.phys := rfl
@[simp] theorem State.recordAlloc_dest (s : State) (n : Nat) : (s.recordAlloc n).dest = s.dest := rfl
@[simp] theorem State.recordAlloc_src (s : State) (n : Nat) : (s.recordAlloc n).src = s.src := rfl
@[simp] theorem State.recordAlloc_handle (s : State) (n : Nat) : (s.recordAlloc n).handle = s.handle := rfl
@[simp] theorem State.recordAlloc_latch (s : State) (n : Nat) : (s.recordAlloc n).latch = s.latch := rfl
@[simp] theorem State.recordAlloc_mem (s : State) (n : Nat) : (s.recordAlloc n).mem = s.mem := rfl
@[simp] theorem State.recordAlloc_inputs (s : State) (n : Nat) : (s.recordAlloc n).inputs = s.inputs := rfl
@[simp] theorem State.recordAlloc_hostData (s : State) (n : Nat) : (s.recordAlloc n).hostData = s.hostData := rfl
@[simp] theorem State.recordAlloc_withheld (s : State) (n : Nat) : (s.recordAlloc n).withheld = s.withheld := rfl
@[simp] theorem State.recordAlloc_allocs (s : State) (n : Nat) : (s.recordAlloc n).allocs = s.allocs ++ [⟨n, s.allocAnswer n, false⟩] := rfl
@[simp] theorem State.recordAlloc_nanDraws (s : State) (n : Nat) : (s.recordAlloc n).nanDraws = s.nanDraws := rfl
@[simp] theorem State.recordAlloc_resetDraws (s : State) (n : Nat) : (s.recordAlloc n).resetDraws = s.resetDraws := rfl

/-! ### afterResultBase -/

@[simp] theorem State.afterResultBase_plat (s : State) (n : Nat) : (s.afterResultBase n).plat = s.plat := by
  unfold State.afterResultBase; split <;> rfl
@[simp] theorem State.afterResultBase_cmd (s : State) (n : Nat) : (s.afterResultBase n).cmd = s.cmd := by
  unfold State.afterResultBase; split <;> rfl
@[simp] theorem State.afterResultBase_code (s : State) (n : Nat) : (s.afterResultBase n).code = s.code := by
  unfold State.afterResultBase; split <;> rfl
@[simp] theorem State.afterResultBase_ovr (s : State) (n : Nat) : (s.afterResultBase n).ovr = s.ovr := by
  unfold State.afterResultBase; split <;> rfl
@[simp] theorem State.afterResultBase_count (s : State) (n : Nat) : (s.afterResultBase n).count = s.count := by
  unfold State.afterResultBase; split <;> rfl
@[simp] theorem State.afterResultBase_msgIdx (s : State) (n : Nat) : (s.afterResultBase n).msgIdx = s.msgIdx := by
  unfold State.afterResultBase; split <;> rfl
@[simp] theorem State.afterResultBase_frameId (s : State) (n : Nat) : (s.afterResultBase n).frameId = s.frameId := by
  unfold State.afterResultBase; split <;> rfl
@[simp] theorem State.afterResultBase_frameDlc (s : State) (n : Nat) : (s.afterResultBase n).frameDlc = s.frameDlc := by
  unfold State.afterResultBase; split <;> rfl
@[simp] theorem State.afterResultBase_frameData (s : State) (n : Nat) : (s.afterResultBase n).frameData = s.frameData := by
  unfold State.afterResultBase; split <;> rfl
@[simp] theorem State.afterResultBase_raw (s : State) (n : Nat) : (s.afterResultBase n).raw = s.raw := by
  unfold State.afterResultBase; split <;> rfl
@[simp] theorem State.afterResultBase_scale (s : State) (n : Nat) : (s.afterResultBase n).scale = s.scale := by
  unfold State.afterResultBase; split <;> rfl
@[simp] theorem State.afterResultBase_offset (s : State) (n : Nat) : (s.afterResultBase n).offset = s.offset := by
  unfold State.afterResultBase; split <;> rfl
@[simp] theorem State.afterResultBase_phys (s : State) (n : Nat) : (s.afterResultBase n).phys = s.phys := by
  unfold State.afterResultBase; split <;> rfl
@[simp] theorem State.afterResultBase_dest (s : State) (n : Nat) : (s.afterResultBase n).dest = s.dest := by
  unfold State.afterResultBase; split <;> rfl
@[simp] theorem State.afterResultBase_src (s : State) (n : Nat) : (s.afterResultBase n).src = s.src := by
  unfold State.afterResultBase; split <;> rfl
@[simp] theorem State.afterResultBase_handle (s : State) (n : Nat) : (s.afterResultBase n).handle = s.handle := by
  unfold State.afterResultBase; split <;> rfl
@[simp] theorem State.afterResultBase_latch (s : State) (n : Nat) : (s.afterResultBase n).latch = s.latch := by
  unfold State.afterResultBase; split <;> rfl
@[simp] theorem State.afterResultBase_mem (s : State) (n : Nat) : (s.afterResultBase n).mem = s.mem := by
  unfold State.afterResultBase; split <;> rfl
@[simp] theorem State.afterResultBase_inputs (s : State) (n : Nat) : (s.afterResultBase n).inputs = s.inputs := by
  unfold State.afterResultBase; split <;> rfl
@[simp] theorem State.afterResultBase_hostData (s : State) (n : Nat) : (s.afterResultBase n).hostData = s.hostData := by
  unfold State.afterResultBase; split <;> rfl
@[simp] theorem State.afterResultBase_withheld (s : State) (n : Nat) : (s.afterResultBase n).withheld = s.withheld := by
  unfold State.afterResultBase; split <;> rfl
@[simp] theorem State.afterResultBase_nanDraws (s : State) (n : Nat) : (s.afterResultBase n).nanDraws = s.nanDraws := by
  unfold State.afterResultBase; split <;> rfl
@[simp] theorem State.afterResultBase_resetDraws (s : State) (n : Nat) : (s.afterResultBase n).resetDraws = s.resetDraws := by
  unfold State.afterResultBase; split <;> rfl

theorem State.afterResultBase_of_consults {s : State} {n : Nat} (h : s.consultsAllocator n = true) :
    s.afterResultBase n = s.recordAlloc (16 * n) := by
  simp [State.afterResultBase, h]

theorem State.afterResultBase_of_not_consults {s : State} {n : Nat} (h : s.consultsAllocator n = false) :
    s.afterResultBase n = s := by
  simp [State.afterResultBase, h]

/-! ### accept -/

@[simp] theorem State.accept_plat (s : State) (w : Word) : (s.accept w).plat = s.plat := rfl
@[simp] theorem State.accept_cmd (s : State) (w : Word) : (s.accept w).cmd = w := rfl
@[simp] theorem State.accept_code (s : State) (w : Word) : (s.accept w).code = s.code := rfl
@[simp] theorem State.accept_ovr (s : State) (w : Word) : (s.accept w).ovr = s.ovr := rfl
@[simp] theorem State.accept_count (s : State) (w : Word) : (s.accept w).count = s.count := rfl
@[simp] theorem State.accept_msgIdx (s : State) (w : Word) : (s.accept w).msgIdx = s.msgIdx := rfl
@[simp] theorem State.accept_frameId (s : State) (w : Word) : (s.accept w).frameId = s.frameId := rfl
@[simp] theorem State.accept_frameDlc (s : State) (w : Word) : (s.accept w).frameDlc = s.frameDlc := rfl
@[simp] theorem State.accept_frameData (s : State) (w : Word) : (s.accept w).frameData = s.frameData := rfl
@[simp] theorem State.accept_raw (s : State) (w : Word) : (s.accept w).raw = s.raw := rfl
@[simp] theorem State.accept_scale (s : State) (w : Word) : (s.accept w).scale = s.scale := rfl
@[simp] theorem State.accept_offset (s : State) (w : Word) : (s.accept w).offset = s.offset := rfl
@[simp] theorem State.accept_phys (s : State) (w : Word) : (s.accept w).phys = s.phys := rfl
@[simp] theorem State.accept_dest (s : State) (w : Word) : (s.accept w).dest = s.dest := rfl
@[simp] theorem State.accept_src (s : State) (w : Word) : (s.accept w).src = s.src := rfl
@[simp] theorem State.accept_handle (s : State) (w : Word) : (s.accept w).handle = s.handle := rfl
@[simp] theorem State.accept_latch (s : State) (w : Word) : (s.accept w).latch = some w := rfl
@[simp] theorem State.accept_mem (s : State) (w : Word) : (s.accept w).mem = s.mem := rfl
@[simp] theorem State.accept_inputs (s : State) (w : Word) : (s.accept w).inputs = s.inputs := rfl
@[simp] theorem State.accept_hostData (s : State) (w : Word) : (s.accept w).hostData = s.hostData := rfl
@[simp] theorem State.accept_withheld (s : State) (w : Word) : (s.accept w).withheld = s.withheld := rfl
@[simp] theorem State.accept_allocs (s : State) (w : Word) : (s.accept w).allocs = s.allocs := rfl
@[simp] theorem State.accept_nanDraws (s : State) (w : Word) : (s.accept w).nanDraws = s.nanDraws := rfl
@[simp] theorem State.accept_resetDraws (s : State) (w : Word) : (s.accept w).resetDraws = s.resetDraws := rfl

/-! ### loseWrite -/

@[simp] theorem State.loseWrite_plat (s : State) : (s.loseWrite).plat = s.plat := rfl
@[simp] theorem State.loseWrite_cmd (s : State) : (s.loseWrite).cmd = s.cmd := rfl
@[simp] theorem State.loseWrite_code (s : State) : (s.loseWrite).code = s.code := rfl
@[simp] theorem State.loseWrite_ovr (s : State) : (s.loseWrite).ovr = true := rfl
@[simp] theorem State.loseWrite_count (s : State) : (s.loseWrite).count = s.count := rfl
@[simp] theorem State.loseWrite_msgIdx (s : State) : (s.loseWrite).msgIdx = s.msgIdx := rfl
@[simp] theorem State.loseWrite_frameId (s : State) : (s.loseWrite).frameId = s.frameId := rfl
@[simp] theorem State.loseWrite_frameDlc (s : State) : (s.loseWrite).frameDlc = s.frameDlc := rfl
@[simp] theorem State.loseWrite_frameData (s : State) : (s.loseWrite).frameData = s.frameData := rfl
@[simp] theorem State.loseWrite_raw (s : State) : (s.loseWrite).raw = s.raw := rfl
@[simp] theorem State.loseWrite_scale (s : State) : (s.loseWrite).scale = s.scale := rfl
@[simp] theorem State.loseWrite_offset (s : State) : (s.loseWrite).offset = s.offset := rfl
@[simp] theorem State.loseWrite_phys (s : State) : (s.loseWrite).phys = s.phys := rfl
@[simp] theorem State.loseWrite_dest (s : State) : (s.loseWrite).dest = s.dest := rfl
@[simp] theorem State.loseWrite_src (s : State) : (s.loseWrite).src = s.src := rfl
@[simp] theorem State.loseWrite_handle (s : State) : (s.loseWrite).handle = s.handle := rfl
@[simp] theorem State.loseWrite_latch (s : State) : (s.loseWrite).latch = s.latch := rfl
@[simp] theorem State.loseWrite_mem (s : State) : (s.loseWrite).mem = s.mem := rfl
@[simp] theorem State.loseWrite_inputs (s : State) : (s.loseWrite).inputs = s.inputs := rfl
@[simp] theorem State.loseWrite_hostData (s : State) : (s.loseWrite).hostData = s.hostData := rfl
@[simp] theorem State.loseWrite_withheld (s : State) : (s.loseWrite).withheld = s.withheld := rfl
@[simp] theorem State.loseWrite_allocs (s : State) : (s.loseWrite).allocs = s.allocs := rfl
@[simp] theorem State.loseWrite_nanDraws (s : State) : (s.loseWrite).nanDraws = s.nanDraws := rfl
@[simp] theorem State.loseWrite_resetDraws (s : State) : (s.loseWrite).resetDraws = s.resetDraws := rfl

/-! ### latchWord -/

@[simp] theorem State.latchWord_plat (s : State) (w : Word) : (s.latchWord w).plat = s.plat := rfl
@[simp] theorem State.latchWord_cmd (s : State) (w : Word) : (s.latchWord w).cmd = w := rfl
@[simp] theorem State.latchWord_code (s : State) (w : Word) : (s.latchWord w).code = s.code := rfl
@[simp] theorem State.latchWord_ovr (s : State) (w : Word) : (s.latchWord w).ovr = s.ovr := rfl
@[simp] theorem State.latchWord_count (s : State) (w : Word) : (s.latchWord w).count = s.count := rfl
@[simp] theorem State.latchWord_msgIdx (s : State) (w : Word) : (s.latchWord w).msgIdx = s.msgIdx := rfl
@[simp] theorem State.latchWord_frameId (s : State) (w : Word) : (s.latchWord w).frameId = s.frameId := rfl
@[simp] theorem State.latchWord_frameDlc (s : State) (w : Word) : (s.latchWord w).frameDlc = s.frameDlc := rfl
@[simp] theorem State.latchWord_frameData (s : State) (w : Word) : (s.latchWord w).frameData = s.frameData := rfl
@[simp] theorem State.latchWord_raw (s : State) (w : Word) : (s.latchWord w).raw = s.raw := rfl
@[simp] theorem State.latchWord_scale (s : State) (w : Word) : (s.latchWord w).scale = s.scale := rfl
@[simp] theorem State.latchWord_offset (s : State) (w : Word) : (s.latchWord w).offset = s.offset := rfl
@[simp] theorem State.latchWord_phys (s : State) (w : Word) : (s.latchWord w).phys = s.phys := rfl
@[simp] theorem State.latchWord_dest (s : State) (w : Word) : (s.latchWord w).dest = s.dest := rfl
@[simp] theorem State.latchWord_src (s : State) (w : Word) : (s.latchWord w).src = s.src := rfl
@[simp] theorem State.latchWord_handle (s : State) (w : Word) : (s.latchWord w).handle = s.handle := rfl
@[simp] theorem State.latchWord_latch (s : State) (w : Word) : (s.latchWord w).latch = some w := rfl
@[simp] theorem State.latchWord_mem (s : State) (w : Word) : (s.latchWord w).mem = s.mem := rfl
@[simp] theorem State.latchWord_inputs (s : State) (w : Word) : (s.latchWord w).inputs = [] := rfl
@[simp] theorem State.latchWord_hostData (s : State) (w : Word) : (s.latchWord w).hostData = s.hostData := rfl
@[simp] theorem State.latchWord_withheld (s : State) (w : Word) : (s.latchWord w).withheld = s.withheld := rfl
@[simp] theorem State.latchWord_allocs (s : State) (w : Word) : (s.latchWord w).allocs = s.allocs := rfl
@[simp] theorem State.latchWord_nanDraws (s : State) (w : Word) : (s.latchWord w).nanDraws = s.nanDraws := rfl
@[simp] theorem State.latchWord_resetDraws (s : State) (w : Word) : (s.latchWord w).resetDraws = s.resetDraws := rfl

/-! ### resetRegisters -/

@[simp] theorem State.resetRegisters_plat (s : State) : (s.resetRegisters).plat = s.plat := rfl
@[simp] theorem State.resetRegisters_cmd (s : State) : (s.resetRegisters).cmd = State.reset.cmd := rfl
@[simp] theorem State.resetRegisters_code (s : State) : (s.resetRegisters).code = State.reset.code := rfl
@[simp] theorem State.resetRegisters_ovr (s : State) : (s.resetRegisters).ovr = State.reset.ovr := rfl
@[simp] theorem State.resetRegisters_count (s : State) : (s.resetRegisters).count = State.reset.count := rfl
@[simp] theorem State.resetRegisters_msgIdx (s : State) : (s.resetRegisters).msgIdx = State.reset.msgIdx := rfl
@[simp] theorem State.resetRegisters_frameId (s : State) : (s.resetRegisters).frameId = State.reset.frameId := rfl
@[simp] theorem State.resetRegisters_frameDlc (s : State) : (s.resetRegisters).frameDlc = State.reset.frameDlc := rfl
@[simp] theorem State.resetRegisters_frameData (s : State) : (s.resetRegisters).frameData = State.reset.frameData := rfl
@[simp] theorem State.resetRegisters_raw (s : State) : (s.resetRegisters).raw = State.reset.raw := rfl
@[simp] theorem State.resetRegisters_scale (s : State) : (s.resetRegisters).scale = State.reset.scale := rfl
@[simp] theorem State.resetRegisters_offset (s : State) : (s.resetRegisters).offset = State.reset.offset := rfl
@[simp] theorem State.resetRegisters_phys (s : State) : (s.resetRegisters).phys = State.reset.phys := rfl
@[simp] theorem State.resetRegisters_dest (s : State) : (s.resetRegisters).dest = State.reset.dest := rfl
@[simp] theorem State.resetRegisters_src (s : State) : (s.resetRegisters).src = State.reset.src := rfl
@[simp] theorem State.resetRegisters_handle (s : State) : (s.resetRegisters).handle = State.reset.handle := rfl
@[simp] theorem State.resetRegisters_latch (s : State) : (s.resetRegisters).latch = State.reset.latch := rfl
@[simp] theorem State.resetRegisters_mem (s : State) : (s.resetRegisters).mem = s.mem := rfl
@[simp] theorem State.resetRegisters_inputs (s : State) : (s.resetRegisters).inputs = s.inputs := rfl
@[simp] theorem State.resetRegisters_hostData (s : State) : (s.resetRegisters).hostData = s.hostData := rfl
@[simp] theorem State.resetRegisters_withheld (s : State) : (s.resetRegisters).withheld = s.withheld := rfl
@[simp] theorem State.resetRegisters_allocs (s : State) : (s.resetRegisters).allocs = s.allocs := rfl
@[simp] theorem State.resetRegisters_nanDraws (s : State) : (s.resetRegisters).nanDraws = s.nanDraws := rfl
@[simp] theorem State.resetRegisters_resetDraws (s : State) : (s.resetRegisters).resetDraws = s.resetDraws + 1 := rfl

/-! ### regStore -/

@[simp] theorem State.regStore_plat (s : State) (r : Reg) (v : Word) : (s.regStore r v).plat = s.plat := by
  cases r <;> simp only [State.regStore, State.accept]
  split <;> rfl
@[simp] theorem State.regStore_code (s : State) (r : Reg) (v : Word) : (s.regStore r v).code = s.code := by
  cases r <;> simp only [State.regStore, State.accept]
  split <;> rfl
@[simp] theorem State.regStore_count (s : State) (r : Reg) (v : Word) : (s.regStore r v).count = s.count := by
  cases r <;> simp only [State.regStore, State.accept]
  split <;> rfl
@[simp] theorem State.regStore_msgIdx (s : State) (r : Reg) (v : Word) : (s.regStore r v).msgIdx = s.msgIdx := by
  cases r <;> simp only [State.regStore, State.accept]
  split <;> rfl
@[simp] theorem State.regStore_phys (s : State) (r : Reg) (v : Word) : (s.regStore r v).phys = s.phys := by
  cases r <;> simp only [State.regStore, State.accept]
  split <;> rfl
@[simp] theorem State.regStore_handle (s : State) (r : Reg) (v : Word) : (s.regStore r v).handle = s.handle := by
  cases r <;> simp only [State.regStore, State.accept]
  split <;> rfl
@[simp] theorem State.regStore_mem (s : State) (r : Reg) (v : Word) : (s.regStore r v).mem = s.mem := by
  cases r <;> simp only [State.regStore, State.accept]
  split <;> rfl
@[simp] theorem State.regStore_inputs (s : State) (r : Reg) (v : Word) : (s.regStore r v).inputs = s.inputs := by
  cases r <;> simp only [State.regStore, State.accept]
  split <;> rfl
@[simp] theorem State.regStore_hostData (s : State) (r : Reg) (v : Word) : (s.regStore r v).hostData = s.hostData := by
  cases r <;> simp only [State.regStore, State.accept]
  split <;> rfl
@[simp] theorem State.regStore_withheld (s : State) (r : Reg) (v : Word) : (s.regStore r v).withheld = s.withheld := by
  cases r <;> simp only [State.regStore, State.accept]
  split <;> rfl
@[simp] theorem State.regStore_allocs (s : State) (r : Reg) (v : Word) : (s.regStore r v).allocs = s.allocs := by
  cases r <;> simp only [State.regStore, State.accept]
  split <;> rfl
@[simp] theorem State.regStore_nanDraws (s : State) (r : Reg) (v : Word) : (s.regStore r v).nanDraws = s.nanDraws := by
  cases r <;> simp only [State.regStore, State.accept]
  split <;> rfl
@[simp] theorem State.regStore_resetDraws (s : State) (r : Reg) (v : Word) : (s.regStore r v).resetDraws = s.resetDraws := by
  cases r <;> simp only [State.regStore, State.accept]
  split <;> rfl
@[simp] theorem State.regWrite_plat (s : State) (r : Reg) (v : Word) : (s.regWrite r v).plat = s.plat := by
  unfold State.regWrite; split <;> simp
@[simp] theorem State.regWrite_code (s : State) (r : Reg) (v : Word) : (s.regWrite r v).code = s.code := by
  unfold State.regWrite; split <;> simp
@[simp] theorem State.regWrite_count (s : State) (r : Reg) (v : Word) : (s.regWrite r v).count = s.count := by
  unfold State.regWrite; split <;> simp
@[simp] theorem State.regWrite_msgIdx (s : State) (r : Reg) (v : Word) : (s.regWrite r v).msgIdx = s.msgIdx := by
  unfold State.regWrite; split <;> simp
@[simp] theorem State.regWrite_phys (s : State) (r : Reg) (v : Word) : (s.regWrite r v).phys = s.phys := by
  unfold State.regWrite; split <;> simp
@[simp] theorem State.regWrite_handle (s : State) (r : Reg) (v : Word) : (s.regWrite r v).handle = s.handle := by
  unfold State.regWrite; split <;> simp
@[simp] theorem State.regWrite_mem (s : State) (r : Reg) (v : Word) : (s.regWrite r v).mem = s.mem := by
  unfold State.regWrite; split <;> simp
@[simp] theorem State.regWrite_inputs (s : State) (r : Reg) (v : Word) : (s.regWrite r v).inputs = s.inputs := by
  unfold State.regWrite; split <;> simp
@[simp] theorem State.regWrite_hostData (s : State) (r : Reg) (v : Word) : (s.regWrite r v).hostData = s.hostData := by
  unfold State.regWrite; split <;> simp
@[simp] theorem State.regWrite_withheld (s : State) (r : Reg) (v : Word) : (s.regWrite r v).withheld = s.withheld := by
  unfold State.regWrite; split <;> simp
@[simp] theorem State.regWrite_allocs (s : State) (r : Reg) (v : Word) : (s.regWrite r v).allocs = s.allocs := by
  unfold State.regWrite; split <;> simp
@[simp] theorem State.regWrite_nanDraws (s : State) (r : Reg) (v : Word) : (s.regWrite r v).nanDraws = s.nanDraws := by
  unfold State.regWrite; split <;> simp
@[simp] theorem State.regWrite_resetDraws (s : State) (r : Reg) (v : Word) : (s.regWrite r v).resetDraws = s.resetDraws := by
  unfold State.regWrite; split <;> simp

end Sys2Proof.Machine
end

