-- ==== Sys2Proof/Laws/Memory.lean ====
section
/-! SUPPORT. Host memory: read after write, the canonical form, and the same of runs of bytes (R63 to R65). -/

namespace Sys2Proof.Machine

/-! ### One byte -/

theorem Memory.read_eq_unlisted_of_lt {m : Memory} {a : Nat}
    (h : m.all (fun c => decide (a < c.1)) = true) : m.read a = unlistedByte := by
  induction m with
  | nil => rfl
  | cons c m ih =>
    obtain ⟨k, x⟩ := c
    simp only [List.all_cons, Bool.and_eq_true, decide_eq_true_eq] at h
    have : k ≠ a := by omega
    simp [Memory.read, this, ih h.2]

theorem Memory.wf_cons {k : Nat} {x : Byte} {m : Memory} :
    Memory.wf ((k, x) :: m) = true ↔
      x ≠ unlistedByte ∧ m.all (fun c => decide (k < c.1)) = true ∧ Memory.wf m = true := by
  simp [Memory.wf, and_assoc]

theorem Memory.all_write {m : Memory} {a : Nat} {b : Byte} {p : Host.Cell → Bool}
    (h : m.all p = true) (hp : p (a, b) = true) : (Memory.write m a b).all p = true := by
  induction m with
  | nil => simp only [Memory.write]; split <;> simp [hp]
  | cons c m ih =>
    obtain ⟨k, x⟩ := c
    simp only [List.all_cons, Bool.and_eq_true] at h
    simp only [Memory.write]
    split
    · split <;> simp_all
    · split
      · split <;> simp_all
      · simp [h.1, ih h.2]

/-- A write keeps the canonical form. -/
theorem Memory.wf_write {m : Memory} (h : Memory.wf m = true) (a : Nat) (b : Byte) :
    Memory.wf (Memory.write m a b) = true := by
  induction m with
  | nil =>
    simp only [Memory.write]
    split
    · rfl
    · simp [Memory.wf, *]
  | cons c m ih =>
    obtain ⟨k, x⟩ := c
    have hc := Memory.wf_cons.mp h
    simp only [Memory.write]
    split
    · rename_i hak
      split
      · exact h
      · rename_i hb
        refine Memory.wf_cons.mpr ⟨hb, ?_, h⟩
        simp only [List.all_cons, Bool.and_eq_true, decide_eq_true_eq, List.all_eq_true] at hc ⊢
        exact ⟨hak, fun c hcm => Nat.lt_trans hak (hc.2.1 c hcm)⟩
    · split
      · rename_i hak
        subst hak
        split
        · exact hc.2.2
        · rename_i hb
          exact Memory.wf_cons.mpr ⟨hb, hc.2.1, hc.2.2⟩
      · refine Memory.wf_cons.mpr ⟨hc.1, Memory.all_write hc.2.1 ?_, ih hc.2.2⟩
        simp only [decide_eq_true_eq]; omega

/-- Reading after writing, for memory in canonical form: the byte written, and every other byte as before. -/
theorem Memory.read_write {m : Memory} (h : Memory.wf m = true) (a : Nat) (b : Byte) (c : Nat) :
    (Memory.write m a b).read c = if a = c then b else m.read c := by
  induction m with
  | nil =>
    simp only [Memory.write]
    by_cases hb : b = unlistedByte <;> by_cases hac : a = c <;> simp [Memory.read, hb, hac]
  | cons d m ih =>
    obtain ⟨k, x⟩ := d
    have hc := Memory.wf_cons.mp h
    simp only [Memory.write]
    split
    · rename_i hak
      split
      · rename_i hb
        split
        · rename_i hac
          subst hac hb
          apply Memory.read_eq_unlisted_of_lt
          simp only [List.all_cons, Bool.and_eq_true, decide_eq_true_eq, List.all_eq_true] at hc ⊢
          exact ⟨hak, fun c hcm => Nat.lt_trans hak (hc.2.1 c hcm)⟩
        · rfl
      · simp [Memory.read]
    · split
      · rename_i hak
        subst hak
        split
        · rename_i hb
          split
          · rename_i hac
            subst hac hb
            exact Memory.read_eq_unlisted_of_lt hc.2.1
          · rename_i hac
            simp [Memory.read, hac]
        · by_cases hac : a = c <;> simp [Memory.read, hac]
      · rename_i hlt hne
        simp only [Memory.read, ih hc.2.2]
        by_cases hkc : k = c
        · have : a ≠ c := by omega
          simp [hkc, this]
        · simp [hkc]

/-! ### Runs of bytes -/

@[simp] theorem Memory.writeBytes_nil (m : Memory) (a : Nat) : Memory.writeBytes m a [] = m := rfl

@[simp] theorem Memory.writeBytes_cons (m : Memory) (a : Nat) (b : Byte) (bs : List Byte) :
    Memory.writeBytes m a (b :: bs) = Memory.writeBytes (Memory.write m a b) (a + 1) bs := rfl

theorem Memory.wf_writeBytes {m : Memory} (h : Memory.wf m = true) (a : Nat) (bs : List Byte) :
    Memory.wf (Memory.writeBytes m a bs) = true := by
  induction bs generalizing m a with
  | nil => exact h
  | cons b bs ih => exact ih (Memory.wf_write h a b) _

/-- The byte at `c` after a run of bytes was written from `a`: the one of the run that lies there, if one does. -/
theorem Memory.read_writeBytes {m : Memory} (h : Memory.wf m = true) (a : Nat) (bs : List Byte) (c : Nat) :
    (Memory.writeBytes m a bs).read c =
      if a ≤ c then (bs[c - a]?).getD (m.read c) else m.read c := by
  induction bs generalizing m a with
  | nil => simp
  | cons b bs ih =>
    rw [Memory.writeBytes_cons, ih (Memory.wf_write h a b), Memory.read_write h]
    rcases Nat.lt_trichotomy a c with hlt | heq | hgt
    · have h1 : a + 1 ≤ c := hlt
      have h2 : a ≤ c := by omega
      have h3 : a ≠ c := by omega
      have h4 : c - a = (c - (a + 1)) + 1 := by omega
      rw [if_pos h1, if_pos h2, if_neg h3, h4, List.getElem?_cons_succ]
    · subst heq
      simp
    · have h1 : ¬ a + 1 ≤ c := by omega
      have h2 : ¬ a ≤ c := by omega
      have h3 : a ≠ c := by omega
      rw [if_neg h1, if_neg h2, if_neg h3]

theorem Memory.all_writeBytes {m : Memory} {p : Host.Cell → Bool} (a : Nat) (bs : List Byte)
    (h : m.all p = true) (hp : ∀ j, j < bs.length → ∀ b, p (a + j, b) = true) :
    (Memory.writeBytes m a bs).all p = true := by
  induction bs generalizing m a with
  | nil => exact h
  | cons b bs ih =>
    refine ih _ (Memory.all_write h (hp 0 (by simp) b)) fun j hj b' => ?_
    have := hp (j + 1) (by simpa using hj) b'
    rwa [show a + (j + 1) = a + 1 + j by omega] at this

@[simp] theorem length_toBytesLE (n v : Nat) : (toBytesLE n v).length = n := by
  induction n generalizing v with
  | zero => rfl
  | succ n ih => simp [toBytesLE, ih]

theorem getElem?_toBytesLE {n v j : Nat} (h : j < n) :
    (toBytesLE n v)[j]? = some (BitVec.ofNat 8 (v / 256 ^ j)) := by
  induction n generalizing v j with
  | zero => omega
  | succ n ih =>
    cases j with
    | zero => simp [toBytesLE]
    | succ j =>
      rw [toBytesLE, List.getElem?_cons_succ, ih (by omega), Nat.div_div_eq_div_mul, Nat.pow_succ, Nat.mul_comm]

@[simp] theorem length_readBytes (m : Memory) (a n : Nat) : (m.readBytes a n).length = n := by
  induction n generalizing a with
  | zero => rfl
  | succ n ih => simp [Memory.readBytes, ih]

theorem getElem?_readBytes {m : Memory} {a n j : Nat} (h : j < n) :
    (m.readBytes a n)[j]? = some (m.read (a + j)) := by
  induction n generalizing a j with
  | zero => omega
  | succ n ih =>
    cases j with
    | zero => simp [Memory.readBytes]
    | succ j =>
      rw [Memory.readBytes, List.getElem?_cons_succ, ih (by omega)]
      congr 2; omega

theorem Memory.readBytes_congr {m m' : Memory} {a n : Nat} (h : ∀ j, j < n → m.read (a + j) = m'.read (a + j)) :
    m.readBytes a n = m'.readBytes a n := by
  apply List.ext_getElem?
  intro j
  by_cases hj : j < n
  · rw [getElem?_readBytes hj, getElem?_readBytes hj, h j hj]
  · rw [List.getElem?_eq_none (by simp; omega), List.getElem?_eq_none (by simp; omega)]

/-- The little-endian number of the little-endian image is the number, cut to its bytes (R67). -/
theorem ofBytesLE_toBytesLE (n v : Nat) : ofBytesLE (toBytesLE n v) = v % 256 ^ n := by
  induction n generalizing v with
  | zero => simp [toBytesLE, ofBytesLE, Nat.mod_one]
  | succ n ih =>
    rw [toBytesLE, ofBytesLE, ih, BitVec.toNat_ofNat, show 256 ^ (n + 1) = 256 * 256 ^ n from Nat.pow_succ', Nat.mod_mul]

/-! ### MemWrite and MemRead -/

theorem Memory.wf_writeLE {m : Memory} (h : Memory.wf m = true) (a n v : Nat) :
    Memory.wf (Memory.writeLE m a n v) = true :=
  Memory.wf_writeBytes h a _

/-- The byte at `c` after MemWrite(a, n, v) (R64). -/
theorem Memory.read_writeLE {m : Memory} (h : Memory.wf m = true) (a n v c : Nat) :
    (Memory.writeLE m a n v).read c =
      if a ≤ c ∧ c < a + n then BitVec.ofNat 8 (v / 256 ^ (c - a)) else m.read c := by
  rw [Memory.writeLE, Memory.read_writeBytes h]
  by_cases h1 : a ≤ c
  · by_cases h2 : c < a + n
    · rw [if_pos h1, if_pos ⟨h1, h2⟩, getElem?_toBytesLE (by omega)]; rfl
    · rw [if_pos h1, if_neg (by omega), List.getElem?_eq_none (by simp; omega)]; rfl
  · rw [if_neg h1, if_neg (by omega)]

theorem Memory.all_writeLE {m : Memory} {p : Host.Cell → Bool} (a n v : Nat)
    (h : m.all p = true) (hp : ∀ j, j < n → ∀ b, p (a + j, b) = true) :
    (Memory.writeLE m a n v).all p = true :=
  Memory.all_writeBytes a _ h (by simpa using hp)

/-! ### The records of a DECODE -/

theorem wf_writeRecords {m : Memory} (h : Memory.wf m = true) (base i : Nat) (rs : List Nat) :
    Memory.wf (writeRecords m base i rs) = true := by
  induction rs generalizing m i with
  | nil => exact h
  | cons r rs ih => exact ih (Memory.wf_writeLE h _ _ _) _

theorem all_writeRecords {m : Memory} {p : Host.Cell → Bool} (base i : Nat) (rs : List Nat)
    (h : m.all p = true) (hp : ∀ j, 16 * i ≤ j → j < 16 * (i + rs.length) → ∀ b, p (base + j, b) = true) :
    (writeRecords m base i rs).all p = true := by
  induction rs generalizing m i with
  | nil => exact h
  | cons r rs ih =>
    refine ih (i + 1) (Memory.all_writeLE _ _ _ h fun j hj b => ?_) fun j h1 h2 b => hp j (by omega) (by simp; omega) b
    have := hp (16 * i + j) (by omega) (by simp; omega) b
    rwa [← Nat.add_assoc] at this

/-- Byte `c` after records `i`, `i + 1`, … were written from `base` (R72, R189). -/
theorem read_writeRecords {m : Memory} (h : Memory.wf m = true) (base i : Nat) (rs : List Nat) (c : Nat) :
    (writeRecords m base i rs).read c =
      if base + 16 * i ≤ c then
        ((rs[(c - (base + 16 * i)) / 16]?).map fun r =>
          BitVec.ofNat 8 (r / 256 ^ ((c - (base + 16 * i)) % 16))).getD (m.read c)
      else m.read c := by
  induction rs generalizing m i with
  | nil => simp [writeRecords]
  | cons r rs ih =>
    rw [writeRecords, ih (Memory.wf_writeLE h _ _ _), Memory.read_writeLE h]
    by_cases h1 : base + 16 * i ≤ c
    · by_cases h2 : c < base + 16 * i + 16
      · have h3 : ¬ base + 16 * (i + 1) ≤ c := by omega
        have h4 : (c - (base + 16 * i)) / 16 = 0 := by omega
        have h5 : (c - (base + 16 * i)) % 16 = c - (base + 16 * i) := by omega
        rw [if_neg h3, if_pos ⟨h1, h2⟩, if_pos h1, h4, h5]
        simp
      · have h3 : base + 16 * (i + 1) ≤ c := by omega
        have h4 : (c - (base + 16 * i)) / 16 = (c - (base + 16 * (i + 1))) / 16 + 1 := by omega
        have h5 : (c - (base + 16 * i)) % 16 = (c - (base + 16 * (i + 1))) % 16 := by omega
        rw [if_pos h3, if_neg (by omega), if_pos h1, h4, h5, List.getElem?_cons_succ]
    · rw [if_neg (by omega), if_neg (by omega), if_neg h1]

end Sys2Proof.Machine
end

