-- ==== Sys2Proof/Laws/Codec.lean ====
section
/-! SUPPORT. The bits of the frame and of fields: what the extractor and the packer do, bit by bit (R144, R145, R147). -/

namespace Sys2Proof.Machine

/-! ### Single bits -/

theorem getLsbD_setBitOf {n : Nat} (b : BitVec n) (i : Nat) (v : Bool) (j : Nat) :
    (setBitOf b i v).getLsbD j = if i = j ∧ j < n then v else b.getLsbD j := by
  by_cases hn : j < n
  · by_cases h : i = j
    · cases v <;> simp [setBitOf, h, hn]
    · have h' : ¬ j = i := fun e => h e.symm
      cases v <;> simp [setBitOf, h, h', hn]
  · simp [BitVec.getLsbD_of_ge _ j (Nat.le_of_not_lt hn), hn]

/-- Two frames with the same bits are the same. -/
theorem frame_ext {d e : FrameData} (h : ∀ j b, j < 8 → b < 8 → getBit d (j, b) = getBit e (j, b)) : d = e := by
  apply Vector.ext
  intro j hj
  apply BitVec.eq_of_getLsbD_eq
  intro b hb
  have := h j b hj hb
  simpa [getBit, Vector.getD, hj] using this

/-- What a bit of the frame is after `D[j][b] <- v`. -/
theorem getBit_setBit (d : FrameData) (p q : Nat × Nat) (v : Bool) :
    getBit (setBit d p v) q = if p = q ∧ q.1 < 8 ∧ q.2 < 8 then v else getBit d q := by
  obtain ⟨pj, pb⟩ := p
  obtain ⟨qj, qb⟩ := q
  by_cases hq : qj < 8
  · by_cases hp : pj = qj
    · subst hp
      simp [getBit, setBit, Vector.getD, hq, getLsbD_setBitOf]
    · have : ¬ (pj = qj ∧ pb = qb) := fun h => hp h.1
      simp [getBit, setBit, Vector.getD, hq, hp]
  · simp [getBit, setBit, Vector.getD, hq]

/-! ### Positions of a field -/

theorem fits_range {s len : Nat} {ord : ByteOrder} {n : Nat} (h : fits s len ord n = true) :
    s ≤ 63 ∧ 1 ≤ len ∧ len ≤ 64 := by
  simp only [fits, Bool.and_eq_true, decide_eq_true_eq] at h
  exact ⟨h.1.1.1, h.1.1.2, h.1.2⟩

theorem fits_le {s len n : Nat} (h : fits s len .le n = true) : s + len ≤ 8 * n := by
  simp only [fits, Bool.and_eq_true, decide_eq_true_eq] at h
  exact h.2

theorem fits_be {s len n : Nat} (h : fits s len .be n = true) : msb0 s + len ≤ 8 * n := by
  simp only [fits, Bool.and_eq_true, decide_eq_true_eq] at h
  exact h.2

theorem fits_mono {s len : Nat} {ord : ByteOrder} {n m : Nat} (h : fits s len ord n = true) (hnm : n ≤ m) :
    fits s len ord m = true := by
  obtain ⟨h1, h2, h3⟩ := fits_range h
  cases ord
  · have := fits_le h
    simp only [fits, Bool.and_eq_true, decide_eq_true_eq]
    omega
  · have := fits_be h
    simp only [fits, Bool.and_eq_true, decide_eq_true_eq]
    omega

/-- Every bit of a field that fits in `n` bytes lies in bytes 0 to n-1 (R143, R144). -/
theorem bitpos_bound {s len : Nat} {ord : ByteOrder} {n k : Nat} (h : fits s len ord n = true) (hk : k < len) :
    (bitpos s len ord k).1 < n ∧ (bitpos s len ord k).2 < 8 := by
  cases ord
  · have := fits_le h
    simp only [bitpos]; omega
  · have := fits_be h
    simp only [bitpos]; omega

/-- The positions of a field are distinct (R144). -/
theorem bitpos_injective {s len : Nat} {ord : ByteOrder} {k k' : Nat} (hk : k < len) (hk' : k' < len)
    (h : bitpos s len ord k = bitpos s len ord k') : k = k' := by
  cases ord <;> simp only [bitpos, Prod.mk.injEq] at h <;> omega

/-! ### The extractor -/

theorem getLsbD_extractBits (d : FrameData) (s len : Nat) (ord : ByteOrder) (n j : Nat) :
    (extractBits d s len ord n).getLsbD j = (decide (j < n) && decide (j < 64) && getBit d (bitpos s len ord j)) := by
  induction n with
  | zero => simp [extractBits]
  | succ n ih =>
    rw [extractBits, getLsbD_setBitOf, ih]
    by_cases hj : n = j
    · subst hj
      by_cases h64 : n < 64 <;> simp [h64]
    · have : decide (j < n + 1) = decide (j < n) := by simp; omega
      rw [if_neg fun h => hj h.1, this]

/-- Bit `j` of an extracted value: the field's bit below LEN, 0 from LEN on (R145). -/
theorem getLsbD_extract (d : FrameData) (s len : Nat) (ord : ByteOrder) (hlen : len ≤ 64) (j : Nat) :
    (extract d s len ord).getLsbD j = (decide (j < len) && getBit d (bitpos s len ord j)) := by
  rw [extract, getLsbD_extractBits]
  by_cases hj : j < len
  · have : j < 64 := by omega
    simp [hj, this]
  · simp [hj]

/-! ### The packer -/

theorem getBit_packBits_of_not_pos {d : FrameData} {s len : Nat} {ord : ByteOrder} {v : Raw} {n : Nat} {p : Nat × Nat}
    (h : ∀ k, k < n → bitpos s len ord k ≠ p) : getBit (packBits d s len ord v n) p = getBit d p := by
  induction n with
  | zero => rfl
  | succ n ih =>
    rw [packBits, getBit_setBit, if_neg (fun hp => h n (by omega) hp.1), ih fun k hk => h k (by omega)]

theorem getBit_packBits_of_pos {d : FrameData} {s len : Nat} {ord : ByteOrder} {v : Raw} {n k : Nat}
    (hfit : fits s len ord 8 = true) (hk : k < n) (hn : n ≤ len) :
    getBit (packBits d s len ord v n) (bitpos s len ord k) = v.getLsbD k := by
  induction n with
  | zero => omega
  | succ n ih =>
    rw [packBits, getBit_setBit]
    by_cases hnk : n = k
    · subst hnk
      rw [if_pos ⟨rfl, bitpos_bound hfit (by omega)⟩]
    · rw [if_neg fun hp => hnk (bitpos_injective (by omega) (by omega) hp.1), ih (by omega) (by omega)]

/-- Value bit `k` of a packed field is bit `k` of the value (R147). -/
theorem getBit_packField_of_pos {d : FrameData} {s len : Nat} {ord : ByteOrder} {v : Raw} {k : Nat}
    (hfit : fits s len ord 8 = true) (hk : k < len) :
    getBit (packField d s len ord v) (bitpos s len ord k) = v.getLsbD k :=
  getBit_packBits_of_pos hfit hk (Nat.le_refl _)

/-- A bit at no position of the field is what it was (R147). -/
theorem getBit_packField_of_not_pos {d : FrameData} {s len : Nat} {ord : ByteOrder} {v : Raw} {p : Nat × Nat}
    (h : ∀ k, k < len → bitpos s len ord k ≠ p) : getBit (packField d s len ord v) p = getBit d p :=
  getBit_packBits_of_not_pos h

/-! ### The clearing of ENCODE -/

theorem getBit_clearBits (d : FrameData) (ps : List (Nat × Nat)) (p : Nat × Nat) :
    getBit (clearBits d ps) p = (getBit d p && !decide (p ∈ ps ∧ p.1 < 8 ∧ p.2 < 8)) := by
  induction ps generalizing d with
  | nil => simp [clearBits]
  | cons q ps ih =>
    have : clearBits d (q :: ps) = clearBits (setBit d q false) ps := rfl
    rw [this, ih, getBit_setBit]
    by_cases hq : q = p
    · subst hq
      by_cases hb : q.1 < 8 ∧ q.2 < 8
      · simp [hb]
      · simp only [List.mem_cons, true_or, hb, and_false, if_false, decide_false]
    · have hq' : ¬ p = q := fun h => hq h.symm
      simp [hq, hq']

end Sys2Proof.Machine
end

