-- ==== Sys2Proof/Laws/Decode.lean ====
section
/-! SUPPORT. The fields of a command word as numbers (R86, R87), and the words of the encoder as sums. -/

namespace Sys2Proof

theorem bits_eq (w : Word) (lo width : Nat) : bits w lo width = w.toNat / 2 ^ lo % 2 ^ width := by
  simp [bits, BitVec.extractLsb'_toNat, Nat.shiftRight_eq_div_pow]

theorem getLsbD_eq_div (w : Word) (i : Nat) : w.getLsbD i = decide (w.toNat / 2 ^ i % 2 = 1) := by
  rw [BitVec.getLsbD, Nat.testBit_eq_decide_div_mod_eq]

@[simp] theorem toNat_encodeFormatF (op : BitVec 4) (f : FieldDesc) :
    (encodeFormatF op f).toNat =
      op.toNat + f.start % 64 * 2 ^ 4 + f.len % 128 * 2 ^ 10 + f.order.toBit.toNat * 2 ^ 17 +
        f.signed.toNat * 2 ^ 18 := by
  have hop := op.isLt
  have hs : f.start % 64 < 64 := Nat.mod_lt _ (by decide)
  have hl : f.len % 128 < 128 := Nat.mod_lt _ (by decide)
  have ho : f.order.toBit.toNat < 2 := Bool.toNat_lt _
  have hg : f.signed.toNat < 2 := Bool.toNat_lt _
  simp only [encodeFormatF, BitVec.toNat_append, BitVec.toNat_ofNat, BitVec.toNat_ofBool]
  rw [← Nat.shiftLeft_add_eq_or_of_lt (by simpa using hop)]
  rw [← Nat.shiftLeft_add_eq_or_of_lt (by simpa using hs)]
  rw [← Nat.shiftLeft_add_eq_or_of_lt (by simpa using hl)]
  rw [← Nat.shiftLeft_add_eq_or_of_lt (by simpa using ho)]
  rw [← Nat.shiftLeft_add_eq_or_of_lt (by simpa using hg)]
  simp only [Nat.shiftLeft_eq]
  omega

@[simp] theorem toNat_encodeFormatM (op : BitVec 4) (kind : Nat) :
    (encodeFormatM op kind).toNat = op.toNat + kind % 65536 * 2 ^ 4 := by
  have hop := op.isLt
  have hk : kind % 65536 < 65536 := Nat.mod_lt _ (by decide)
  simp only [encodeFormatM, BitVec.toNat_append, BitVec.toNat_ofNat]
  rw [← Nat.shiftLeft_add_eq_or_of_lt (by simpa using hop)]
  rw [← Nat.shiftLeft_add_eq_or_of_lt (by simpa using hk)]
  simp only [Nat.shiftLeft_eq]
  omega

@[simp] theorem ByteOrder.ofBit_toBit (o : ByteOrder) : ByteOrder.ofBit o.toBit = o := by
  cases o <;> rfl

@[simp] theorem ByteOrder.toBit_ofBit (b : Bool) : (ByteOrder.ofBit b).toBit = b := by
  cases b <;> rfl

end Sys2Proof
end

