-- ==== Sys2Proof/Laws/Float.lean ====
section
/-! SUPPORT. Packing, unpacking and rounding of binary64 patterns (R170): what the fields of a packed pattern are, and the
magnitude of a rounded one. -/

namespace Sys2Proof.Machine.F64

theorem toNat_withSign (neg : Bool) {low : Nat} (h : low < 2 ^ 63) :
    (withSign neg low).toNat = low + 2 ^ 63 * neg.toNat := by
  rw [withSign, BitVec.toNat_append, BitVec.toNat_ofNat, Nat.mod_eq_of_lt h, ← Nat.shiftLeft_add_eq_or_of_lt h,
    Nat.shiftLeft_eq, BitVec.toNat_ofBool]
  ring

theorem sign_withSign (neg : Bool) {low : Nat} (h : low < 2 ^ 63) : sign (withSign neg low) = neg := by
  rw [sign, BitVec.getLsbD, Nat.testBit_eq_decide_div_mod_eq, toNat_withSign neg h]
  cases neg <;> (simp; try omega)

theorem expField_withSign (neg : Bool) {low : Nat} (h : low < 2 ^ 63) : expField (withSign neg low) = low / 2 ^ 52 := by
  rw [expField, toNat_withSign neg h]
  cases neg
  · simp; omega
  · simp; omega

theorem fraction_withSign (neg : Bool) {low : Nat} (h : low < 2 ^ 63) : fraction (withSign neg low) = low % 2 ^ 52 := by
  rw [fraction, toNat_withSign neg h]
  cases neg
  · simp
  · simp; omega

theorem infLow_eq : infLow = 2047 * 2 ^ 52 := rfl

theorem roundLow_le (m : Nat) : roundLow m ≤ infLow := by
  unfold roundLow
  simp only
  split <;> omega

theorem roundLow_lt (m : Nat) : roundLow m < 2 ^ 63 :=
  Nat.lt_of_le_of_lt (roundLow_le m) (by rw [infLow_eq]; decide)

theorem sign_round (neg : Bool) (m : Nat) : sign (round neg m) = neg :=
  sign_withSign neg (roundLow_lt m)

theorem roundLow_zero : roundLow 0 = 0 := by decide +kernel

/-- An infinity is the infinity of its sign. -/
theorem eq_inf {a : F64} (h : isInf a = true) : a = inf (sign a) := by
  unfold isInf expField fraction at h
  rw [Bool.and_eq_true, decide_eq_true_eq, decide_eq_true_eq] at h
  apply BitVec.eq_of_toNat_eq
  rw [inf, toNat_withSign _ (by rw [infLow_eq]; decide), infLow_eq]
  have := a.isLt
  have hs : (sign a).toNat = a.toNat / 2 ^ 63 := by
    rw [sign, BitVec.getLsbD, Nat.testBit_eq_decide_div_mod_eq]
    by_cases h : a.toNat / 2 ^ 63 % 2 = 1 <;>
      simp only [h, decide_true, decide_false, Bool.toNat_true, Bool.toNat_false] <;> omega
  rw [hs]
  omega

/-- Rounding never gives a NaN. -/
theorem isNaN_round (neg : Bool) (m : Nat) : isNaN (round neg m) = false := by
  have h := roundLow_le m
  rw [infLow_eq] at h
  rw [isNaN, round, expField_withSign neg (roundLow_lt m), fraction_withSign neg (roundLow_lt m)]
  simp only [Bool.and_eq_false_iff, decide_eq_false_iff_not]
  omega

theorem isNaN_zero (neg : Bool) : isNaN (zero neg) = false := by cases neg <;> decide

theorem isNaN_inf (neg : Bool) : isNaN (inf neg) = false := by cases neg <;> decide

theorem isNaN_nanMark : isNaN nanMark = true := by decide

theorem isNaN_roundInt (zeroNeg : Bool) (n : Int) : isNaN (roundInt zeroNeg n) = false := by
  unfold roundInt
  split
  · exact isNaN_zero _
  · exact isNaN_round _ _

/-! ### The quotient -/

theorem roundQuot_cases (m d : Nat) :
    (roundQuot m d = m / 2 ^ d ∧ 2 * (m % 2 ^ d) ≤ 2 ^ d ∧ (2 * (m % 2 ^ d) = 2 ^ d → m / 2 ^ d % 2 = 0)) ∨
    (roundQuot m d = m / 2 ^ d + 1 ∧ 2 ^ d ≤ 2 * (m % 2 ^ d) ∧ (2 * (m % 2 ^ d) = 2 ^ d → m / 2 ^ d % 2 = 1)) := by
  unfold roundQuot
  simp only [Nat.shiftRight_eq_div_pow]
  split <;> omega

/-- The rounded quotient is nearest among the whole numbers, and even when another is as near. -/
theorem roundQuot_nearest (m d y : Nat) :
    |(roundQuot m d * 2 ^ d : Int) - m| ≤ |(y * 2 ^ d : Int) - m| ∧
      (|(roundQuot m d * 2 ^ d : Int) - m| = |(y * 2 ^ d : Int) - m| → y ≠ roundQuot m d → roundQuot m d % 2 = 0) := by
  have hm : (m : Int) = 2 ^ d * (m / 2 ^ d : Nat) + (m % 2 ^ d : Nat) := by exact_mod_cast (Nat.div_add_mod m (2 ^ d)).symm
  have hr : m % 2 ^ d < 2 ^ d := Nat.mod_lt _ (by positivity)
  have hD : ((2 ^ d : Nat) : Int) = (2 : Int) ^ d := by push_cast; rfl
  have hc := roundQuot_cases m d
  generalize roundQuot m d = q' at *
  generalize m / 2 ^ d = q at *
  generalize m % 2 ^ d = r at *
  generalize 2 ^ d = D at *
  rw [← hD] at hm ⊢
  rw [hm]
  rcases Nat.lt_trichotomy y q with hy | rfl | hy
  · obtain ⟨e, rfl⟩ : ∃ e, q = y + 1 + e := ⟨q - y - 1, by omega⟩
    have he : (0 : Int) ≤ D * e := by positivity
    rcases hc with ⟨rfl, h1, h2⟩ | ⟨rfl, h1, h2⟩
    · have e1 : ((y + 1 + e : Nat) * D : Int) - (D * (y + 1 + e : Nat) + r) = -r := by push_cast; ring
      have e2 : ((y : Nat) * D : Int) - (D * (y + 1 + e : Nat) + r) = -(D + D * e + r) := by push_cast; ring
      rw [e1, e2, abs_neg, abs_neg, abs_of_nonneg (by positivity), abs_of_nonneg (by positivity)]
      constructor
      · omega
      · intro h3; omega
    · have e1 : ((y + 1 + e + 1 : Nat) * D : Int) - (D * (y + 1 + e : Nat) + r) = D - r := by push_cast; ring
      have e2 : ((y : Nat) * D : Int) - (D * (y + 1 + e : Nat) + r) = -(D + D * e + r) := by push_cast; ring
      rw [e1, e2, abs_neg, abs_of_nonneg (by omega), abs_of_nonneg (by positivity)]
      constructor
      · omega
      · intro h3; omega
  · have e2 : ((y : Nat) * D : Int) - (D * y + r) = -r := by ring
    rcases hc with ⟨rfl, h1, h2⟩ | ⟨rfl, h1, h2⟩
    · exact ⟨le_refl _, fun _ h => absurd rfl h⟩
    · have e1 : ((y + 1 : Nat) * D : Int) - (D * y + r) = D - r := by push_cast; ring
      rw [e1, e2, abs_neg, abs_of_nonneg (by omega), abs_of_nonneg (by positivity)]
      constructor
      · omega
      · intro h3 _; have := h2 (by omega); omega
  · obtain ⟨e, rfl⟩ : ∃ e, y = q + 1 + e := ⟨y - q - 1, by omega⟩
    have he : (0 : Int) ≤ D * e := by positivity
    have e2 : ((q + 1 + e : Nat) * D : Int) - (D * q + r) = D - r + D * e := by push_cast; ring
    rcases hc with ⟨rfl, h1, h2⟩ | ⟨rfl, h1, h2⟩
    · have e1 : ((q' : Nat) * D : Int) - (D * q' + r) = -r := by ring
      rw [e1, e2, abs_neg, abs_of_nonneg (by positivity), abs_of_nonneg (by omega)]
      constructor
      · omega
      · intro h3 _; exact h2 (by omega)
    · have e1 : ((q + 1 : Nat) * D : Int) - (D * q + r) = D - r := by push_cast; ring
      rw [e1, e2, abs_of_nonneg (by omega), abs_of_nonneg (by omega)]
      constructor
      · omega
      · intro h3 hne
        have : (D : Int) * e = 0 := by omega
        rcases Int.mul_eq_zero.mp this with h | h
        · omega
        · exfalso; apply hne; omega

/-! ### The magnitude of a rounded pattern -/

/-- How large the quotient is: below 2^53, and at least 2^52 when bits above 2^-1074 were dropped. -/
theorem dropBits_facts (m : Nat) :
    1074 ≤ dropBits m ∧ m / 2 ^ dropBits m < 2 ^ 53 ∧ (1074 < dropBits m → 2 ^ 52 ≤ m / 2 ^ dropBits m) := by
  have hd : 1074 ≤ dropBits m := Nat.le_max_left _ _
  refine ⟨hd, ?_, fun h => ?_⟩
  · have h1 : Nat.log2 m + 1 ≤ dropBits m + 53 := by unfold dropBits; omega
    rw [Nat.div_lt_iff_lt_mul (by positivity), ← Nat.pow_add]
    exact Nat.lt_of_lt_of_le Nat.lt_log2_self (Nat.pow_le_pow_right (by decide) (by omega))
  · have h1 : Nat.log2 m = dropBits m + 52 := by unfold dropBits at h ⊢; omega
    have h0 : m ≠ 0 := by rintro rfl; rw [Nat.log2_zero] at h1; omega
    rw [Nat.le_div_iff_mul_le (by positivity), ← Nat.pow_add]
    have := Nat.log2_self_le h0
    rwa [h1, Nat.add_comm] at this

/-- A rounded magnitude reaches the exponent of infinity exactly when the exact one is at least half a last place above
the largest finite number. -/
theorem overflows_iff {m D : Nat} (hD : 1074 ≤ D) (hq : m / 2 ^ D < 2 ^ 53) (hq2 : 1074 < D → 2 ^ 52 ≤ m / 2 ^ D) :
    2047 * 2 ^ 52 ≤ (D - 1074) * 2 ^ 52 + roundQuot m D ↔ (2 ^ 54 - 1) * 2 ^ (970 + 2148) ≤ m := by
  have hpos : 0 < 2 ^ D := by positivity
  have hm : 2 ^ D * (m / 2 ^ D) + m % 2 ^ D = m := Nat.div_add_mod m (2 ^ D)
  have hr : m % 2 ^ D < 2 ^ D := Nat.mod_lt _ hpos
  have hc := roundQuot_cases m D
  rcases Nat.lt_trichotomy D 3119 with h | h | h
  · have h1 : 2 ^ D ≤ 2 ^ (970 + 2148) := Nat.pow_le_pow_right (by decide) (by omega)
    constructor
    · intro hh; exfalso; rcases hc with ⟨hc, _⟩ | ⟨hc, _⟩ <;> omega
    · intro hh; exfalso
      generalize 2 ^ (970 + 2148) = K at *
      generalize 2 ^ D = P at *
      generalize m / P = q at *
      have : P * q + m % P < P * 2 ^ 53 := by
        calc P * q + m % P < P * q + P := by omega
          _ = P * (q + 1) := by ring
          _ ≤ P * 2 ^ 53 := Nat.mul_le_mul_left _ (by omega)
      have : P * 2 ^ 53 ≤ K * 2 ^ 53 := Nat.mul_le_mul_right _ h1
      omega
  · have h1 : 2 ^ D = 2 * 2 ^ (970 + 2148) := by
      rw [h, show 3119 = (970 + 2148) + 1 from rfl, Nat.pow_succ, Nat.mul_comm]
    have h2 := hq2 (by omega)
    rw [show D - 1074 = 2045 by omega]
    generalize 2 ^ (970 + 2148) = K at *
    generalize hP : 2 ^ D = P at *
    generalize hQ : m / P = q at *
    constructor
    · intro hh
      have hq' : q = 2 ^ 53 - 1 ∧ P ≤ 2 * (m % P) := by
        rcases hc with ⟨hc, _⟩ | ⟨hc, h3, _⟩
        · omega
        · exact ⟨by omega, h3⟩
      rw [hq'.1] at hm
      omega
    · intro hh
      have : q = 2 ^ 53 - 1 := by
        by_contra hne
        have : q ≤ 2 ^ 53 - 2 := by omega
        have : P * q ≤ P * (2 ^ 53 - 2) := Nat.mul_le_mul_left _ this
        omega
      subst this
      rcases hc with ⟨hc, h3, h4⟩ | ⟨hc, h3, _⟩
      · exfalso
        have := h4 (by omega)
        omega
      · omega
  · constructor
    · intro _
      have h2 := hq2 (by omega)
      have h1 : 2 ^ (970 + 2150) ≤ 2 ^ D := Nat.pow_le_pow_right (by decide) (by omega)
      have h4 : 2 ^ (970 + 2150) = 4 * 2 ^ (970 + 2148) := by rw [show 970 + 2150 = (970 + 2148) + 2 from rfl, Nat.pow_add]; omega
      generalize 2 ^ (970 + 2148) = K at *
      generalize 2 ^ D = P at *
      generalize m / P = q at *
      have : P * 2 ^ 52 ≤ P * q := Nat.mul_le_mul_left _ h2
      omega
    · intro _
      have h2 := hq2 (by omega)
      rcases hc with ⟨hc, _⟩ | ⟨hc, _⟩ <;> omega

/-- When rounding overflows. -/
theorem isInf_round (neg : Bool) (m : Nat) :
    isInf (F64.round neg m) = true ↔ (2 ^ 54 - 1) * 2 ^ (970 + 2148) ≤ m := by
  obtain ⟨h1, h2, h3⟩ := dropBits_facts m
  rw [← overflows_iff h1 h2 h3, isInf, F64.round, expField_withSign neg (roundLow_lt m),
    fraction_withSign neg (roundLow_lt m)]
  have hle := roundLow_le m
  unfold roundLow at *
  simp only [Nat.shiftLeft_eq _ 52, infLow_eq] at *
  simp only [Bool.and_eq_true, decide_eq_true_eq]
  split at hle <;> rename_i hh
  · rw [if_pos hh]; exact ⟨fun _ => hh, fun _ => by decide⟩
  · rw [if_neg hh]; omega

/-- A rounded pattern that is finite stands for the rounded quotient, in units of the last place kept. -/
theorem magnitude_round {neg : Bool} {m : Nat} (h : isFinite (round neg m) = true) :
    magnitude (round neg m) * 2 ^ 1074 = roundQuot m (dropBits m) * 2 ^ dropBits m ∧
      fraction (round neg m) % 2 = roundQuot m (dropBits m) % 2 := by
  have hlt := roundLow_lt m
  have hfin : roundLow m / 2 ^ 52 ≠ 2047 := by
    rw [isFinite, round, expField_withSign neg hlt] at h
    exact of_decide_eq_true h
  obtain ⟨h1, h2, h3⟩ := dropBits_facts m
  have hq := roundQuot_cases m (dropBits m)
  have hlow : roundLow m = (dropBits m - 1074) * 2 ^ 52 + roundQuot m (dropBits m) := by
    unfold roundLow at hfin ⊢
    simp only [Nat.shiftLeft_eq] at hfin ⊢
    split
    · rename_i hc
      rw [if_pos hc, infLow_eq] at hfin
      exact absurd (by decide) hfin
    · rfl
  rw [magnitude, round, expField_withSign neg hlt, fraction_withSign neg hlt, hlow]
  obtain ⟨e, he⟩ : ∃ e, dropBits m = 1074 + e := ⟨dropBits m - 1074, by omega⟩
  rw [he] at h2 h3 hq ⊢
  rw [Nat.add_sub_cancel_left, Nat.pow_add 2 1074 e]
  generalize roundQuot m (1074 + e) = q at *
  generalize m / 2 ^ (1074 + e) = p at *
  have hqle : q ≤ 2 ^ 53 := by omega
  have key : (if (e * 2 ^ 52 + q) / 2 ^ 52 = 0 then (e * 2 ^ 52 + q) % 2 ^ 52
      else (2 ^ 52 + (e * 2 ^ 52 + q) % 2 ^ 52) <<< ((e * 2 ^ 52 + q) / 2 ^ 52 - 1)) = q * 2 ^ e := by
    simp only [Nat.shiftLeft_eq]
    by_cases hq53 : q = 2 ^ 53
    · have a1 : (e * 2 ^ 52 + q) / 2 ^ 52 = e + 2 := by omega
      have a2 : (e * 2 ^ 52 + q) % 2 ^ 52 = 0 := by omega
      rw [a1, a2, if_neg (by omega), hq53, show e + 2 - 1 = e + 1 by omega, Nat.pow_succ]; ring
    · by_cases hq52 : 2 ^ 52 ≤ q
      · have a1 : (e * 2 ^ 52 + q) / 2 ^ 52 = e + 1 := by omega
        have a2 : (e * 2 ^ 52 + q) % 2 ^ 52 = q - 2 ^ 52 := by omega
        rw [a1, a2, if_neg (by omega), show e + 1 - 1 = e by omega, show 2 ^ 52 + (q - 2 ^ 52) = q by omega]
      · have he0 : e = 0 := by
          by_contra hne
          have := h3 (by omega)
          omega
        subst he0
        have a1 : (0 * 2 ^ 52 + q) / 2 ^ 52 = 0 := by omega
        have a2 : (0 * 2 ^ 52 + q) % 2 ^ 52 = q := by omega
        rw [a1, a2, if_pos rfl]; simp
  refine ⟨by rw [key, Nat.mul_assoc, Nat.mul_comm (2 ^ e)], by omega⟩

/-- The magnitude of a finite pattern is a whole number below 2^53 times a power of two. -/
theorem magnitude_form (x : F64) : ∃ p e, magnitude x = p * 2 ^ e ∧ p < 2 ^ 53 := by
  have hf : fraction x < 2 ^ 52 := Nat.mod_lt _ (by decide)
  unfold magnitude
  split
  · exact ⟨fraction x, 0, by simp, by omega⟩
  · exact ⟨2 ^ 52 + fraction x, expField x - 1, by rw [Nat.shiftLeft_eq], by omega⟩

/-- A pattern with a finer last place lies below every quotient of full precision. -/
theorem shifted_lt {p e u d : Nat} (hp : p < 2 ^ 53) (h : u + e < d) : p * 2 ^ e * 2 ^ u < 2 ^ 52 * 2 ^ d := by
  obtain ⟨j, rfl⟩ : ∃ j, d = u + e + 1 + j := ⟨d - (u + e + 1), by omega⟩
  calc p * 2 ^ e * 2 ^ u = p * (2 ^ u * 2 ^ e) := by ring
    _ < 2 ^ 53 * (2 ^ u * 2 ^ e) := Nat.mul_lt_mul_of_pos_right hp (by positivity)
    _ ≤ 2 ^ 53 * (2 ^ u * 2 ^ e) * 2 ^ j := Nat.le_mul_of_pos_right _ (by positivity)
    _ = 2 ^ 52 * 2 ^ (u + e + 1 + j) := by ring

/-- A rounded pattern that is finite is the nearest finite pattern, and has an even fraction when another is as near
(R170). `m` counts units of 2^-2148. -/
theorem round_nearest {neg : Bool} {m : Nat} (hr : isFinite (round neg m) = true) (y : F64) {Y : Int}
    (hY : Y = magnitude y ∨ Y = -(magnitude y : Int)) :
    |(magnitude (round neg m) : Int) * 2 ^ 1074 - m| ≤ |Y * 2 ^ 1074 - m| ∧
      (|(magnitude (round neg m) : Int) * 2 ^ 1074 - m| = |Y * 2 ^ 1074 - m| → Y ≠ magnitude (round neg m) →
        fraction (round neg m) % 2 = 0) := by
  obtain ⟨h1, h2⟩ := magnitude_round hr
  obtain ⟨d1, -, d3⟩ := dropBits_facts m
  obtain ⟨p, e, hp, hpl⟩ := magnitude_form y
  have near := roundQuot_nearest m (dropBits m)
  have hM : ((magnitude (round neg m) : Nat) : Int) * 2 ^ 1074 = (roundQuot m (dropBits m) : Int) * 2 ^ dropBits m := by
    exact_mod_cast h1
  rw [h2, hM]
  have hne : Y ≠ magnitude (round neg m) → Y * 2 ^ 1074 ≠ (roundQuot m (dropBits m) : Int) * 2 ^ dropBits m := by
    rw [← hM]
    exact fun h h' => h (mul_right_cancel₀ (pow_pos (by decide) _).ne' h')
  have strict : |(roundQuot m (dropBits m) : Int) * 2 ^ dropBits m - m| < |Y * 2 ^ 1074 - m| →
      |(roundQuot m (dropBits m) : Int) * 2 ^ dropBits m - m| ≤ |Y * 2 ^ 1074 - m| ∧
      (|(roundQuot m (dropBits m) : Int) * 2 ^ dropBits m - m| = |Y * 2 ^ 1074 - m| → Y ≠ magnitude (round neg m) →
        roundQuot m (dropBits m) % 2 = 0) :=
    fun h => ⟨h.le, fun h' => absurd h' h.ne⟩
  generalize roundQuot m (dropBits m) = q at *
  by_cases hY0 : Y < 0
  · apply strict
    refine lt_of_le_of_lt (near 0).1 ?_
    have hneg : Y * 2 ^ 1074 < 0 := mul_neg_of_neg_of_pos hY0 (pow_pos (by decide) _)
    rw [Nat.cast_zero, zero_mul, zero_sub, abs_neg, abs_of_nonneg (Int.natCast_nonneg m)]
    generalize Y * 2 ^ 1074 = Z at *
    rw [abs_of_nonpos (by omega)]
    omega
  · have hYm : Y = (p * 2 ^ e : Nat) := by omega
    by_cases hde : dropBits m ≤ 1074 + e
    · obtain ⟨j, hj⟩ : ∃ j, 1074 + e = dropBits m + j := ⟨1074 + e - dropBits m, by omega⟩
      have hz : Y * 2 ^ 1074 = ((p * 2 ^ j : Nat) : Int) * 2 ^ dropBits m := by
        have hpow : (2 : Int) ^ e * 2 ^ 1074 = 2 ^ j * 2 ^ dropBits m := by
          rw [← pow_add, ← pow_add, Nat.add_comm e, hj, Nat.add_comm]
        rw [hYm]; push_cast
        rw [mul_assoc, hpow, ← mul_assoc]
      rw [hz] at hne ⊢
      exact ⟨(near _).1, fun h hh => (near _).2 h fun h' => hne hh (by rw [h'])⟩
    · apply strict
      refine lt_of_le_of_lt (near (2 ^ 52)).1 ?_
      have hq := d3 (by omega)
      have hqm : 2 ^ 52 * 2 ^ dropBits m ≤ m := (Nat.le_div_iff_mul_le (by positivity)).mp hq
      have hlt := shifted_lt (u := 1074) hpl (by omega : 1074 + e < dropBits m)
      have hZ : Y * 2 ^ 1074 = ((p * 2 ^ e * 2 ^ 1074 : Nat) : Int) := by rw [hYm]; push_cast; rfl
      have hT : ((2 ^ 52 : Nat) : Int) * 2 ^ dropBits m = ((2 ^ 52 * 2 ^ dropBits m : Nat) : Int) := by push_cast; rfl
      rw [hZ, hT]
      generalize p * 2 ^ e * 2 ^ 1074 = Z at *
      generalize 2 ^ 52 * 2 ^ dropBits m = T at *
      rw [abs_of_nonpos (by omega), abs_of_nonpos (by omega)]
      omega

/-- The draw's NaN is a NaN, whatever the draw (R172). -/
theorem isNaN_nanOfDraw (draw : F64) : isNaN (nanOfDraw draw) = true := by
  have key : ∀ b : F64, (∀ i, i < 11 → b.getLsbD (i + 52) = true) → (∃ i, i < 52 ∧ b.getLsbD i = true) →
      isNaN b = true := by
    intro b h1 ⟨j, hj, h2⟩
    have e1 : expField b = 2047 := by
      apply Nat.eq_of_testBit_eq
      intro i
      rw [expField, Nat.testBit_mod_two_pow, Nat.testBit_div_two_pow]
      by_cases hi : i < 11
      · have h3 := h1 i hi
        rw [BitVec.getLsbD] at h3
        rw [h3, decide_eq_true hi]; interval_cases i <;> rfl
      · have h3 : Nat.testBit 2047 i = false := Nat.testBit_lt_two_pow
          (Nat.lt_of_lt_of_le (by decide : 2047 < 2 ^ 11) (Nat.pow_le_pow_right (by decide) (by omega)))
        simp [hi, h3]
    have e2 : fraction b ≠ 0 := by
      intro h0
      have h3 : (fraction b).testBit j = true := by
        rw [fraction, Nat.testBit_mod_two_pow, decide_eq_true hj, Bool.true_and]; exact h2
      rw [h0, Nat.zero_testBit] at h3; cases h3
    simp [isNaN, e1, e2]
  apply key
  · intro i hi
    have h3 : (0x7FF0000000000000#64).getLsbD (i + 52) = true := by interval_cases i <;> decide
    simp [nanOfDraw, h3]
  · by_cases hf : fraction draw = 0
    · exact ⟨0, by decide, by simp [nanOfDraw, hf]⟩
    · obtain ⟨j, hj⟩ := Nat.exists_testBit_of_ne_zero hf
      rw [fraction, Nat.testBit_mod_two_pow, Bool.and_eq_true, decide_eq_true_eq] at hj
      have hd : draw.getLsbD j = true := hj.2
      have h3 : (0x800FFFFFFFFFFFFF#64).getLsbD j = true := by
        have hj1 := hj.1
        interval_cases j <;> decide
      exact ⟨j, hj.1, by simp only [nanOfDraw, BitVec.getLsbD_or, BitVec.getLsbD_and, hd, h3]; simp⟩

end Sys2Proof.Machine.F64
end

