-- ==== Sys2Proof/Laws/Message.lean ====
section
/-! SUPPORT. What ROM_WF gives (R33), what the router answers (R115, R116), and the records of a DECODE (R188, R189). -/

namespace Sys2Proof.Machine

open Sys2Proof.Safety

/-! ### The ROM -/

theorem messageAt_eq {msgs : List MessageLayout} {k : Nat} (h : k < msgs.length) : messageAt msgs k = msgs[k] := by
  simp [messageAt, List.getD, h]

theorem messageAt_mem {msgs : List MessageLayout} {k : Nat} (h : k < msgs.length) : messageAt msgs k ∈ msgs := by
  rw [messageAt_eq h]; exact List.getElem_mem h

/-- A ROM's four well-formedness facts (R33). -/
theorem Rom.facts (r : Rom) :
    r.msgs.length ≤ 65535 ∧ (signalCounts r.msgs).sum < 2 ^ 32 ∧
      (∀ m ∈ r.msgs, messageWf m = true) ∧ keysDistinct r.mode r.msgs = true := by
  have h := r.wf
  simp only [romWf, Bool.and_eq_true, decide_eq_true_eq, List.all_eq_true] at h
  exact ⟨h.1.1.1, h.1.1.2, h.1.2, h.2⟩

/-- A well-formed message's ranges (R33 items 1 to 3). -/
theorem messageWf_facts {m : MessageLayout} (h : messageWf m = true) :
    m.id < 2 ^ 29 ∧ m.byteLength ≤ 8 ∧ m.sigs.length ≤ 65535 ∧
      ∀ g ∈ m.sigs, fits g.startBit g.bitLength g.byteOrder m.byteLength = true := by
  simp only [messageWf, Bool.and_eq_true, decide_eq_true_eq, List.all_eq_true, signalWf] at h
  exact ⟨h.1.1.1, h.1.1.2, h.1.2, fun g hg => (h.2 g hg).2⟩

theorem State.message_facts (s : State) {k : Nat} (h : k < s.plat.rom.msgs.length) :
    (messageAt s.plat.rom.msgs k).id < 2 ^ 29 ∧ (messageAt s.plat.rom.msgs k).byteLength ≤ 8 ∧
      s.countOf k ≤ 65535 ∧
      ∀ g ∈ s.signalsOf k,
        fits g.startBit g.bitLength g.byteOrder (messageAt s.plat.rom.msgs k).byteLength = true :=
  messageWf_facts ((Rom.facts s.plat.rom).2.2.1 _ (messageAt_mem h))

/-- A signal of the ROM fits in the 8 bytes of the frame. -/
theorem State.signal_fits (s : State) {k : Nat} (h : k < s.plat.rom.msgs.length) {g : SignalLayout}
    (hg : g ∈ s.signalsOf k) : fits g.startBit g.bitLength g.byteOrder 8 = true :=
  fits_mono ((s.message_facts h).2.2.2 g hg) (s.message_facts h).2.1

/-- A message's signal count is at most MAX_SIGNALS (R9). -/
theorem length_le_maxSignals {msgs : List MessageLayout} {m : MessageLayout} (h : m ∈ msgs) :
    m.sigs.length ≤ maxSignals msgs := by
  induction msgs with
  | nil => cases h
  | cons a msgs ih =>
    simp only [maxSignals, signalCounts, List.map_cons, List.foldr_cons]
    rcases List.mem_cons.mp h with rfl | h
    · exact Nat.le_max_left _ _
    · exact Nat.le_trans (ih h) (Nat.le_max_right _ _)

theorem maxSignals_le {msgs : List MessageLayout} {b : Nat} (h : ∀ m ∈ msgs, m.sigs.length ≤ b) :
    maxSignals msgs ≤ b := by
  induction msgs with
  | nil => exact Nat.zero_le _
  | cons a msgs ih =>
    simp only [maxSignals, signalCounts, List.map_cons, List.foldr_cons]
    exact Nat.max_le.mpr ⟨h a (by simp), ih fun m hm => h m (by simp [hm])⟩

/-! ### The router -/

theorem mem_indicesWhere {p : MessageLayout → Bool} {msgs : List MessageLayout} {k : Nat} :
    k ∈ indicesWhere p msgs ↔ k < msgs.length ∧ p (messageAt msgs k) = true := by
  simp [indicesWhere]

/-- At most one message has both the ID and the length: ROM_WF makes the keys distinct (R33 item 4). -/
theorem Rom.index_unique (r : Rom) {k k' : Nat} (hk : k < r.msgs.length) (hk' : k' < r.msgs.length)
    (hid : (messageAt r.msgs k).id = (messageAt r.msgs k').id)
    (hlen : (messageAt r.msgs k).byteLength = (messageAt r.msgs k').byteLength) : k = k' := by
  have h := (Rom.facts r).2.2.2
  rw [messageAt_eq hk, messageAt_eq hk'] at hid hlen
  unfold keysDistinct at h
  split at h
  · exact (List.Nodup.getElem_inj_iff (of_decide_eq_true h) (hi := by simpa) (hj := by simpa)).mp (by simpa using hid)
  · exact (List.Nodup.getElem_inj_iff (of_decide_eq_true h) (hi := by simpa) (hj := by simpa)).mp (by simp [hid, hlen])

theorem namesMessage_iff {s : State} {k : Nat} :
    namesMessage s k ↔ k ∈ withIdAndLength s.plat.rom.msgs s.frameId s.frameDlc := by
  simp [namesMessage, withIdAndLength, mem_indicesWhere]

theorem idKnown_iff {s : State} : idKnown s ↔ withId s.plat.rom.msgs s.frameId ≠ [] := by
  simp only [idKnown, ne_eq, List.eq_nil_iff_forall_not_mem, withId, mem_indicesWhere, decide_eq_true_eq]
  exact ⟨fun ⟨k, h⟩ hn => hn k h, fun h => by simpa using h⟩

theorem namesMessage_unique {s : State} {k k' : Nat} (h : namesMessage s k) (h' : namesMessage s k') : k = k' :=
  Rom.index_unique s.plat.rom h.1 h'.1 (h.2.1.trans h'.2.1.symm) (h.2.2.trans h'.2.2.symm)

theorem idKnown_of_namesMessage {s : State} {k : Nat} (h : namesMessage s k) : idKnown s :=
  ⟨k, h.1, h.2.1⟩

/-- The router answers with a message exactly when the mailbox names it (R115). -/
theorem State.routed_ok_iff {s : State} {k : Nat} : s.routed = .ok k ↔ namesMessage s k := by
  have hk : namesMessage s k → Machine.withId s.plat.rom.msgs s.frameId ≠ [] :=
    fun h => idKnown_iff.mp (idKnown_of_namesMessage h)
  rw [namesMessage_iff]
  unfold State.routed route
  by_cases hid : withId s.plat.rom.msgs s.frameId = []
  · simp only [hid, if_true]
    exact ⟨fun h => (by cases h), fun h => absurd hid (hk (namesMessage_iff.mpr h))⟩
  · rw [if_neg hid]
    cases hl : withIdAndLength s.plat.rom.msgs s.frameId s.frameDlc with
    | nil => simp
    | cons k0 rest =>
      have h0 : namesMessage s k0 := namesMessage_iff.mpr (by simp [hl])
      constructor
      · intro h; cases h; exact List.mem_cons_self
      · intro h
        rw [namesMessage_unique h0 (namesMessage_iff.mpr (hl ▸ h))]

/-- An unknown ID gives UnknownMessage whatever the length (R116). -/
theorem State.routed_unknown {s : State} (h : ¬ idKnown s) : s.routed = .error .unknownMessage := by
  have : withId s.plat.rom.msgs s.frameId = [] := by
    by_contra hc; exact h (idKnown_iff.mpr hc)
  simp [State.routed, route, this]

/-- A known ID with no message of that length gives LengthMismatch (R116). -/
theorem State.routed_mismatch {s : State} (h : idKnown s) (hn : ∀ k, ¬ namesMessage s k) :
    s.routed = .error .lengthMismatch := by
  have hid := idKnown_iff.mp h
  have hl : withIdAndLength s.plat.rom.msgs s.frameId s.frameDlc = [] := by
    rw [List.eq_nil_iff_forall_not_mem]
    exact fun k hk => hn k (namesMessage_iff.mpr hk)
  simp [State.routed, route, hid, hl]

/-- The three things the router can say. -/
theorem State.routed_cases (s : State) :
    (∃ k, namesMessage s k ∧ s.routed = .ok k) ∨
    (¬ idKnown s ∧ s.routed = .error .unknownMessage) ∨
    (idKnown s ∧ (∀ k, ¬ namesMessage s k) ∧ s.routed = .error .lengthMismatch) := by
  by_cases h : ∃ k, namesMessage s k
  · obtain ⟨k, hk⟩ := h
    exact .inl ⟨k, hk, State.routed_ok_iff.mpr hk⟩
  · have hn : ∀ k, ¬ namesMessage s k := fun k hk => h ⟨k, hk⟩
    by_cases hid : Safety.idKnown s
    · exact .inr (.inr ⟨hid, hn, State.routed_mismatch hid hn⟩)
    · exact .inr (.inl ⟨hid, State.routed_unknown hid⟩)

/-! ### The signal numbering -/

theorem sigref_lt {msgs : List MessageLayout} {k i : Nat} (hk : k < msgs.length)
    (hi : i < (messageAt msgs k).sigs.length) : sigref msgs k i < (signalCounts msgs).sum := by
  have hk' : k < (signalCounts msgs).length := by simpa [signalCounts] using hk
  have hget : (signalCounts msgs)[k] = (messageAt msgs k).sigs.length := by
    simp [signalCounts, messageAt_eq hk]
  have h1 : ((signalCounts msgs).take (k + 1)).sum = ((signalCounts msgs).take k).sum + (messageAt msgs k).sigs.length := by
    rw [List.take_succ_eq_append_getElem hk']
    simp [hget]
  have h2 : ((signalCounts msgs).take (k + 1)).sum ≤ (signalCounts msgs).sum := by
    conv_rhs => rw [← List.take_append_drop (k + 1) (signalCounts msgs), List.sum_append]
    exact Nat.le_add_right _ _
  unfold sigref
  omega

/-! ### The records -/

@[simp] theorem length_recordImages (fused : Bool) (msgs : List MessageLayout) (k draw : Nat) (d : FrameData) (i : Nat)
    (gs : List SignalLayout) : (recordImages fused msgs k draw d i gs).length = gs.length := by
  induction gs generalizing i with
  | nil => rfl
  | cons g gs ih => simp [recordImages, ih]

theorem getElem?_recordImages (fused : Bool) (msgs : List MessageLayout) (k draw : Nat) (d : FrameData) (i : Nat)
    (gs : List SignalLayout) (j : Nat) :
    (recordImages fused msgs k draw d i gs)[j]? =
      (gs[j]?).map fun g =>
        recordImage (sigref msgs k (i + j)) (decodeSignal fused (Config.freeNan (draw + (i + j))) d g) := by
  induction gs generalizing i j with
  | nil => simp [recordImages]
  | cons g gs ih =>
    cases j with
    | zero => simp [recordImages]
    | succ j =>
      rw [recordImages, List.getElem?_cons_succ, List.getElem?_cons_succ, ih]
      rw [show i + 1 + j = i + (j + 1) by omega]

@[simp] theorem State.length_decodedRecords (s : State) (k : Nat) : (s.decodedRecords k).length = s.countOf k := by
  simp [State.decodedRecords, State.countOf]

/-! ### The base address and the allocator -/

/-- What the allocator answers keeps laws 1 to 3 of R191. -/
theorem State.allocAnswer_lawful {s : State} {n a : Nat} (h : s.allocAnswer n = some a) :
    a ≠ 0 ∧ admitted s.plat.memWindow a n = true ∧ ∀ r ∈ s.liveRegions, overlaps ⟨a, n⟩ r = false := by
  unfold State.allocAnswer at h
  rw [Option.filter_eq_some_iff] at h
  simpa [State.lawfulRegion, and_assoc] using h.2

/-- An address in an admitted region lies in MEM_WINDOW and in the address space. -/
theorem admitted_inWindow {window : List Span} {a n j : Nat} (h : admitted window a n = true) (hj : j < n) :
    inWindow window (a + j) = true ∧ a + n ≤ addressSpace := by
  simp only [admitted, Bool.or_eq_true, decide_eq_true_eq, Bool.and_eq_true, List.all_eq_true, List.mem_range] at h
  rcases h with h | h
  · omega
  · exact ⟨h.2 j hj, h.1⟩

/-- The base of a DECODE's records is admitted for all of them. -/
theorem State.resultBase_admitted {s : State} {n base : Nat} (h : s.resultBase n = some base) :
    admitted s.plat.memWindow base (16 * n) = true := by
  unfold State.resultBase at h
  split at h
  · split at h
    · subst_vars; simp [admitted]
    · exact (State.allocAnswer_lawful h).2.1
  · split at h
    · cases h; assumption
    · cases h

/-- Borrowed mode (R187, R190). -/
theorem State.resultBase_borrowed {s : State} {n : Nat} (hd : s.dest ≠ 0) :
    s.resultBase n = (if admitted s.plat.memWindow s.dest.toNat (16 * n) then some s.dest.toNat else none) ∧
      s.afterResultBase n = s := by
  refine ⟨by rw [State.resultBase, if_neg hd], State.afterResultBase_of_not_consults ?_⟩
  simp only [State.consultsAllocator, hd, decide_false, Bool.false_and]

/-- Owned mode with something to allocate (R186, R190). -/
theorem State.resultBase_owned {s : State} {n : Nat} (hd : s.dest = 0) (hn : n ≠ 0) :
    s.resultBase n = s.allocAnswer (16 * n) ∧ s.afterResultBase n = s.recordAlloc (16 * n) :=
  ⟨by rw [State.resultBase, if_pos hd, if_neg hn],
    State.afterResultBase_of_consults (by simp [State.consultsAllocator, hd, hn])⟩

/-- A message of no signals asks nothing of the allocator (R191). -/
theorem State.afterResultBase_zero (s : State) : s.afterResultBase 0 = s :=
  State.afterResultBase_of_not_consults (by simp [State.consultsAllocator])

/-- `n` bytes of record `i`, from its byte `off` on, once the records were written from `base` (R188, R189). -/
theorem readLE_writeRecords {m : Memory} (hm : Memory.wf m = true) (base : Nat) {rs : List Nat} {i off n r : Nat}
    (hr : rs[i]? = some r) (ho : off + n ≤ 16) :
    Memory.readLE (writeRecords m base 0 rs) (base + 16 * i + off) n = r / 256 ^ off % 256 ^ n := by
  have : Memory.readBytes (writeRecords m base 0 rs) (base + 16 * i + off) n = toBytesLE n (r / 256 ^ off) := by
    apply List.ext_getElem?
    intro j
    by_cases hj : j < n
    · rw [getElem?_readBytes hj, getElem?_toBytesLE hj, read_writeRecords hm, if_pos (by omega)]
      have e1 : (base + 16 * i + off + j - (base + 16 * 0)) / 16 = i := by omega
      have e2 : (base + 16 * i + off + j - (base + 16 * 0)) % 16 = off + j := by omega
      rw [e1, e2, hr]
      simp [Nat.div_div_eq_div_mul, Nat.pow_add]
    · rw [List.getElem?_eq_none (by simp; omega), List.getElem?_eq_none (by simp; omega)]
  rw [Memory.readLE, this, ofBytesLE_toBytesLE]

/-! ### The raw values and the frame of an ENCODE -/

/-- When the checks of ENCODE pass (R123). -/
theorem State.encodeChecks_ok_iff {s : State} {k : Nat} : s.encodeChecks k = .ok () ↔
    k < s.plat.rom.msgs.length ∧ (s.countOf k = 0 ∨ s.src ≠ 0) ∧
      admitted s.plat.memWindow s.src.toNat (8 * s.countOf k) = true := by
  unfold State.encodeChecks
  split
  · simp; omega
  · split
    · rename_i h; simp [h.1, h.2]
    · split
      · rename_i h; simp at h; simp [h]
      · rename_i h1 h2 h3
        simp at h3
        simp only [h3, and_true, true_iff]
        exact ⟨by omega, by tauto⟩

/-- The checks of ENCODE pass (R123). -/
theorem State.encodeChecks_ok {s : State} {k : Nat} (hk : k < s.plat.rom.msgs.length)
    (hp : s.countOf k = 0 ∨ s.src ≠ 0) (ha : admitted s.plat.memWindow s.src.toNat (8 * s.countOf k) = true) :
    s.encodeChecks k = .ok () :=
  State.encodeChecks_ok_iff.mpr ⟨hk, hp, ha⟩

@[simp] theorem length_readRaws (m : Memory) (src n : Nat) : (readRaws m src n).length = n := by
  induction n with
  | zero => rfl
  | succ n ih => simp [readRaws, ih]

theorem getElem?_readRaws (m : Memory) (src : Nat) {n i : Nat} (hi : i < n) :
    (readRaws m src n)[i]? = some (BitVec.ofNat 64 (m.readLE (src + 8 * i) 8)) := by
  induction n with
  | zero => omega
  | succ n ih =>
    rw [readRaws]
    by_cases h : i < n
    · rw [List.getElem?_append_left (by simpa using h), ih h]
    · obtain rfl : i = n := by omega
      rw [List.getElem?_append_right (by simp)]; simp

theorem Memory.readLE_lt (m : Memory) (a n : Nat) : m.readLE a n < 256 ^ n := by
  have h : ∀ bs : List Byte, ofBytesLE bs < 256 ^ bs.length := by
    intro bs
    induction bs with
    | nil => simp [ofBytesLE]
    | cons b bs ih =>
      have := b.isLt
      rw [ofBytesLE, List.length_cons, Nat.pow_succ]
      omega
  simpa [Memory.readLE] using h (m.readBytes a n)

/-- Packing signals leaves a bit of none of them alone (R124). -/
theorem getBit_packSignals_of_not_pos {d : FrameData} {gs : List SignalLayout} {vs : List Raw} {p : Nat × Nat}
    (h : ∀ g ∈ gs, ¬ inSignal g p) : getBit (packSignals d gs vs) p = getBit d p := by
  induction gs generalizing d vs with
  | nil => rfl
  | cons g gs ih =>
    cases vs with
    | nil => rfl
    | cons v vs =>
      rw [packSignals, ih fun g' h' => h g' (by simp [h'])]
      exact getBit_packField_of_not_pos fun k hk e => h g (by simp) ⟨k, hk, e⟩

/-- A bit of signal `i` that no later signal holds is the bit of value `i` (R124, R128). -/
theorem getBit_packSignals_of_pos {d : FrameData} {gs : List SignalLayout} {vs : List Raw} {i : Nat} {g : SignalLayout}
    {v : Raw} {b : Nat} (hf : ∀ g ∈ gs, fits g.startBit g.bitLength g.byteOrder 8 = true) (hg : gs[i]? = some g)
    (hv : vs[i]? = some v) (hb : b < g.bitLength)
    (hl : ∀ (j : Nat) (h : SignalLayout), i < j → gs[j]? = some h →
      ¬ inSignal h (bitpos g.startBit g.bitLength g.byteOrder b)) :
    getBit (packSignals d gs vs) (bitpos g.startBit g.bitLength g.byteOrder b) = v.getLsbD b := by
  induction gs generalizing d vs i with
  | nil => simp at hg
  | cons g0 gs ih =>
    cases vs with
    | nil => simp at hv
    | cons v0 vs =>
      rw [packSignals]
      cases i with
      | zero =>
        simp only [List.getElem?_cons_zero, Option.some.injEq] at hg hv
        subst hg hv
        rw [getBit_packSignals_of_not_pos, getBit_packField_of_pos (hf g0 (by simp)) hb]
        intro h hh
        obtain ⟨j, hj⟩ := List.mem_iff_getElem?.mp hh
        exact hl (j + 1) h (by omega) (by simpa using hj)
      | succ i =>
        exact ih (fun g hg => hf g (by simp [hg])) (by simpa using hg) (by simpa using hv)
          fun j h hj hh => hl (j + 1) h (by omega) (by simpa using hh)

/-- The positions ENCODE clears (R122), for a position in the frame. -/
theorem mem_clearPositions {scope : ClearScope} {m : MessageLayout} {p : Nat × Nat} (hp : p.2 < 8) :
    p ∈ clearPositions scope m ↔
      match scope with
      | .signalBits => ∃ g ∈ m.sigs, inSignal g p
      | .declaredBytes => p.1 < m.byteLength := by
  obtain ⟨j, b⟩ := p
  cases scope
  · simp only [clearPositions, List.mem_flatMap, List.mem_map, List.mem_range, inSignal, inField]
  · simp only [clearPositions, List.mem_flatMap, List.mem_map, List.mem_range, Prod.mk.injEq]
    exact ⟨fun ⟨j', hj, b', _, h1, _⟩ => h1 ▸ hj, fun hj => ⟨j, hj, b, hp, rfl, rfl⟩⟩

end Sys2Proof.Machine
end

