-- ==== Sys2Proof/Laws/PerInstr.lean ====
section
/-! SUPPORT. The laws stated for every command, one lemma for each constructor of `Instr`. -/

namespace Sys2Proof.Laws.EncodeOpcode

/-- The number OP of a command (R94). -/
def opcode : Instr → Nat
  | .nop => 0
  | .extract _ => 1
  | .sext _ => 2
  | .pack _ => 3
  | .scale _ => 4
  | .route => 5
  | .decode => 6
  | .encode _ => 7

/-- The word of a command carries the command's number in OP, whatever its fields hold (R85, R94). -/
def Statement (i : Instr) : Prop := bits (encode i) 0 4 = opcode i

theorem formatF (op : BitVec 4) (f : FieldDesc) : bits (encodeFormatF op f) 0 4 = op.toNat := by
  have := op.isLt
  rw [bits_eq, toNat_encodeFormatF]
  omega

theorem formatM (op : BitVec 4) (kind : Nat) : bits (encodeFormatM op kind) 0 4 = op.toNat := by
  have := op.isLt
  rw [bits_eq, toNat_encodeFormatM]
  omega

theorem nop : Statement .nop := by rw [Statement, bits_eq]; decide

theorem extract (f : FieldDesc) : Statement (.extract f) := formatF 1 f

theorem sext (f : FieldDesc) : Statement (.sext f) := formatF 2 f

theorem pack (f : FieldDesc) : Statement (.pack f) := formatF 3 f

theorem scale (f : FieldDesc) : Statement (.scale f) := formatF 4 f

theorem route : Statement .route := formatM 5 0

theorem decode : Statement .decode := formatM 6 0

theorem encode (kind : Nat) : Statement (.encode kind) := formatM 7 kind

end Sys2Proof.Laws.EncodeOpcode
end

