-- ==== Sys2Proof/Laws/Reading.lean ====
section
/-! SUPPORT. The bits of the two 64-bit readings of the frame (R140, R145), and where a field stands in them. -/

namespace Sys2Proof.Machine

open Sys2Proof.Safety

theorem testBit_ofBytesLE (bs : List Byte) (i : Nat) :
    (ofBytesLE bs).testBit i = (bs.getD (i / 8) 0).getLsbD (i % 8) := by
  induction bs generalizing i with
  | nil => simp [ofBytesLE]
  | cons b bs ih =>
    rw [ofBytesLE, Nat.add_comm, show 256 = 2 ^ 8 from rfl, Nat.testBit_two_pow_mul_add _ b.isLt]
    by_cases h : i < 8
    · have h1 : i / 8 = 0 := by omega
      have h2 : i % 8 = i := by omega
      simp [h, h1, h2, BitVec.getLsbD]
    · have h1 : i / 8 = (i - 8) / 8 + 1 := by omega
      have h2 : i % 8 = (i - 8) % 8 := by omega
      rw [if_neg h, ih, h1, h2]
      simp

theorem ofBytesLE_lt (bs : List Byte) : ofBytesLE bs < 256 ^ bs.length := by
  induction bs with
  | nil => simp [ofBytesLE]
  | cons b bs ih =>
    have := b.isLt
    rw [ofBytesLE, List.length_cons, Nat.pow_succ]
    omega

/-- Bit `i` of W is the bit of linear index `i` (R140). -/
theorem testBit_littleReading (d : FrameData) (i : Nat) : (littleReading d).testBit i = getBit d (i / 8, i % 8) := by
  rw [littleReading, testBit_ofBytesLE]
  by_cases h : i / 8 < 8
  · simp [getBit, Vector.getD, List.getD, h, Vector.getElem_toList]
  · simp [getBit, Vector.getD, List.getD, h]

/-- Bit `63 - q` of V is the bit of MSB-0 index `q` (R140). -/
theorem testBit_bigReading (d : FrameData) {i : Nat} (hi : i < 64) :
    (bigReading d).testBit i = getBit d (7 - i / 8, i % 8) := by
  rw [bigReading, testBit_ofBytesLE]
  have h : i / 8 < 8 := by omega
  have h' : 7 - i / 8 < 8 := by omega
  simp [getBit, Vector.getD, List.getD, h, h']

theorem littleReading_lt (d : FrameData) : littleReading d < 2 ^ 64 := by
  have := ofBytesLE_lt d.toList
  simpa [littleReading] using this

theorem bigReading_lt (d : FrameData) : bigReading d < 2 ^ 64 := by
  have := ofBytesLE_lt d.toList.reverse
  simpa [bigReading] using this

theorem fieldReading_lt (f : FieldDesc) (d : FrameData) : fieldReading f d < 2 ^ 64 := by
  unfold fieldReading
  split
  · exact littleReading_lt d
  · exact bigReading_lt d

/-- The frame position of bit `i` of the reading in a byte order. -/
def readingPos (ord : ByteOrder) (i : Nat) : Nat × Nat :=
  match ord with
  | .le => (i / 8, i % 8)
  | .be => (7 - i / 8, i % 8)

theorem testBit_fieldReading (f : FieldDesc) (d : FrameData) {i : Nat} (hi : i < 64) :
    (fieldReading f d).testBit i = getBit d (readingPos f.order i) := by
  obtain ⟨s, len, ord, sg⟩ := f
  cases ord
  · exact testBit_littleReading d i
  · exact testBit_bigReading d hi

/-- Value bit `k` of a field that fits stands at bit `fieldShift + k` of the reading of its own byte order (R145). -/
theorem bitpos_eq_readingPos {f : FieldDesc} {k : Nat} (h : fits f.start f.len f.order 8 = true) (hk : k < f.len) :
    bitpos f.start f.len f.order k = readingPos f.order (fieldShift f + k) := by
  obtain ⟨s, len, ord, sg⟩ := f
  cases ord
  · simp [bitpos, readingPos, fieldShift]
  · have := fits_be h
    simp only [bitpos, readingPos, fieldShift, Prod.mk.injEq] at *
    omega

theorem fieldShift_add_len {f : FieldDesc} (h : fits f.start f.len f.order 8 = true) : fieldShift f + f.len ≤ 64 := by
  obtain ⟨s, len, ord, sg⟩ := f
  cases ord
  · exact fits_le h
  · have := fits_be h
    simp only [fieldShift] at *
    omega

/-- Different bits of a reading are different positions. -/
theorem readingPos_injective {ord : ByteOrder} {i j : Nat} (hi : i < 64) (hj : j < 64)
    (h : readingPos ord i = readingPos ord j) : i = j := by
  cases ord <;> simp only [readingPos, Prod.mk.injEq] at h <;> omega

end Sys2Proof.Machine
end

