-- ==== Sys2Proof/Laws/Window.lean ====
section
/-! SUPPORT. The register window: where a host access to it goes, what the 64-bit views and the frame views read back, and
the step of a host access to a register (R38 to R42). -/

namespace Sys2Proof.Machine

open Sys2Proof.Safety

/-- What the address sets of a platform satisfy (R39, R62, R70). -/
theorem Platform.addresses (p : Platform) :
    p.regBase % 4 = 0 ∧ p.regBase + 0x100 ≤ 4294967296 ∧
      ∀ t ∈ p.memWindow, t.base + t.size ≤ 4294967296 ∧ overlaps t (registerWindow p.regBase) = false := by
  have h := p.addressesOk
  simp only [addressesWf, Bool.and_eq_true, decide_eq_true_eq, List.all_eq_true, Bool.not_eq_true'] at h
  exact ⟨h.1.1, h.1.2, h.2⟩

theorem overlaps_iff {s t : Span} :
    overlaps s t = true ↔ 0 < s.size ∧ 0 < t.size ∧ s.base < t.base + t.size ∧ t.base < s.base + s.size := by
  simp [overlaps, and_assoc]

/-- An admitted region shares no byte with the register window (R70). -/
theorem admitted_not_register {p : Platform} {a n : Nat} (h : admitted p.memWindow a n = true) :
    overlaps ⟨a, n⟩ (registerWindow p.regBase) = false := by
  by_contra hc
  obtain ⟨h1, -, h2, h3⟩ := overlaps_iff.mp (by simpa using hc)
  simp only [registerWindow] at h1 h2 h3
  obtain ⟨j, hj, hj1, hj2⟩ : ∃ j, j < n ∧ p.regBase ≤ a + j ∧ a + j < p.regBase + 0x100 :=
    ⟨p.regBase - a, by omega, by omega, by omega⟩
  have hin := (admitted_inWindow h hj).1
  simp only [inWindow, List.any_eq_true, inSpan, Bool.and_eq_true, decide_eq_true_eq] at hin
  obtain ⟨t, ht, h4, h5⟩ := hin
  have hno := ((Platform.addresses p).2.2 t ht).2
  have : overlaps t (registerWindow p.regBase) = true :=
    overlaps_iff.mpr ⟨by omega, by simp [registerWindow], by simp only [registerWindow]; omega,
      by simp only [registerWindow]; omega⟩
  rw [this] at hno
  cases hno

/-- An aligned 32-bit access at a word of the window reaches the register of that word (R38, R39). -/
theorem State.target_register (s : State) (isStore : Bool) {word : Nat} (hw : word < 64) :
    s.target isStore (s.plat.regBase + 4 * word) 4 = .register (regAt word) := by
  obtain ⟨-, h2, -⟩ := Platform.addresses s.plat
  have h4 : overlaps ⟨s.plat.regBase + 4 * word, 4⟩ (registerWindow s.plat.regBase) = true :=
    overlaps_iff.mpr (by simp only [registerWindow]; omega)
  have h5 : s.plat.regBase + 4 * word - s.plat.regBase = 4 * word := by omega
  unfold State.target
  rw [if_pos h4, h5, if_pos ⟨rfl, by omega, by omega⟩, Nat.mul_div_cancel_left _ (by decide)]

theorem regAt_of_ge {word : Nat} (h : 20 ≤ word) : regAt word = .reserved := by
  simp [regAt, List.getD, h]

/-- The step of the oldest host action. -/
theorem step_of_inputs {s : State} {a : HostAction} {rest : List HostAction} (h : s.inputs = a :: rest) :
    step s = hostStep a { s with inputs := rest } := by
  simp only [step, h]

/-- The step when the host does nothing. -/
theorem step_of_idle_host {s : State} (h : s.inputs = []) : step s = blockStep s := by
  simp only [step, h]

theorem step_store_register {s : State} {word : Nat} {v : Word} {rest : List HostAction} (hw : word < 64)
    (h : s.inputs = .store (s.plat.regBase + 4 * word) 4 v.toNat :: rest) :
    step s = storeRegister (regAt word) v { s with inputs := rest } := by
  have ht := State.target_register { s with inputs := rest } true hw
  simp only at ht
  rw [step_of_inputs h]
  simp only [hostStep, hostStore, ht, BitVec.ofNat_toNat, BitVec.setWidth_eq]

/-- A store to a register that does not have a command accepted is a write to it. -/
theorem storeRegister_of_not_accepting {r : Reg} {s : State} (v : Word) (h : r ≠ .cmd ∨ s.busy = true) :
    storeRegister r v s = .next (s.regWrite r v) := by
  unfold storeRegister
  rw [if_neg]
  rintro ⟨h1, h2, -⟩
  rcases h with h | h
  · exact h h1
  · rw [h2] at h; cases h

/-- A store to CMD that has a command accepted. -/
theorem storeRegister_cmd_of_idle {s : State} (v : Word) (h : s.busy = false) :
    storeRegister .cmd v s =
      if (s.accept v).namesUngiven = true then .refused .regionNotGiven else .next (s.accept v) := by
  simp [storeRegister, State.regWrite, State.regStore, h]

/-- A store to a register that goes on is a write to it, and accepts no command that names memory not given. -/
theorem storeRegister_next {r : Reg} {v : Word} {s t : State} (h : storeRegister r v s = .next t) :
    t = s.regWrite r v ∧ (r = .cmd → s.busy = false → (s.accept v).namesUngiven = false) := by
  unfold storeRegister at h
  split at h
  · cases h
  · rename_i hc
    cases h
    exact ⟨rfl, fun h1 h2 => by simpa using fun h3 => hc ⟨h1, h2, h3⟩⟩

theorem step_load_register {s : State} {word : Nat} {rest : List HostAction} (hw : word < 64)
    (h : s.inputs = .load (s.plat.regBase + 4 * word) 4 :: rest) :
    step s = .next { s with hostData := (s.regRead (regAt word)).toNat, inputs := rest } := by
  have ht := State.target_register { s with inputs := rest } false hw
  simp only at ht
  rw [step_of_inputs h]
  simp only [hostStep, hostLoad, ht]
  cases regAt word <;> rfl

/-! ### Views -/

/-- A concatenation as a number. -/
theorem toNat_append_eq {n m : Nat} (a : BitVec n) (b : BitVec m) : (a ++ b).toNat = a.toNat * 2 ^ m + b.toNat := by
  rw [BitVec.toNat_append, ← Nat.shiftLeft_add_eq_or_of_lt b.isLt, Nat.shiftLeft_eq]

/-- A frame view as a number (R24). -/
theorem toNat_frameView (d : FrameData) (j : Nat) : (frameView d j).toNat = viewNumber d j := by
  simp only [frameView, viewNumber, toNat_append_eq]
  omega

theorem toNat_lowWord (x : Raw) : (lowWord x).toNat = x.toNat % 2 ^ 32 := by
  simp [lowWord]

theorem toNat_highWord (x : Raw) : (highWord x).toNat = x.toNat / 2 ^ 32 := by
  have := x.isLt
  simp [highWord, Nat.shiftRight_eq_div_pow]
  omega

@[simp] theorem highWord_append (a b : Word) : highWord (a ++ b) = a := by
  apply BitVec.eq_of_getLsbD_eq
  intro i hi
  rw [highWord, BitVec.getLsbD_extractLsb', BitVec.getLsbD_append, if_neg (by omega), Nat.add_sub_cancel_left]
  simp [hi]

@[simp] theorem lowWord_append (a b : Word) : lowWord (a ++ b) = b := by
  apply BitVec.eq_of_getLsbD_eq
  intro i hi
  rw [lowWord, BitVec.getLsbD_extractLsb', BitVec.getLsbD_append, if_pos (by omega), Nat.zero_add]
  simp [hi]

/-- The four bytes of a word, put together again. -/
theorem bytes_append (v : Word) :
    v.extractLsb' 24 8 ++ v.extractLsb' 16 8 ++ v.extractLsb' 8 8 ++ v.extractLsb' 0 8 = v := by
  apply BitVec.eq_of_getLsbD_eq
  intro i hi
  simp only [BitVec.getLsbD_append, BitVec.getLsbD_extractLsb']
  by_cases h1 : i < 8
  · simp [h1]
  · by_cases h2 : i - 8 < 8
    · simp only [h1, if_false, h2, if_true, decide_true, Bool.true_and]; congr 1; omega
    · by_cases h3 : i - 8 - 8 < 8
      · simp only [h1, if_false, h2, h3, if_true, decide_true, Bool.true_and]; congr 1; omega
      · have h4 : i - 8 - 8 - 8 < 8 := by omega
        simp only [h1, if_false, h2, h3, h4, decide_true, Bool.true_and]; congr 1; omega

@[simp] theorem frameView_set_low (d : FrameData) (v : Word) : frameView (setFrameView d 0 v) 0 = v := by
  conv_rhs => rw [← bytes_append v]
  simp [frameView, setFrameView, Vector.getD]

@[simp] theorem frameView_set_high (d : FrameData) (v : Word) : frameView (setFrameView d 4 v) 4 = v := by
  conv_rhs => rw [← bytes_append v]
  simp [frameView, setFrameView, Vector.getD]

@[simp] theorem frameView_high_of_set_low (d : FrameData) (v : Word) :
    frameView (setFrameView d 0 v) 4 = frameView d 4 := by
  simp [frameView, setFrameView, Vector.getD]

@[simp] theorem frameView_low_of_set_high (d : FrameData) (v : Word) :
    frameView (setFrameView d 4 v) 0 = frameView d 0 := by
  simp [frameView, setFrameView, Vector.getD]

/-! ### Registers -/

/-- Bit `i` of a byte of FRAME_DLC read as a word. -/
theorem extractLow_setWidth (v : Word) : (v.extractLsb' 0 8).setWidth 32 = v % 256#32 := by
  apply BitVec.eq_of_toNat_eq
  have := v.isLt
  simp only [BitVec.toNat_setWidth, BitVec.extractLsb'_toNat, Nat.shiftRight_zero, BitVec.toNat_umod, BitVec.toNat_ofNat]
  norm_num
  omega

/-- A store to an operand register changes no other register of the window (R38). -/
theorem State.regRead_regStore_of_ne (s : State) {r r' : Reg} (v : Word) (h : r ≠ r') (hc : r ≠ .cmd)
    (hs : r ≠ .status) : (s.regStore r v).regRead r' = s.regRead r' := by
  cases r <;> cases r' <;>
    first
    | exact absurd rfl h
    | exact absurd rfl hc
    | exact absurd rfl hs
    | simp only [State.regStore, State.regRead, State.status, State.busy, State.info, highWord_append, lowWord_append,
        frameView_high_of_set_low, frameView_low_of_set_high]

/-! ### The duties of R75 -/

theorem State.resultRegionBase_iff {s : State} {k base : Nat} :
    s.resultRegionBase k = some base ↔ resultStartsAt s k base := by
  unfold State.resultRegionBase resultStartsAt
  split <;> rename_i h
  · simp [h]
  · simp only [h, not_false_eq_true, ne_eq, true_and, false_and, or_false, Option.some.injEq]
    exact eq_comm

theorem State.runningRegion_of_decode {s : State} {w : Word} {k base : Nat} (hw : s.latch = some w)
    (hd : decode w = .ok .decode) (hk : namesMessage s k) (hb : resultStartsAt s k base) :
    s.runningRegion = some (.result, ⟨base, 16 * s.countOf k⟩) := by
  simp only [State.runningRegion, hw, Option.map_some, hd, State.routed_ok_iff.mpr hk,
    State.resultRegionBase_iff.mpr hb]

theorem State.runningRegion_of_encode {s : State} {w : Word} {k : Nat} (hw : s.latch = some w)
    (hd : decode w = .ok (.encode k)) (hk : k < s.plat.rom.msgs.length) :
    s.runningRegion = some (.source, ⟨s.src.toNat, 8 * s.countOf k⟩) := by
  simp only [State.runningRegion, hw, Option.map_some, hd, hk, if_true]

/-- A load needs only to spare the result region, and a store the source region too (R75). -/
theorem State.brokenDuty_none {s : State} {isStore : Bool} {r : Span} (hr : sparesResult s r)
    (hs : isStore = true → sparesSource s r) : s.brokenDuty isStore r = none := by
  unfold State.brokenDuty State.runningRegion
  rcases hl : s.latch with _ | w
  · rfl
  simp only [Option.map_some]
  rcases hd : decode w with e | i
  · rfl
  cases i <;> try rfl
  · rcases hk : s.routed with e | k
    · rfl
    · rcases hb : s.resultRegionBase k with _ | base
      · simp [hb]
      · simp [hb, hr w k base hl hd (State.routed_ok_iff.mp hk) (State.resultRegionBase_iff.mp hb)]
  · rename_i k
    by_cases hk : k < s.plat.rom.msgs.length
    · cases isStore
      · simp [hk]
      · simp [hk, hs rfl w k hl hd hk]
    · simp [hk]

/-- An access to admitted memory that breaks no duty reaches it. -/
theorem State.target_of_spared {s : State} {isStore : Bool} {addr n : Nat}
    (ha : admitted s.plat.memWindow addr n = true) (h : s.brokenDuty isStore ⟨addr, n⟩ = none) :
    s.target isStore addr n = .memory := by
  unfold State.target
  rw [admitted_not_register ha, if_neg (by decide), if_pos ha, h]

/-- An access to admitted memory that breaks a duty is refused under the duty's name. -/
theorem State.target_of_brokenDuty {s : State} {isStore : Bool} {addr n : Nat} {r : Refusal}
    (ha : admitted s.plat.memWindow addr n = true) (h : s.brokenDuty isStore ⟨addr, n⟩ = some r) :
    s.target isStore addr n = .refused r := by
  unfold State.target
  rw [admitted_not_register ha, if_neg (by decide), if_pos ha, h]

/-! ### The duty of R233 -/

/-- An idle block names no memory. -/
theorem State.namesUngiven_of_idle {s : State} (h : s.latch = none) : s.namesUngiven = false := by
  simp [State.namesUngiven, State.borrowedRegion, h]

/-- The running command names memory not given exactly when it would use memory the host keeps. -/
theorem State.namesUngiven_iff {s : State} :
    s.namesUngiven = true ↔ ∃ w, s.latch = some w ∧ usesWithheld s w := by
  have htouch : ∀ base n, (s.withheld.any fun kept => overlaps kept ⟨base, n⟩) = true ↔ touchesWithheld s base n := by
    simp [touchesWithheld]
  unfold State.namesUngiven State.borrowedRegion
  rcases hl : s.latch with _ | w
  · simp
  simp only [Option.map_some, Option.some.injEq, exists_eq_left']
  unfold usesWithheld
  rcases hd : decode w with e | i
  · simp
  cases i <;> try simp
  · rcases hk : s.routed with e | k
    · simp only [Bool.false_eq_true, false_iff]
      rintro ⟨k, hn, -⟩
      rw [State.routed_ok_iff.mpr hn] at hk
      cases hk
    · have hn := State.routed_ok_iff.mp hk
      have hone : ∀ k', namesMessage s k' → k' = k := fun k' h => namesMessage_unique h hn
      by_cases hz : s.dest = 0
      · simp only [hz]
        cases s.resultBase (s.countOf k) <;> simp
      · have hz' : ¬ s.dest = 0#32 := hz
        simp only [State.resultBase, hz, if_false]
        by_cases ha : admitted s.plat.memWindow s.dest.toNat (16 * s.countOf k) = true
        · simp only [ha, if_true, Option.map_some, hz', if_false, htouch]
          exact ⟨fun h => ⟨k, hn, id, ha, h⟩, fun ⟨k', h1, _, _, h2⟩ => hone k' h1 ▸ h2⟩
        · simp only [ha]
          simp only [Bool.false_eq_true, if_false, Option.map_none, hz', false_iff]
          rintro ⟨k', h1, _, h2, _⟩
          exact ha (hone k' h1 ▸ h2)
  · rename_i k
    rcases hk : s.encodeChecks k with e | ⟨⟩
    · simp only [Bool.false_eq_true, false_iff]
      rintro ⟨h1, h2, h3, -⟩
      rw [State.encodeChecks_ok_iff.mpr ⟨h1, by tauto, h3⟩] at hk
      cases hk
    · simp only [htouch]
      obtain ⟨h1, h2, h3⟩ := State.encodeChecks_ok_iff.mp hk
      exact ⟨fun h => ⟨h1, by tauto, h3, h⟩, fun h => h.2.2.2⟩

/-- Whether the running command names memory not given depends on its word, its operands and what the host keeps. -/
theorem State.namesUngiven_congr {s t : State} (hp : t.plat = s.plat) (hl : t.latch = s.latch)
    (hi : t.frameId = s.frameId) (hc : t.frameDlc = s.frameDlc) (hd : t.dest = s.dest) (hs : t.src = s.src)
    (hw : t.withheld = s.withheld) : t.namesUngiven = s.namesUngiven := by
  rw [Bool.eq_iff_iff, State.namesUngiven_iff, State.namesUngiven_iff]
  simp only [usesWithheld, touchesWithheld, namesMessage, State.countOf, State.signalsOf, hp, hl, hi, hc, hd, hs, hw]

end Sys2Proof.Machine
end

