-- ==== Sys2Proof/Laws/Step.lean ====
section
/-! SUPPORT. What one step can be, said once: every claim about all steps goes through `step_cases`. -/

namespace Sys2Proof.Machine

/-- The state with its oldest host action taken off; with none, the state itself. -/
def State.popInput (s : State) : State :=
  { s with inputs := s.inputs.tail }

theorem State.popInput_nil {s : State} (h : s.inputs = []) : s.popInput = s := by
  rw [State.popInput, show s.inputs.tail = s.inputs by rw [h]; rfl]

theorem State.popInput_cons {s : State} {a : HostAction} {rest : List HostAction} (h : s.inputs = a :: rest) :
    s.popInput = { s with inputs := rest } := by
  simp [State.popInput, h]

/-- A step of the block: idle, an illegal word, or the command in LATCH. -/
def blockMoves (s t : State) : Prop :=
  (s.latch = none ∧ t = s) ∨
  (∃ w r, s.latch = some w ∧ decode w = .error r ∧ t = s.raise .illegalCommand) ∨
  ∃ w i, s.latch = some w ∧ decode w = .ok i ∧ exec i s = .next t

theorem blockStep_cases {s t : State} (h : blockStep s = .next t) : blockMoves s t := by
  unfold blockStep at h
  split at h
  · cases h; exact .inl ⟨‹_›, rfl⟩
  · split at h
    · cases h; exact .inr (.inl ⟨_, _, ‹_›, ‹_›, rfl⟩)
    · exact .inr (.inr ⟨_, _, ‹_›, ‹_›, h⟩)

/-- Where a host access that goes on went: a register of the window, or admitted memory. -/
theorem State.target_register_iff {s : State} {isStore : Bool} {addr n : Nat} {r : Reg}
    (h : s.target isStore addr n = .register r) :
    n = 4 ∧ ∃ word, word < 64 ∧ addr = s.plat.regBase + 4 * word ∧ r = regAt word := by
  unfold State.target at h
  split at h
  · rename_i ho
    split at h
    · rename_i hf
      obtain ⟨rfl, h1, h2⟩ := hf
      obtain ⟨-, -, h3, -⟩ := overlaps_iff.mp ho
      simp only [registerWindow] at h3
      cases h
      exact ⟨rfl, (addr - s.plat.regBase) / 4, by omega, by omega, rfl⟩
    · cases h
  · split at h
    · split at h <;> cases h
    · split at h <;> cases h

theorem State.target_memory {s : State} {isStore : Bool} {addr n : Nat} (h : s.target isStore addr n = .memory) :
    admitted s.plat.memWindow addr n = true := by
  unfold State.target at h
  split at h
  · split at h <;> cases h
  · split at h
    · assumption
    · split at h <;> cases h

/-- What a step that goes on can be. -/
theorem step_cases {s t : State} (h : step s = .next t) :
    blockMoves s.popInput t ∨
    (∃ v, t = { s.popInput with hostData := v }) ∨
    (∃ word v, word < 64 ∧ s.inputs.head? = some (.store (s.plat.regBase + 4 * word) 4 v) ∧
      t = s.popInput.regWrite (regAt word) (BitVec.ofNat 32 v) ∧
      (regAt word = .cmd → s.popInput.busy = false →
        (s.popInput.accept (BitVec.ofNat 32 v)).namesUngiven = false)) ∨
    (∃ addr n v, admitted s.plat.memWindow addr n = true ∧ t = { s.popInput with mem := s.mem.writeLE addr n v }) ∨
    (∃ addr, t = { s.popInput with allocs := releaseIn addr s.allocs }) ∨
    (∃ spans, t = { s.popInput with withheld := spans } ∧ t.namesUngiven = false) ∨
    (s.inputs.head? = some .reset ∧ t = s.popInput.abandonLatched.resetRegisters) := by
  cases hi : s.inputs with
  | nil =>
    rw [step_of_idle_host hi] at h
    exact .inl (by rw [State.popInput_nil hi]; exact blockStep_cases h)
  | cons a rest =>
    rw [step_of_inputs hi, ← State.popInput_cons hi] at h
    cases a with
    | wait => exact .inl (blockStep_cases h)
    | load addr n =>
      simp only [hostStep, hostLoad] at h
      split at h <;> cases h
      · exact .inr (.inl ⟨_, rfl⟩)
      · exact .inr (.inl ⟨_, rfl⟩)
    | store addr n v =>
      simp only [hostStep, hostStore] at h
      split at h
      · obtain ⟨rfl, word, hw, rfl, rfl⟩ := State.target_register_iff ‹_›
        exact .inr (.inr (.inl ⟨word, v, hw, rfl, storeRegister_next h⟩))
      · cases h
        exact .inr (.inr (.inr (.inl ⟨addr, n, v, State.target_memory ‹_›, rfl⟩)))
      · cases h
      · cases h
    | release addr => cases h; exact .inr (.inr (.inr (.inr (.inl ⟨addr, rfl⟩))))
    | keep spans =>
      simp only [hostStep, hostKeep] at h
      split at h
      · cases h
      · cases h
        exact .inr (.inr (.inr (.inr (.inr (.inl ⟨spans, rfl, Bool.eq_false_iff.mpr ‹_›⟩)))))
    | reset => cases h; exact .inr (.inr (.inr (.inr (.inr (.inr ⟨rfl, rfl⟩)))))

/-! ### The stages of an abandoned command -/

/-- What the latched command can leave outside the registers when reset cuts it short (R227): nothing, or what a DECODE of
a routed message leaves. -/
theorem State.abandonLatched_cases (s : State) :
    s.abandonLatched = s ∨ ∃ w k, s.latch = some w ∧ decode w = .ok .decode ∧ s.routed = .ok k ∧
      s.abandonLatched = s.abandonDecode k := by
  unfold State.abandonLatched
  split
  · rename_i h
    split
    · obtain ⟨w, hw, hd⟩ := Option.map_eq_some_iff.mp h
      exact .inr ⟨w, _, hw, hd, ‹_›, rfl⟩
    · exact .inl rfl
  · exact .inl rfl

@[simp] theorem length_mixBytes (reset : Nat) (old new : Memory) (a n : Nat) :
    (mixBytes reset old new a n).length = n := by
  induction n generalizing a with
  | zero => rfl
  | succ n ih => simp [mixBytes, ih]

theorem getElem?_mixBytes (reset : Nat) (old new : Memory) {a n j : Nat} (h : j < n) :
    (mixBytes reset old new a n)[j]? =
      some (if Config.freeResetByte reset (a + j) then new.read (a + j) else old.read (a + j)) := by
  induction n generalizing a j with
  | zero => omega
  | succ n ih =>
    cases j with
    | zero => rfl
    | succ j => rw [mixBytes, List.getElem?_cons_succ, ih (by omega), show a + 1 + j = a + (j + 1) by omega]

/-- Each byte of the region is the old one or the new one, and the others are the old ones (R227). -/
theorem read_mixMemory {old : Memory} (h : Memory.wf old = true) (reset : Nat) (new : Memory) (t : Span) (c : Nat) :
    (mixMemory reset old new t).read c =
      if t.base ≤ c ∧ c < t.base + t.size ∧ Config.freeResetByte reset c = true then new.read c else old.read c := by
  rw [mixMemory, Memory.read_writeBytes h]
  by_cases h1 : t.base ≤ c
  · by_cases h2 : c < t.base + t.size
    · rw [if_pos h1, getElem?_mixBytes _ _ _ (by omega), show t.base + (c - t.base) = c by omega]
      simp [h1, h2]
    · rw [if_pos h1, List.getElem?_eq_none (by simp; omega), if_neg (by omega)]; rfl
  · rw [if_neg h1, if_neg (by omega)]

end Sys2Proof.Machine
end

