-- ==== Sys2Proof/Tests/Slice0.lean ====
section
/-! SUPPORT. The model's own tests. Expected values are those of spec/95_test_vectors.md and of the worked encodings of
R104; words are written out from the format tables of R86 to R88. Each test is about one step or one function. -/

namespace Sys2Proof.Tests

open Sys2Proof Sys2Proof.Machine Sys2Proof.Safety

-- one test after another: each test that waits for the kernel would else hold a thread of its own
set_option Elab.async false

/-! ### The example configuration of 95_test_vectors.md section 1 -/

def tenth : F64 := 0x3FB999999999999A#64
def half : F64 := 0x3FE0000000000000#64
def one : F64 := 0x3FF0000000000000#64
def minusTen : F64 := 0xC024000000000000#64

def messagesA : List MessageLayout := [
  ⟨0x7B, 6, [⟨7, 32, .be, false, tenth, 0, {}⟩, ⟨36, 9, .be, false, one, 0, {}⟩]⟩,
  ⟨0x1A0, 3, [⟨0, 12, .le, true, half, minusTen, {}⟩, ⟨12, 4, .le, false, one, 0, {}⟩, ⟨23, 8, .be, true, one, 0, {}⟩]⟩,
  ⟨0x18FF50E5, 8, [⟨0, 64, .le, false, one, 0, {}⟩]⟩,
  ⟨0x7FF, 0, []⟩]

def romA : Rom := { msgs := messagesA }

def romB : Rom where
  mode := .byLength
  msgs := messagesA ++ [⟨0x7B, 8, [⟨7, 32, .be, false, tenth, 0, {}⟩,
    ⟨33, 10, .le, false, one, 0xC044000000000000#64, {}⟩]⟩]

def platA : Platform := { rom := romA, memWindow := [⟨0x1000, 0xF000⟩], regBase := 0x40000000 }

def platB : Platform := { rom := romB, memWindow := [⟨0x1000, 0xF000⟩], regBase := 0x40000000 }

def platCleared : Platform :=
  { rom := romA, memWindow := [⟨0x1000, 0xF000⟩], regBase := 0x40000000, clearScope := .declaredBytes }

/-- Platform A with an allocator of known answers. -/
def platAlloc (answers : List (Option Nat)) : Platform := { platA with allocAnswers := answers }

/-- The reset state on a concrete platform. -/
def fresh (p : Platform) : State := { State.reset with plat := p }

/-- What `f` reads from the state an outcome goes on with. -/
def seen {α : Type} (f : State → α) : Host.Outcome State Fault Refusal → Option α
  | .next t => some (f t)
  | .fault _ => none
  | .refused _ => none

/-- Why an outcome stops the machine. -/
def stopped : Host.Outcome State Fault Refusal → Option (Fault ⊕ Refusal)
  | .next _ => none
  | .fault r => some (.inl r)
  | .refused r => some (.inr r)

/-- One step with a command word latched. -/
def run1 {α : Type} (f : State → α) (s : State) (w : Nat) : Option α :=
  seen f (step (s.withFetchWord 32 w))

/-- The frame of scenario 3. -/
def frame3 : FrameData := #v[0x3c, 0x05, 0x5f, 0xd1, 0x14, 0x50, 0x00, 0x00]

/-- A frame of section 3 or 6 in the mailbox. -/
def inbox (p : Platform) (id dlc : Nat) (d : FrameData) : State :=
  { fresh p with frameId := BitVec.ofNat 32 id, frameDlc := BitVec.ofNat 8 dlc, frameData := d }

/-- Eight equal bytes. -/
def every (b : Byte) : FrameData := Vector.replicate 8 b

/-- Memory with the raw values of scenario 3 at 0x2000, written from the bytes that section 3 lists. -/
def scenario3Memory : Memory :=
  Memory.writeBytes [] 0x2000 [0xd1, 0x5f, 0x05, 0x3c, 0, 0, 0, 0, 0x45, 0x01, 0, 0, 0, 0, 0, 0]

/-- Ready to encode scenario 3, over the given bytes. -/
def toEncode (p : Platform) (d : FrameData) : State :=
  { fresh p with mem := scenario3Memory, src := 0x2000, frameData := d }

/-- The frame of scenario 1. -/
def frame1 : FrameData := #v[0x42, 0x58, 0x7d, 0xf4, 0x0c, 0xe5, 0x00, 0x00]

/-- Scenario 1 in the mailbox, to be decoded at `dest`. -/
def toDecode (dest : Word) : State := { inbox platA 0x7B 6 frame1 with dest := dest }

/-- Scenario 5: an Owned decode of scenario 1 whose allocator answers 0x8000. -/
def toDecodeOwned : State := { toDecode 0 with plat := platAlloc [some 0x8000] }

/-- The registers of the second SCALE row of section 4. -/
def scaling : State := { fresh platA with raw := 0xFFFFFFFFFFFFF800, scale := half, offset := minusTen }

/-! ### Ill-formed terms are refused (R86, R87, R33, R39) -/

theorem test_start_64_refused : (Instr.extract ⟨64, 8, .le, false⟩).wellFormed = false := by decide
theorem test_len_128_refused : (Instr.scale ⟨0, 128, .le, false⟩).wellFormed = false := by decide
theorem test_kind_65536_refused : (Instr.encode 65536).wellFormed = false := by decide
theorem test_rom_field_outside_message_refused :
    romWf .uniqueId [⟨1, 1, [⟨1, 8, .le, false, one, 0, {}⟩]⟩] = false := by decide
theorem test_rom_be_walk_outside_message_refused :
    romWf .uniqueId [⟨1, 8, [⟨56, 2, .be, false, one, 0, {}⟩]⟩] = false := by decide
theorem test_rom_id_30_bits_refused : romWf .uniqueId [⟨2 ^ 29, 1, []⟩] = false := by decide
theorem test_rom_nine_bytes_refused : romWf .uniqueId [⟨1, 9, []⟩] = false := by decide
theorem test_rom_shared_id_refused : romWf .uniqueId [⟨1, 1, []⟩, ⟨1, 2, []⟩] = false := by decide
theorem test_rom_shared_id_by_length_accepted : romWf .byLength [⟨1, 1, []⟩, ⟨1, 2, []⟩] = true := by decide
theorem test_rom_shared_key_refused : romWf .byLength [⟨1, 1, []⟩, ⟨1, 1, []⟩] = false := by decide
theorem test_memory_in_register_window_refused : addressesWf [⟨0x400000F0, 0x100⟩] 0x40000000 = false := by decide
theorem test_unaligned_register_window_refused : addressesWf [] 0x40000002 = false := by decide
theorem test_reset_memory_canonical : Memory.wf State.reset.mem = true := by decide
theorem test_unsorted_memory_refused : Memory.wf [(2, 1), (1, 1)] = false := by decide
theorem test_zero_cell_refused : Memory.wf [(1, 0)] = false := by decide

/-! ### Words written out bit by bit from R86 to R88 -/

-- 31:19 zero, SIGNED 0, ORDER 1, LEN 0100000, START 000111, OP 0001 (R104)
theorem test_word_extract : decode 0b00000000000000101000000001110001#32 = .ok (.extract ⟨7, 32, .be, false⟩) := by decide
-- SIGNED 1, ORDER 0, LEN 0001100, START 000000, OP 0010 (R104)
theorem test_word_sext : decode 0b00000000000001000011000000000010#32 = .ok (.sext ⟨0, 12, .le, true⟩) := by decide
-- SIGNED 0, ORDER 1, LEN 0001001, START 100100, OP 0011 (R104)
theorem test_word_pack : decode 0b00000000000000100010011001000011#32 = .ok (.pack ⟨36, 9, .be, false⟩) := by decide
-- SIGNED 1, all else zero, OP 0100 (section 4, scale signed)
theorem test_word_scale : decode 0b00000000000001000000000000000100#32 = .ok (.scale ⟨0, 0, .le, true⟩) := by decide
theorem test_word_nop : decode 0b00000000000000000000000000000000#32 = .ok .nop := by decide
theorem test_word_route : decode 0b00000000000000000000000000000101#32 = .ok .route := by decide
theorem test_word_decode : decode 0b00000000000000000000000000000110#32 = .ok .decode := by decide
-- 31:20 zero, KIND 1111111111111111, OP 0111 (section 8)
theorem test_word_encode : decode 0b00000000000011111111111111110111#32 = .ok (.encode 65535) := by decide
-- START and LEN at their largest (R89, R90)
theorem test_word_largest_fields :
    decode 0b00000000000001111111111111110001#32 = .ok (.extract ⟨63, 127, .be, true⟩) := by decide
theorem test_illegal_opcode : decode 0x00000008#32 = .error .reservedOpcode := by decide
theorem test_illegal_bit_19 : decode 0x00080004#32 = .error .reservedBitsF := by decide
theorem test_illegal_bit_20 : decode 0x00100007#32 = .error .reservedBitsM := by decide
theorem test_illegal_kind : decode 0x00000016#32 = .error .kindNotZero := by decide
theorem test_illegal_nop : decode 0x00000010#32 = .error .nopNotZero := by decide
theorem test_encode_pack : encode (.pack ⟨36, 9, .be, false⟩) = 0x00022643#32 := by decide
theorem test_encode_encode : encode (.encode 4) = 0x00000047#32 := by decide
theorem test_table_word : decodeTableWord 32 0x00000017 = some (.encode 1) := by decide

/-! ### One step of each command -/

-- R110's example: NOP clears an earlier code and nothing else; OVR stays (R42)
theorem test_nop : run1 (fun t => (t.code, t.busy, t.ovr, t.msgIdx))
    { fresh platA with code := .lengthMismatch, ovr := true, msgIdx := 3 } 0 = some (.ok, false, true, 3) := by decide
-- section 5, command rows
theorem test_extract : run1 (·.raw) { fresh platA with frameData := frame3 } 0x00022641 = some 0x145 := by decide
theorem test_extract_does_not_fit :
    run1 (fun t => (t.code, t.raw)) { fresh platA with raw := 5 } 0x00020B81 = some (.illegalCommand, 5) := by decide
theorem test_sext : run1 (·.raw) { fresh platA with raw := 0xFFF } 0x00043002 = some 0xFFFFFFFFFFFFFFFF := by decide
theorem test_trunc : run1 (·.raw) { fresh platA with raw := 0x1234 } 0x00002402 = some 0x34 := by decide
theorem test_pack : run1 (·.frameData) { fresh platA with frameData := every 0xff } 0x00022643 =
    some #v[0xff, 0xff, 0xff, 0xff, 0xe0, 0x0f, 0xff, 0xff] := by decide
theorem test_pack_64_be : run1 (fun t => (t.frameData, t.raw)) { fresh platA with raw := 0x0123456789ABCDEF } 0x00030073 =
    some (#v[0x01, 0x23, 0x45, 0x67, 0x89, 0xab, 0xcd, 0xef], 0x0123456789ABCDEF) := by decide +kernel
-- section 4, command rows
theorem test_scale : run1 (fun t => (t.code, t.phys)) scaling 0x00040004 = some (.ok, 0xC090280000000000) := by
  decide +kernel
theorem test_scale_unsigned : run1 (·.phys) scaling 0x00000004 = some 0x43DFFFFFFFFFFFFF := by decide +kernel
-- section 6
theorem test_route : run1 (fun t => (t.code, t.msgIdx)) (inbox platA 0x7FF 0 frame3) 5 = some (.ok, 3) := by decide
theorem test_route_by_length : run1 (fun t => (t.code, t.msgIdx)) (inbox platB 0x7B 8 frame3) 5 = some (.ok, 4) := by
  decide
-- section 3, scenario 1: the 32 record bytes, COUNT and MSGIDX
theorem test_decode_borrowed : run1 (fun t => (t.code, t.count, t.mem.readBytes 0x1000 33)) (toDecode 0x1000) 6 =
    some (.ok, 2, [0, 0, 0, 0, 0, 0, 0, 0, 0x34, 0x33, 0x33, 0xfb, 0xcb, 0x89, 0x9a, 0x41,
      1, 0, 0, 0, 0, 0, 0, 0, 0, 0, 0, 0, 0, 0xc0, 0x69, 0x40, 0]) := by decide +kernel
-- scenario 5: the same records at the allocator's address, one Alloc of 32 bytes, HANDLE
theorem test_decode_owned : run1 (fun t => (t.handle, t.allocs, t.mem.readBytes 0x8018 8)) toDecodeOwned 6 =
    some (0x8000, [⟨32, some 0x8000, false⟩], [0, 0, 0, 0, 0, 0xc0, 0x69, 0x40]) := by decide +kernel
-- section 6, second and third ENCODE rows
theorem test_encode : run1 (fun t => (t.frameData, t.frameId, t.frameDlc, t.count)) (toEncode platA (every 0xff)) 7 =
    some (#v[0x3c, 0x05, 0x5f, 0xd1, 0xf4, 0x5f, 0xff, 0xff], 0x7B, 6, 2) := by decide +kernel
theorem test_encode_declared_bytes : run1 (·.frameData) (toEncode platCleared (every 0xff)) 7 =
    some #v[0x3c, 0x05, 0x5f, 0xd1, 0x14, 0x50, 0xff, 0xff] := by decide +kernel

/-! ### The scaler (section 4) and the codec (section 5) -/

theorem test_unfused : scaleValue false 0 3 false tenth 0xBFD3333333333333 = 0x3C90000000000000 := by decide +kernel
theorem test_fused : scaleValue true 0 3 false tenth 0xBFD3333333333333 = 0x3C80000000000000 := by decide +kernel
theorem test_overflow : scaleValue false 0 1 false 0x7FE1CCF385EBC8A0 0x7FE1CCF385EBC8A0 = 0x7FF0000000000000 := by
  decide +kernel
theorem test_ties_to_even : toF64u 0x20000000000001 = 0x4340000000000000 := by decide +kernel
theorem test_signed_minimum : toF64s 0x8000000000000000 = 0xC3E0000000000000 := by decide +kernel
theorem test_inf_minus_inf_is_nan :
    F64.isNaN (scaleValue false 0 1 false 0x7FF0000000000000 0xFFF0000000000000) = true := by decide +kernel
theorem test_negative_zero : scaleValue false 0 0 true 0xBFF0000000000000 0x8000000000000000 = 0x8000000000000000 := by
  decide +kernel
theorem test_extract_be_straddle : extract #v[0xa5, 0x3c, 0, 0, 0, 0, 0, 0x80] 1 10 .be = 0x13C := by decide
theorem test_pack_truncates : packField (every 0xff) 12 16 .le 0x12345 =
    #v[0xff, 0x5f, 0x34, 0xf2, 0xff, 0xff, 0xff, 0xff] := by decide

/-! ### Errors and priorities (section 8) -/

theorem test_illegal_word : run1 (fun t => (t.code, t.busy)) (fresh platA) 8 = some (.illegalCommand, false) := by decide
theorem test_kind_out_of_range : run1 (·.code) (fresh platA) 0x47 = some .illegalCommand := by decide
theorem test_null_argument : run1 (·.code) (fresh platA) 7 = some .nullArgument := by decide
theorem test_no_wrap : run1 (·.code) { fresh platA with src := 0xFFFFFFF8 } 7 = some .resourceFault := by decide
theorem test_lookup_before_length : run1 (·.code) (inbox platA 0x7C 2 frame3) 6 = some .unknownMessage := by decide
theorem test_length_before_window :
    run1 (·.code) { inbox platA 0x7B 2 frame3 with dest := 0x20000 } 6 = some .lengthMismatch := by decide
theorem test_id_on_32_bits : run1 (·.code) (inbox platA 0x8000007B 6 frame3) 5 = some .unknownMessage := by decide
theorem test_alloc_fail : run1 (fun t => (t.code, t.handle, t.mem)) { toDecode 0 with plat := platAlloc [none] } 6 =
    some (.resourceFault, 0, []) := by decide +kernel
theorem test_window_end : run1 (·.code) (toDecode 0xFFF0) 6 = some .resourceFault := by decide +kernel

/-! ### The register window and the host (section 8, R36 to R43, R75, R227) -/

/-- The outcome of one host action, read by `f`. -/
def act1 {α : Type} (f : State → α) (s : State) (a : HostAction) : Option α :=
  seen f (step { s with inputs := [a] })

/-- A state with a command running. -/
def running (s : State) (w : Word) : State := { s with latch := some w, cmd := w }

theorem test_info : (fresh platA).regRead .info = 0x00030004 := by decide
theorem test_accept : act1 (fun t => (t.latch, t.cmd, t.busy)) (fresh platA) (.store 0x40000000 4 6) =
    some (some 6, 6, true) := by decide
theorem test_dlc_keeps_8_bits : act1 (fun t => t.regRead .frameDlc) (fresh platA) (.store 0x40000014 4 0x106) = some 6 := by
  decide
theorem test_data_view : (inbox platA 0 0 frame3).regRead .dataLo = 0xD15F053C := by decide
theorem test_write_lost_while_busy : act1 (fun t => (t.dest, t.ovr, t.code)) (running (fresh platA) 6)
    (.store 0x40000040 4 0x1000) = some (0, true, .ok) := by decide
theorem test_ovr_cleared : act1 (·.ovr) { fresh platA with ovr := true } (.store 0x40000004 4 0x200) = some false := by
  decide
theorem test_reserved_reads_zero : act1 (·.hostData) { fresh platA with hostData := 7 } (.load 0x400000FC 4) = some 0 := by
  decide
theorem test_halfword_refused :
    stopped (step { fresh platA with inputs := [.load 0x40000000 2] }) = some (.inr .windowAccessForm) := by decide +kernel
theorem test_result_region_refused :
    stopped (step { running (toDecode 0x1000) 6 with inputs := [.load 0x101F 1] }) = some (.inr .touchesResultRegion) := by
  decide +kernel
theorem test_beside_result_region :
    act1 (·.hostData) { running (toDecode 0x1000) 6 with mem := [(0x1020, 7)] } (.load 0x1020 1) = some 7 := by
  decide +kernel
theorem test_source_store_refused :
    stopped (step { running (toEncode platA frame3) 7 with inputs := [.store 0x200F 1 0] }) = some (.inr .storesToSourceRegion) := by
  decide +kernel
theorem test_source_load : act1 (·.hostData) (running (toEncode platA frame3) 7) (.load 0x2000 4) = some 0x3C055FD1 := by
  decide +kernel
-- R75 has no condition: an ENCODE and a DECODE whose regions leave the window
theorem test_source_store_refused_of_failing_encode : stopped (step
    { running { toEncode platA frame3 with src := 0xFFF8 } 7 with inputs := [.store 0xFFF8 1 0] }) =
      some (.inr .storesToSourceRegion) := by decide +kernel
theorem test_result_region_refused_of_failing_decode :
    stopped (step { running (toDecode 0xFFF0) 6 with inputs := [.load 0xFFFF 1] }) = some (.inr .touchesResultRegion) := by
  decide +kernel
theorem test_outside_memory_window :
    stopped (step { fresh platA with inputs := [.load 0x10000 1] }) = some (.inr .hostMemoryOutsideWindow) := by decide +kernel
theorem test_beyond_address_space :
    stopped (step { fresh platA with inputs := [.store 0xFFFFFFFF 2 0] }) = some (.inl .addressBeyondSpace) := by decide +kernel
theorem test_release : act1 (·.liveRegions) { fresh platA with allocs := [⟨32, some 0x8000, false⟩] } (.release 0x8000) =
    some [] := by decide
theorem test_live_region_not_handed_out_again :
    State.allocAnswer { fresh (platAlloc [some 0x8000, some 0x801F]) with allocs := [⟨32, some 0x8000, false⟩] } 16 =
      none := by decide +kernel
-- R233, U3: the host keeps the 16 bytes after the first record of the buffer it names; beside the buffer it may
theorem test_short_buffer_refused :
    stopped (step { toDecode 0x1000 with withheld := [⟨0x1010, 16⟩], inputs := [.store 0x40000000 4 6] }) =
      some (.inr .regionNotGiven) := by decide +kernel
theorem test_whole_buffer_accepted :
    act1 (·.latch) { toDecode 0x1000 with withheld := [⟨0x1020, 16⟩] } (.store 0x40000000 4 6) = some (some 6) := by
  decide +kernel
-- U4: ENCODE of two values reads 16 bytes at 0x2000
theorem test_short_source_refused :
    stopped (step { running (toEncode platA frame3) 7 with inputs := [.keep [⟨0x200F, 1⟩]] }) =
      some (.inr .regionNotGiven) := by decide +kernel
theorem test_keep_beside_source :
    act1 (·.withheld) (running (toEncode platA frame3) 7) (.keep [⟨0x2010, 1⟩]) = some [⟨0x2010, 1⟩] := by
  decide +kernel
theorem test_reset : act1 (fun t => (t.raw, t.latch, t.mem)) { running (fresh platA) 1 with raw := 5, mem := [(0x1000, 1)] }
    .reset = some (0, none, [(0x1000, 1)]) := by decide

/-! ### Witnesses: for every statement with hypotheses, a state and operands that meet them, clause by clause -/

theorem scenario1_named : namesMessage (toDecode 0x1000) 0 := ⟨by decide, by decide, by decide⟩
theorem scenario1_named_owned : namesMessage toDecodeOwned 0 := ⟨by decide, by decide, by decide⟩
theorem empty_message_named (dest : Word) : namesMessage { inbox platA 0x7FF 0 frame3 with dest := dest } 3 :=
  ⟨by show 3 < 4; decide, by show 0x7FF = (BitVec.ofNat 32 0x7FF).toNat; decide,
    by show 0 = (BitVec.ofNat 8 0).toNat; decide⟩

theorem witness_DecodeAfterEncode :
    (Instr.extract ⟨63, 127, .be, true⟩).wellFormed = true ∧ (Instr.encode 65535).wellFormed = true := by decide
theorem witness_EncodeAfterDecode : decode 0x00028071#32 = .ok (.extract ⟨7, 32, .be, false⟩) := by decide
theorem witness_IllegalWordsRaise :
    ((fresh platA).latchWord 0x8).inputs = [] ∧ ((fresh platA).latchWord 0x8).latch = some 0x8#32 ∧
      decode 0x8#32 = .error .reservedOpcode := by decide
theorem witness_ParametersAreArguments : ∃ e, stepUnder (platAlloc []) (running (toDecode 0x1000) 6).toMachineState =
    .next e := ⟨_, rfl⟩
theorem witness_StepRunsLatchedCommand :
    (running (fresh platA) 5).latch = some 5#32 ∧ decode 5#32 = .ok .route ∧ (running (fresh platA) 5).inputs = [] ∧
      { running (fresh platA) 5 with inputs := [.wait] }.inputs = [.wait] ∧ (fresh platA).latch = none ∧
      (fresh platA).inputs = [] := by decide

/-- A state in the middle of a run: an Owned DECODE latched, a live region, a byte of memory, earlier results. -/
def midRun : State :=
  { running (toDecode 0) 6 with
    plat := platAlloc [some 0x9000, some 0x8000], mem := [(0x2000, 1)], allocs := [⟨32, some 0x9000, false⟩], count := 3,
    msgIdx := 1 }

theorem witness_StepKeepsInvariant : Inv midRun ∧ ∃ t, step midRun = .next t where
  left := {
    memoryCanonical := by decide
    memoryAdmitted := by decide
    cmdIsLatched := fun w h => Option.some.inj h
    countBounded := by decide
    msgIdxValid := .inr (by decide)
    regions := ⟨fun r hr => (List.mem_singleton.mp (hr : r ∈ [⟨0x9000, 32⟩])) ▸ ⟨by decide, by decide +kernel⟩,
      List.pairwise_singleton _ _⟩
    regionGiven := by decide +kernel }
  right := ⟨_, rfl⟩

theorem witness_RomIsNeverWritten : ∃ t, step midRun = .next t := ⟨_, rfl⟩
theorem witness_ErrorsChangeOnlyStatus :
    (∃ t, exec .route (inbox platA 0x7C 6 frame3) = .next t ∧ t.code ≠ .ok ∧ ¬ (Instr.route = .decode)) ∧
      ∃ t, exec .decode (toDecode 0x20000) = .next t ∧ t.code ≠ .ok ∧ ¬ (toDecode 0x20000).dest = 0 :=
  ⟨⟨_, rfl, by decide, by decide⟩, ⟨_, rfl, by decide +kernel, by decide⟩⟩
theorem witness_OnlyMessageCommandsTouchMemory :
    Instr.nop ≠ .decode ∧ (∀ kind, Instr.nop ≠ .encode kind) ∧ ∃ t, exec .nop midRun = .next t :=
  ⟨by decide, fun _ h => Instr.noConfusion h, _, rfl⟩
-- the first and the last value bit of the longest field
theorem witness_FieldsWalkTheFrame : (0 : Nat) < 64 ∧ 63 < 64 ∧ 0 < 63 := by decide
theorem witness_FitsMeansInsideTheBytes : 63 ≤ 63 ∧ 1 ≤ 1 ∧ 1 ≤ 64 ∧ (0 : Nat) < 1 ∧ bitpos 63 1 .be 0 = bitpos 63 1 .be 0 := by
  decide
theorem witness_OneByteFieldInBothOrders : 1 ≤ 8 ∧ 56 / 8 = (56 + 8 - 1) / 8 := by decide
theorem witness_ExtractReadsTheField :
    FieldDesc.wellFormed ⟨7, 64, .be, true⟩ = true ∧ 1 ≤ 64 ∧ fits 7 64 .be 8 = true ∧
      fits 6 64 .be 8 = false ∧ (⟨7, 0, .be, false⟩ : FieldDesc).len = 0 ∧
      64 < (⟨0, 65, .le, false⟩ : FieldDesc).len := by decide
theorem witness_SextExtendsRaw :
    FieldDesc.wellFormed ⟨0, 1, .le, true⟩ = true ∧ 1 ≤ 1 ∧ 1 ≤ 64 ∧ (⟨0, 1, .le, true⟩ : FieldDesc).signed = true ∧
      (⟨0, 64, .le, false⟩ : FieldDesc).signed = false ∧ 64 < (⟨0, 127, .le, true⟩ : FieldDesc).len := by decide
theorem witness_PackWritesTheField :
    FieldDesc.wellFormed ⟨36, 9, .be, false⟩ = true ∧ fits 36 9 .be 8 = true ∧ fits 0 64 .le 8 = true ∧
      fits 1 64 .le 8 = false := by decide
theorem witness_ExtractAndPackAreInverse : 1 ≤ 64 ∧ 64 ≤ 64 ∧ fits 0 64 .le 8 = true ∧ fits 7 64 .be 8 = true := by decide

theorem witness_DisjointFieldsAreIndependent :
    fits 0 12 .le 8 = true ∧ fits 12 4 .le 8 = true ∧ ¬ inSignal ⟨0, 12, .le, true, half, 0, {}⟩ (1, 4) ∧
      disjointSignals ⟨0, 12, .le, true, half, 0, {}⟩ ⟨12, 4, .le, false, one, 0, {}⟩ := by
  refine ⟨by decide, by decide, fun ⟨k, hk, e⟩ => ?_, fun p ⟨k, hk, e⟩ ⟨k', hk', e'⟩ => ?_⟩
  · simp only [bitpos, Prod.mk.injEq] at hk e
    omega
  · rw [← e'] at e
    simp only [bitpos, Prod.mk.injEq] at hk hk' e
    omega

-- bit 19, the lowest reserved bit, and bit 31
theorem witness_ScaleComputesPhys_illegal : (0x00080004#32).toNat % 16 = 4 ∧ (0x00080004#32).toNat / 2 ^ 19 ≠ 0 ∧
    (0x80000004#32).toNat / 2 ^ 19 ≠ 0 ∧ ((fresh platA).latchWord 0x00080004).inputs = [] ∧
    ((fresh platA).latchWord 0x00080004).latch = some 0x00080004#32 := by decide
theorem witness_ScaleComputesPhys :
    FieldDesc.wellFormed ⟨0, 0, .le, true⟩ = true ∧
      F64.isNaN (addF64 (mulF64 (toF64s 3) one) half) = false ∧
      F64.isNaN (addF64 (mulF64 (toF64s 0) (F64.inf false)) half) = true := by decide +kernel
theorem witness_SmallIntegersConvertExactly :
    (0x20000000000000#64).toNat ≤ 2 ^ 53 ∧ (0xFFE0000000000000#64).toInt.natAbs ≤ 2 ^ 53 := by decide
theorem witness_ScalerRoundsToNearestEven_convert : F64.isFinite (toF64u 0x20000000000001) = true ∧
    F64.isFinite (toF64s 0x8000000000000000) = true ∧ F64.isFinite tenth = true := by decide +kernel
theorem witness_ScalerRoundsToNearestEven_operate : F64.isFinite tenth = true ∧ F64.isFinite minusTen = true ∧
    F64.isFinite (mulF64 tenth minusTen) = true ∧ F64.isFinite (addF64 tenth minusTen) = true ∧
    F64.isFinite (fmaF64 tenth minusTen half) = true := by decide +kernel

-- the largest finite number and half its last place, a unit less, and the smallest number halved: a zero of its sign
theorem witness_ScalerOverflowsToInfinity : F64.isFinite 0x7FEFFFFFFFFFFFFF#64 = true ∧
    F64.isInf (addF64 0x7FEFFFFFFFFFFFFF#64 0x7C90000000000000#64) = true ∧
    F64.isFinite (addF64 0x7FEFFFFFFFFFFFFF#64 0x7C8FFFFFFFFFFFFF#64) = true ∧
    F64.isZero (mulF64 0x8000000000000001#64 half) = true ∧ F64.sign (mulF64 0x8000000000000001#64 half) = true := by
  decide +kernel
theorem witness_ScalerOverflowsToInfinity_operation : finiteOperation (F64.units one * F64.units minusTen)
    (mulF64 one minusTen) ∧ F64.units one * F64.units minusTen ≠ 0 :=
  ⟨.inr (.inl ⟨one, minusTen, by decide, by decide, .inl ⟨rfl, rfl⟩⟩), by decide +kernel⟩
theorem witness_ScalerSignOfZero : F64.isFinite one = true ∧ F64.isFinite 0x8000000000000000#64 = true ∧
    F64.units one * F64.units 0x8000000000000000#64 = 0 ∧ F64.units one + F64.units 0xBFF0000000000000#64 = 0 ∧
    F64.units one * F64.units minusTen + F64.units 0x4024000000000000#64 * ((1 <<< 1074 : Nat) : Int) = 0 := by
  decide +kernel
theorem witness_ScalerCarriesInfinity : F64.isNaN (mulF64 one (F64.inf true)) = false ∧
    F64.isNaN (addF64 (F64.inf true) one) = false ∧ F64.isNaN (addF64 one (F64.inf true)) = false ∧
    F64.isNaN (fmaF64 one (F64.inf true) half) = false ∧ F64.isNaN (fmaF64 one half (F64.inf false)) = false ∧
    F64.isInf (F64.inf true) = true ∧ F64.isInf (F64.inf false) = true := by decide +kernel

theorem unknown_id : ¬ idKnown (inbox platA 0x7C 6 frame3) := fun h => idKnown_iff.mp h (by decide)
theorem known_id : idKnown (inbox platA 0x7B 2 frame3) := ⟨0, by decide, by decide⟩
theorem no_message_of_length_2 : ∀ k, ¬ namesMessage (inbox platA 0x7B 2 frame3) k := fun k h => by
  have h1 := State.routed_ok_iff.mpr h
  have h2 : State.routed (inbox platA 0x7B 2 frame3) = .error .lengthMismatch := by decide
  rw [h1] at h2
  cases h2

theorem witness_RouteSelectsTheMessage : (0 : Nat) < 2 ^ 16 ∧ 65535 < 2 ^ 16 ∧ namesMessage (toDecode 0x1000) 0 ∧
    ¬ idKnown (inbox platA 0x7C 6 frame3) ∧ idKnown (inbox platA 0x7B 2 frame3) ∧
    ∀ k, ¬ namesMessage (inbox platA 0x7B 2 frame3) k :=
  ⟨by decide, by decide, scenario1_named, unknown_id, known_id, no_message_of_length_2⟩
theorem witness_UnknownMessageExactly : ¬ idKnown (inbox platA 0x7C 6 frame3) ∧ idKnown (inbox platA 0x7B 2 frame3) ∧
    (∃ t, exec .route (inbox platA 0x7B 2 frame3) = .next t) ∧ ∃ t, exec (.encode 0) (fresh platA) = .next t :=
  ⟨unknown_id, known_id, ⟨_, rfl⟩, _, rfl⟩
theorem witness_LengthMismatchExactly : idKnown (inbox platA 0x7B 2 frame3) ∧
    (∀ k, ¬ namesMessage (inbox platA 0x7B 2 frame3) k) ∧ namesMessage (toDecode 0x1000) 0 ∧
    (∃ t, exec .decode (toDecode 0x1000) = .next t) ∧ ¬ idKnown (inbox platA 0x7C 6 frame3) ∧
    ∃ t, exec .route (inbox platA 0x7C 6 frame3) = .next t :=
  ⟨known_id, no_message_of_length_2, scenario1_named, ⟨_, rfl⟩, unknown_id, _, rfl⟩
-- the first signal of the ROM, the last one, and a number in between
theorem witness_SigrefNumbersEverySignalOnce : 0 < messagesA.length ∧ 0 < (messageAt messagesA 0).sigs.length ∧
    2 < messagesA.length ∧ 0 < (messageAt messagesA 2).sigs.length ∧ 5 < (signalCounts messagesA).sum ∧ 0 < 2 := by
  decide

theorem witness_BorrowedDecodeWritesRecords : Memory.wf (toDecode 0xFFE0).mem = true ∧ namesMessage (toDecode 0xFFE0) 0 ∧
    (toDecode 0xFFE0).dest ≠ 0 ∧ admitted platA.memWindow (toDecode 0xFFE0).dest.toNat 32 = true :=
  ⟨by decide, ⟨by decide, by decide, by decide⟩, by decide, by decide +kernel⟩
theorem witness_OwnedDecodeWritesRecords : Memory.wf toDecodeOwned.mem = true ∧ namesMessage toDecodeOwned 0 ∧
    toDecodeOwned.dest = 0 ∧ toDecodeOwned.countOf 0 ≠ 0 ∧ toDecodeOwned.allocAnswer 32 = some 0x8000 :=
  ⟨by decide, scenario1_named_owned, by decide, by decide, by decide +kernel⟩
theorem witness_HandleIsWrittenOnlyByOwnedDecode :
    (∃ t, exec .decode (toDecode 0x1000) = .next t ∧ ¬ (toDecode 0x1000).dest = 0) ∧
      ∃ t, toDecodeOwned.dest = 0 ∧ exec .decode toDecodeOwned = .next t ∧ t.code = .ok :=
  ⟨⟨_, rfl, by decide⟩, _, by decide, rfl, by decide +kernel⟩
theorem witness_DecodeOfNoSignals (dest : Word) :
    namesMessage { inbox platA 0x7FF 0 frame3 with dest := dest } 3 ∧
      State.countOf { inbox platA 0x7FF 0 frame3 with dest := dest } 3 = 0 :=
  ⟨empty_message_named dest, rfl⟩
theorem witness_ResourceFaultWhenRefused_borrowed : namesMessage (toDecode 0xFFF0) 0 ∧ (toDecode 0xFFF0).dest ≠ 0 ∧
    admitted platA.memWindow (toDecode 0xFFF0).dest.toNat (16 * (toDecode 0xFFF0).countOf 0) = false :=
  ⟨⟨by decide, by decide, by decide⟩, by decide, by decide +kernel⟩
theorem witness_ResourceFaultWhenRefused_owned :
    namesMessage { toDecodeOwned with plat := platAlloc [none] } 0 ∧ toDecodeOwned.dest = 0 ∧ toDecodeOwned.countOf 0 ≠ 0 ∧
      State.allocAnswer { toDecodeOwned with plat := platAlloc [none] } 32 = none :=
  ⟨⟨by show 0 < 4; decide, by decide, by decide⟩, by decide, by decide, by decide⟩
theorem witness_ResourceFaultWhenRefused_encode : 0 < platA.rom.msgs.length ∧
    { fresh platA with src := 0xFFFFFFF8 }.src ≠ 0 ∧
    admitted platA.memWindow ({ fresh platA with src := 0xFFFFFFF8 } : State).src.toNat 16 = false := by decide +kernel

/-- The frame of scenario 1 with other bytes beyond its 6. -/
def frame1Tail : FrameData := #v[0x42, 0x58, 0x7d, 0xf4, 0x0c, 0xe5, 0xff, 0xff]

theorem witness_DecodeIgnoresBytesBeyondLength :
    (∀ k, namesMessage (toDecode 0x1000) k → ∀ j, j < (messageAt platA.rom.msgs k).byteLength →
      frame1Tail.getD j 0 = (toDecode 0x1000).frameData.getD j 0) ∧ ∃ t, exec .decode (toDecode 0x1000) = .next t := by
  refine ⟨fun k hk j hj => ?_, _, rfl⟩
  rw [namesMessage_unique hk scenario1_named] at hj
  have hj6 : j < 6 := hj
  interval_cases j <;> decide
theorem witness_OwnedAndBorrowedWriteTheSame : Memory.wf toDecodeOwned.mem = true ∧ namesMessage toDecodeOwned 0 ∧
    toDecodeOwned.dest = 0 ∧ toDecodeOwned.countOf 0 ≠ 0 ∧ toDecodeOwned.allocAnswer 32 = some 0x8000 ∧
    (0x1000#32 : Word) ≠ 0 ∧ admitted platA.memWindow (0x1000#32).toNat 32 = true ∧
    (∃ t, exec .decode toDecodeOwned = .next t) ∧ (∃ u, exec .decode { toDecodeOwned with dest := 0x1000 } = .next u) ∧
    31 < 16 * toDecodeOwned.countOf 0 :=
  ⟨by decide, scenario1_named_owned, by decide, by decide, by decide +kernel, by decide, by decide +kernel, ⟨_, rfl⟩,
    ⟨_, rfl⟩, by decide⟩

theorem witness_EncodePacksTheMessage : 4 ≤ platA.rom.msgs.length ∧ 0 < platA.rom.msgs.length ∧
    (fresh platA).countOf 0 ≠ 0 ∧ (fresh platA).src = 0 ∧ (toEncode platA frame3).src ≠ 0 ∧
    admitted platA.memWindow 0x20000 16 = false ∧
    admitted platA.memWindow (toEncode platA frame3).src.toNat 16 = true := by decide +kernel
theorem witness_EncodePacksTheMessage_bits :
    ((toEncode platA frame3).signalsOf 0)[1]? = some ⟨36, 9, .be, false, one, 0, {}⟩ ∧ 8 < 9 ∧
      (∀ j h, 1 < j → ((toEncode platA frame3).signalsOf 0)[j]? = some h → ¬ inSignal h (bitpos 36 9 .be 8)) ∧
      ∀ g ∈ (toEncode platA frame3).signalsOf 0, ¬ inSignal g (7, 7) := by
  refine ⟨by decide, by decide, fun j h hj hs => ?_, fun g hg ⟨k, hk, e⟩ => ?_⟩
  · rw [List.getElem?_eq_none (by show 2 ≤ j; omega)] at hs
    cases hs
  · rcases List.mem_cons.mp (hg : g ∈ [_, _]) with rfl | hg
    · simp only [bitpos, msb0, Prod.mk.injEq] at hk e
      omega
    · rw [List.mem_singleton] at hg
      subst hg
      simp only [bitpos, msb0, Prod.mk.injEq] at hk e
      omega
theorem witness_EncodeChecksKindThenPointer : 65535 < 2 ^ 16 ∧ platA.rom.msgs.length ≤ 4 ∧ 3 < platA.rom.msgs.length ∧
    0 < platA.rom.msgs.length ∧ (fresh platA).countOf 0 ≠ 0 ∧ (fresh platA).src = 0 ∧
    ∃ t, exec .decode (fresh platA) = .next t :=
  ⟨by decide, by decide, by decide, by decide, by decide, by decide, _, rfl⟩
theorem witness_EncodeThenDecodeRecoversRaws : Memory.wf (toEncode platA frame3).mem = true ∧
    0 < platA.rom.msgs.length ∧ { toEncode platA frame3 with dest := 0xFFE0 }.src ≠ 0 ∧
    admitted platA.memWindow (toEncode platA frame3).src.toNat (8 * (toEncode platA frame3).countOf 0) = true ∧
    { toEncode platA frame3 with dest := 0xFFE0 }.dest ≠ 0 ∧ admitted platA.memWindow 0xFFE0 32 = true ∧
    ((toEncode platA frame3).signalsOf 0).Pairwise disjointSignals := by
  refine ⟨by decide +kernel, by decide, by decide, by decide +kernel, by decide, by decide +kernel, List.pairwise_pair.mpr fun p ⟨k, hk, e⟩ ⟨k', hk', e'⟩ => ?_⟩
  rw [← e'] at e
  simp only [bitpos, msb0, Prod.mk.injEq] at hk hk' e
  omega
-- message 1, signal 0: -2048 is the smallest value of the signed 12-bit field
theorem witness_EncodeThenDecodeRecoversRaws_signed : -(2 ^ 11) ≤ (0xFFFFFFFFFFFFF800#64).toInt ∧
    (0xFFFFFFFFFFFFF800#64).toInt < 2 ^ 11 ∧ (0x1FF#64).toNat < 2 ^ 9 := by decide
theorem witness_ClearingSignalBitsIsUnobservable : messageAt messagesA 0 ∈ romA.msgs ∧
    [(1006985169 : Raw), 325].length = (messageAt messagesA 0).sigs.length := by decide

theorem witness_CommandAcceptance :
    { fresh platA with inputs := [.store 0x40000000 4 6] }.inputs = [.store platA.regBase 4 (6#32).toNat] ∧
      (fresh platA).busy = false ∧ (running (fresh platA) 6).busy = true ∧ (fresh platA).withheld = [] := by decide

/-- Scenario 1 with the last byte of its result region kept by the host. -/
def shortBuffer : State := { toDecode 0x1000 with withheld := [⟨0x101F, 1⟩] }

theorem short_buffer_uses_withheld : usesWithheld shortBuffer 6 :=
  ⟨0, .inl ⟨by decide, scenario1_named, by decide, by decide +kernel, ⟨0x101F, 1⟩, by decide, by decide⟩⟩
theorem nothing_kept_is_used (w : Word) : ¬ usesWithheld (fresh platA) w := by
  rintro ⟨k, ⟨-, -, -, -, kept, hk, -⟩ | ⟨-, -, -, -, kept, hk, -⟩⟩ <;> cases hk
theorem witness_CommandAcceptance_given : ¬ usesWithheld (fresh platA) 6 := nothing_kept_is_used 6
-- the second clause of the keeping: a command that uses the memory, one that does not, and no command
theorem nop_uses_nothing (s : State) : ¬ usesWithheld s 0 := by
  rintro ⟨k, ⟨h, -⟩ | ⟨h, -⟩⟩ <;> cases (by decide : decode (0 : Word) = .ok .nop).symm.trans h
theorem witness_CapacityIsTheHostsDuty : shortBuffer.busy = false ∧ usesWithheld shortBuffer 6 ∧
    (running shortBuffer 6).latch = some 6 ∧
    usesWithheld { running (toDecode 0x1000) 6 with withheld := [⟨0x101F, 1⟩] } 6 ∧ (fresh platA).latch = none ∧
    (running (fresh platA) 0).latch = some 0 ∧
    ¬ usesWithheld { running (fresh platA) 0 with withheld := [⟨0x101F, 1⟩] } 0 ∧
    ∃ t, exec .decode (toDecode 0x1000) = .next t :=
  ⟨by decide, short_buffer_uses_withheld, by decide, short_buffer_uses_withheld, by decide, by decide,
    nop_uses_nothing _, _, rfl⟩
theorem witness_WritesWhileBusyAreLost : 0 < 64 ∧ 17 < 64 ∧ 63 < 64 ∧ (running (fresh platA) 6).busy = true ∧
    { fresh platA with inputs := [.store 0x40000044 4 1] }.inputs = [.store (platA.regBase + 4 * 17) 4 (1#32).toNat] ∧
    { fresh platA with inputs := [.load 0x400000FC 4] }.inputs = [.load (platA.regBase + 4 * 63) 4] := by decide
theorem witness_ReadOnlyAndReservedOffsets : 2 < 64 ∧ 20 ≤ 63 ∧ (fresh platA).busy = false ∧
    { fresh platA with inputs := [.store 0x40000008 4 1] }.inputs = [.store (platA.regBase + 4 * 2) 4 (1#32).toNat] ∧
    { fresh platA with inputs := [.load 0x40000050 4] }.inputs = [.load (platA.regBase + 4 * 20) 4] := by decide
theorem witness_RegisterMapOfLoads : 0 < 64 ∧ 63 < 64 ∧ (fresh platA).busy = false ∧ (running (fresh platA) 6).busy = true ∧
    { running (fresh platA) 6 with inputs := [.load 0x40000000 4] }.inputs = [.load (platA.regBase + 4 * 0) 4] ∧
    { fresh platA with inputs := [.load 0x4000003C 4] }.inputs = [.load (platA.regBase + 4 * 15) 4] := by decide
-- the first and the last word of each run of RW registers
theorem witness_RegisterMapOfStores : (fresh platA).busy = false ∧
    { fresh platA with inputs := [.store 0x40000010 4 1] }.inputs = [.store (platA.regBase + 4 * 4) 4 (1#32).toNat] ∧
    { fresh platA with inputs := [.store 0x40000034 4 1] }.inputs = [.store (platA.regBase + 4 * 13) 4 (1#32).toNat] ∧
    { fresh platA with inputs := [.store 0x40000044 4 1] }.inputs = [.store (platA.regBase + 4 * 17) 4 (1#32).toNat] := by
  decide
-- the map of R38, registers holding distinct bytes
theorem test_register_map : windowValues { fresh platA with
      frameData := #v[1, 2, 3, 4, 5, 6, 7, 8], raw := 0x1112131415161718, phys := 0x2122232425262728 } =
    [0, 0, 0, 0, 0, 0, 0x04030201, 0x08070605, 0x15161718, 0x11121314, 0, 0, 0, 0, 0x25262728, 0x21222324, 0, 0, 0,
      0x00030004] := by decide
theorem witness_WrittenRegistersReadBack : (4 ≤ 13 ∧ 13 ≤ 13) ∧ (fresh platA).busy = false ∧
    { fresh platA with inputs := [.store 0x40000034 4 9] }.inputs = [.store (platA.regBase + 4 * 13) 4 (9#32).toNat] ∧
    63 < 64 := by decide
theorem witness_InfoDescribesTheRom : messageAt messagesA 3 ∈ platA.rom.msgs ∧ ∃ t, step midRun = .next t :=
  ⟨by decide, _, rfl⟩
theorem witness_OvrIsSticky : (∃ t, exec .nop midRun = .next t) ∧
    (∃ t, step { fresh platA with ovr := true, inputs := [.reset] } = .next t ∧ t.ovr = false) ∧
    ∃ t, step { fresh platA with ovr := true, inputs := [.store 0x40000004 4 0x200] } = .next t ∧ t.ovr = false :=
  ⟨⟨_, rfl⟩, ⟨_, rfl, by decide⟩, _, rfl, by decide⟩
-- one byte short of the window's end, and an aligned access of another width
theorem witness_WindowTakesAlignedWordsOnly : overlaps ⟨0x3FFFFFFD, 4⟩ (registerWindow platA.regBase) = true ∧
    overlaps ⟨0x400000FC, 2⟩ (registerWindow platA.regBase) = true ∧
    (∀ word, word < 64 → ¬ (4 = 4 ∧ 0x3FFFFFFD = platA.regBase + 4 * word)) ∧
    (∀ word, word < 64 → ¬ (2 = 4 ∧ 0x400000FC = platA.regBase + 4 * word)) :=
  ⟨by decide, by decide, fun word _ h => by have := h.2; simp only [platA] at this; omega, fun _ _ h => by cases h.1⟩

theorem witness_HostDutiesWhileBusy_decode : (running (toDecode 0x1000) 6).latch = some 6#32 ∧
    admitted platA.memWindow 0x101F 1 = true ∧ decode 6#32 = .ok .decode ∧
    namesMessage (running (toDecode 0x1000) 6) 0 ∧ resultStartsAt (running (toDecode 0x1000) 6) 0 0x1000 ∧
    resultStartsAt (running toDecodeOwned 6) 0 0x8000 ∧ overlaps ⟨0x101F, 1⟩ ⟨0x1000, 32⟩ = true :=
  ⟨by decide, by decide +kernel, by decide, scenario1_named, .inl ⟨by decide, by decide⟩,
    .inr ⟨by decide, by decide +kernel⟩, by decide⟩
theorem witness_HostDutiesWhileBusy_encode : (running (toEncode platA frame3) 7).latch = some 7#32 ∧
    admitted platA.memWindow 0x200F 1 = true ∧ decode 7#32 = .ok (.encode 0) ∧
    0 < (running (toEncode platA frame3) 7).plat.rom.msgs.length ∧ overlaps ⟨0x200F, 1⟩ ⟨0x2000, 16⟩ = true := by
  decide +kernel
theorem witness_ResetCutsTheCommandShort : Memory.wf midRun.mem = true ∧ (∃ t, hostStep .reset midRun = .next t) ∧
    midRun.latch = some 6#32 ∧ decode 6#32 = .ok .decode ∧ (∃ u, exec .decode midRun = .next u) ∧
    (fresh platA).latch = none ∧ (running (fresh platA) 8).latch = some 8#32 ∧
    decode 8#32 = .error .reservedOpcode ∧ ⟨0x9000, 32⟩ ∈ midRun.liveRegions :=
  ⟨by decide, ⟨_, rfl⟩, by decide, by decide, ⟨_, rfl⟩, by decide, by decide, by decide, by decide⟩
theorem witness_ResetCutsTheCommandShort_owned : midRun.latch = some 6#32 ∧ decode 6#32 = .ok .decode ∧
    namesMessage midRun 0 ∧ midRun.dest = 0 ∧ midRun.countOf 0 ≠ 0 ∧ midRun.allocAnswer 32 = some 0x8000 :=
  ⟨by decide, by decide, ⟨by decide, by decide, by decide⟩, by decide, by decide, by decide +kernel⟩
-- beside the result region of a running DECODE, and at the source region of a running ENCODE
theorem witness_HostMemoryAccesses_busy : sparesResult (running (toDecode 0x1000) 6) ⟨0x1020, 1⟩ ∧
    sparesSource (running (toDecode 0x1000) 6) ⟨0x1020, 1⟩ ∧ sparesResult (running (toEncode platA frame3) 7) ⟨0x2000, 4⟩ ∧
    ¬ sparesSource (running (toEncode platA frame3) 7) ⟨0x2000, 4⟩ := by
  refine ⟨fun w k base _ _ hk hb => ?_, fun w k hw hd _ => ?_, fun w k base hw hd _ _ => ?_, fun h => ?_⟩
  · rw [namesMessage_unique hk scenario1_named]
    rcases hb with ⟨-, rfl⟩ | ⟨h, -⟩
    · decide
    · cases (by decide : ¬ (running (toDecode 0x1000) 6).dest = 0) h
  · cases (hw : some 6#32 = some w)
    cases (by decide : decode 6#32 = .ok .decode).symm.trans hd
  · cases (hw : some 7#32 = some w)
    cases (by decide : decode 7#32 = .ok (.encode 0)).symm.trans hd
  · have := h 7 0 (by decide) (by decide) (by decide)
    revert this
    decide
theorem witness_HostMemoryAccesses : (fresh platA).latch = none ∧ admitted platA.memWindow 0xFFFF 1 = true ∧
    admitted platA.memWindow 0x10000 1 = false ∧ overlaps ⟨0x10000, 1⟩ (registerWindow platA.regBase) = false ∧
    addressSpace < 0xFFFFFFFF + 2 ∧ admitted platA.memWindow 0xFFFFFFFF 2 = false ∧
    ⟨0x9000, 32⟩ ∈ midRun.liveRegions := by decide +kernel
theorem witness_MemoryPortReadsAndWritesLittleEndian : Memory.wf scenario3Memory = true ∧ 7 < 8 ∧ 0x1FFF < 0x2000 ∧
    0x2000 + 8 ≤ 0x2008 ∧ 2 ^ 64 - 1 < 2 ^ (8 * 8) := by decide +kernel

end Sys2Proof.Tests
end

section
/-! PROOFS of the family 10_state: what commands, steps and reset do to the registers the host sees (R33 to R45). -/

namespace Sys2Proof.Machine

open Sys2Proof.Safety

/-! ### The frame of a command -/

theorem frame_refl (s : State) : sameOperands s s ∧ sameEnvironment s s :=
  ⟨⟨rfl, rfl, rfl, rfl, rfl, rfl⟩, rfl, rfl, rfl, rfl, rfl⟩

/-- `t` is a state in which a command begun in `s` has finished: BUSY is 0, and what no command writes is kept (R21, R34,
R42, R100). -/
def FinishedFrom (s t : State) : Prop :=
  t.busy = false ∧ sameOperands s t ∧ sameEnvironment s t

theorem finishedFrom_finish {s u : State} (c : Code) (h : sameOperands s u ∧ sameEnvironment s u) :
    FinishedFrom s (u.finish c) :=
  ⟨rfl, h⟩

theorem finishedFrom_raise (s : State) (c : Code) : FinishedFrom s (s.raise c) :=
  finishedFrom_finish c (frame_refl s)

/-- A command that checks its field first and raises when the check fails (R203). -/
theorem finishedFrom_checked {s u : State} {b : Bool} {c e : Code} (h : FinishedFrom s (u.finish c)) :
    FinishedFrom s (if b then u.finish c else s.raise e) := by
  split
  · exact h
  · exact finishedFrom_raise s e

theorem finishedFrom_decodeMessage (s : State) (k : Nat) : FinishedFrom s (s.decodeMessage k) := by
  unfold State.decodeMessage
  split <;> exact finishedFrom_finish _ (by simp [sameOperands, sameEnvironment])

/-- Every command finishes, and keeps what no command writes. -/
theorem exec_finishes (i : Instr) (s : State) : ∃ t, exec i s = .next t ∧ FinishedFrom s t := by
  cases i with
  | nop => exact ⟨_, rfl, finishedFrom_raise s .ok⟩
  | extract f => exact ⟨_, rfl, finishedFrom_checked (finishedFrom_finish .ok (frame_refl s))⟩
  | sext f => exact ⟨_, rfl, finishedFrom_checked (finishedFrom_finish .ok (frame_refl s))⟩
  | pack f => exact ⟨_, rfl, finishedFrom_checked (finishedFrom_finish .ok (frame_refl s))⟩
  | scale f => exact ⟨_, rfl, finishedFrom_finish .ok (frame_refl s)⟩
  | route =>
    refine ⟨_, rfl, ?_⟩
    split
    · exact finishedFrom_raise s _
    · exact finishedFrom_finish .ok (frame_refl s)
  | decode =>
    refine ⟨_, rfl, ?_⟩
    split
    · exact finishedFrom_raise s _
    · exact finishedFrom_decodeMessage s _
  | encode kind =>
    refine ⟨_, rfl, ?_⟩
    split
    · exact finishedFrom_raise s _
    · exact finishedFrom_finish .ok (frame_refl s)

theorem exec_next {i : Instr} {s t : State} (h : exec i s = .next t) : FinishedFrom s t := by
  obtain ⟨u, hu, hf⟩ := exec_finishes i s
  rw [hu] at h
  cases h
  exact hf

theorem exec_ovr {i : Instr} {s t : State} (h : exec i s = .next t) : t.ovr = s.ovr := by
  obtain ⟨-, ⟨-, hovr, -⟩, -⟩ := exec_next h
  exact hovr

/-- The block's turn keeps what no command writes, whether it is idle, raises or runs a command. -/
theorem blockMoves_frame {s t : State} (h : blockMoves s t) : sameOperands s t ∧ sameEnvironment s t := by
  rcases h with ⟨-, rfl⟩ | ⟨w, r, -, -, rfl⟩ | ⟨w, i, -, -, hx⟩
  · exact frame_refl t
  · exact (finishedFrom_raise s .illegalCommand).2
  · exact (exec_next hx).2

/-! ### The platform -/

theorem State.abandonDecode_plat (s : State) (k : Nat) : (s.abandonDecode k).plat = s.plat := by
  unfold State.abandonDecode
  split
  · rfl
  · split <;> exact State.afterResultBase_plat s _

theorem State.abandonLatched_plat (s : State) : s.abandonLatched.plat = s.plat := by
  rcases s.abandonLatched_cases with h | ⟨w, k, -, -, -, h⟩
  · rw [h]
  · rw [h, State.abandonDecode_plat]

theorem step_plat {s t : State} (h : step s = .next t) : t.plat = s.plat := by
  rcases step_cases h with hb | ⟨v, rfl⟩ | ⟨word, v, -, -, rfl, -⟩ | ⟨addr, n, v, -, rfl⟩ | ⟨addr, rfl⟩ |
    ⟨spans, rfl, -⟩ | ⟨-, rfl⟩
  · obtain ⟨-, hplat, -⟩ := blockMoves_frame hb
    exact hplat
  · rfl
  · exact State.regWrite_plat _ _ _
  · rfl
  · rfl
  · rfl
  · exact State.abandonLatched_plat _

/-! ### INFO -/

/-- MAX_SIGNALS is the signal count of some message, or 0 with no message (R9). -/
theorem maxSignals_attained (msgs : List MessageLayout) :
    (∃ m ∈ msgs, m.sigs.length = maxSignals msgs) ∨ (msgs = [] ∧ maxSignals msgs = 0) := by
  induction msgs with
  | nil => exact .inr ⟨rfl, rfl⟩
  | cons a msgs ih =>
    have hmax : maxSignals (a :: msgs) = max a.sigs.length (maxSignals msgs) := rfl
    rw [hmax]
    refine .inl ?_
    rcases Nat.le_total (maxSignals msgs) a.sigs.length with hle | hle
    · exact ⟨a, by simp, (Nat.max_eq_left hle).symm⟩
    · rw [Nat.max_eq_right hle]
      rcases ih with ⟨m, hm, he⟩ | ⟨-, hz⟩
      · exact ⟨m, by simp [hm], he⟩
      · exact ⟨a, by simp, by omega⟩

/-- MAX_SIGNALS has 16 bits (R33 item 2). -/
theorem Rom.maxSignals_le_65535 (r : Rom) : maxSignals r.msgs ≤ 65535 := by
  obtain ⟨-, -, hmsgs, -⟩ := Rom.facts r
  refine maxSignals_le fun m hm => ?_
  obtain ⟨-, -, hcount, -⟩ := messageWf_facts (hmsgs m hm)
  exact hcount

theorem State.toNat_info (s : State) :
    s.info.toNat = s.plat.rom.msgs.length + 65536 * maxSignals s.plat.rom.msgs := by
  obtain ⟨hlen, -⟩ := Rom.facts s.plat.rom
  have hmax := Rom.maxSignals_le_65535 s.plat.rom
  simp only [State.info, toNat_append_eq, BitVec.toNat_ofNat]
  omega

theorem State.info_congr {s t : State} (h : t.plat = s.plat) : t.info = s.info := by
  simp only [State.info, h]

/-! ### Writes to registers -/

/-- A write to a register that is neither CMD, an RW register nor STATUS is ignored, whether or not a command runs
(R40). -/
theorem State.regWrite_of_ignored {s : State} {r : Reg} (v : Word) (hr : r.lockedWhileBusy = false)
    (hs : r ≠ .status) : s.regWrite r v = s := by
  cases r <;> simp_all [State.regWrite, State.regStore, Reg.lockedWhileBusy]

/-- A write to STATUS changes only OVR, whether or not a command runs (R40). -/
theorem State.regWrite_status (s : State) (v : Word) :
    s.regWrite .status v = { s with ovr := s.ovr && !v.getLsbD 9 } := by
  have hw : s.regWrite .status v = if v.getLsbD 9 then { s with ovr := false } else s := by
    simp [State.regWrite, State.regStore, Reg.lockedWhileBusy]
  rw [hw]
  cases v.getLsbD 9 <;> simp

/-- FRAME_DLC keeps the low 8 bits of what is written to it (R40). -/
theorem State.regWrite_frameDlc_of_idle {s : State} (v : Word) (hb : s.busy = false) :
    s.regWrite .frameDlc v = { s with frameDlc := v.setWidth 8 } := by
  simp [State.regWrite, State.regStore, hb, BitVec.setWidth_eq_extractLsb']

/-- A write to CMD or to an RW register is lost while a command runs (R41). -/
theorem State.regWrite_of_locked {s : State} {r : Reg} (v : Word) (hb : s.busy = true)
    (hr : r.lockedWhileBusy = true) : s.regWrite r v = s.loseWrite := by
  simp [State.regWrite, hb, hr]

/-- A write to CMD or to an RW register does not clear OVR, whether or not a command runs. -/
theorem State.regWrite_ovr_of_locked {s : State} {r : Reg} {v : Word} (hs : s.ovr = true)
    (hr : r.lockedWhileBusy = true) : (s.regWrite r v).ovr = true := by
  unfold State.regWrite
  split
  · rfl
  · revert hr
    cases r <;> simp [State.regStore, Reg.lockedWhileBusy, hs]

/-- Only a write of 1 to bit 9 of STATUS clears OVR (R42). -/
theorem State.regWrite_clears_ovr {s : State} {r : Reg} {v : Word} (hs : s.ovr = true)
    (h : (s.regWrite r v).ovr = false) : r = .status ∧ v.getLsbD 9 = true := by
  by_cases hr : r = .status
  · subst hr
    rw [State.regWrite_status] at h
    exact ⟨rfl, by simpa [hs] using h⟩
  · cases hl : r.lockedWhileBusy
    · rw [State.regWrite_of_ignored v hl hr, hs] at h
      cases h
    · rw [State.regWrite_ovr_of_locked hs hl] at h
      cases h

/-! ### Words of the window -/

/-- CMD and the RW registers by their words (R38). -/
theorem regAt_lockedWhileBusy {word : Nat} (h : word < 64) :
    (regAt word).lockedWhileBusy = true ↔ word = 0 ∨ (4 ≤ word ∧ word ≤ 13) ∨ word = 16 ∨ word = 17 := by
  revert word
  decide

theorem regAt_eq_cmd {word : Nat} (h : word < 64) : regAt word = .cmd ↔ word = 0 := by
  revert word
  decide

theorem regAt_eq_status {word : Nat} (h : word < 64) : regAt word = .status ↔ word = 1 := by
  revert word
  decide

/-- The step of a store to a word other than CMD, or while a command runs. -/
theorem step_store_word {s : State} {word : Nat} {v : Word} {rest : List HostAction} (hw : word < 64)
    (h : s.inputs = .store (s.plat.regBase + 4 * word) 4 v.toNat :: rest) (hc : word ≠ 0 ∨ s.busy = true) :
    step s = .next (State.regWrite { s with inputs := rest } (regAt word) v) := by
  rw [step_store_register hw h]
  exact storeRegister_of_not_accepting v (hc.imp (mt (regAt_eq_cmd hw).mp) id)

/-- A store to a word that is neither CMD, STATUS nor an RW register changes nothing (R40). -/
theorem step_store_ignored {s : State} {word : Nat} {v : Word} {rest : List HostAction} (hw : word < 64)
    (h : s.inputs = .store (s.plat.regBase + 4 * word) 4 v.toNat :: rest) (hs : word ≠ 1)
    (hl : ¬ (word = 0 ∨ (4 ≤ word ∧ word ≤ 13) ∨ word = 16 ∨ word = 17)) :
    step s = .next { s with inputs := rest } := by
  rw [step_store_word hw h (.inl (by omega))]
  have hopen : (regAt word).lockedWhileBusy = false := Bool.eq_false_iff.mpr (mt (regAt_lockedWhileBusy hw).mp hl)
  have hstatus : regAt word ≠ .status := mt (regAt_eq_status hw).mp hs
  exact congrArg _ (State.regWrite_of_ignored v hopen hstatus)

theorem step_store_status {s : State} {v : Word} {rest : List HostAction}
    (h : s.inputs = .store (s.plat.regBase + 4 * 1) 4 v.toNat :: rest) :
    step s = .next { s with ovr := s.ovr && !v.getLsbD 9, inputs := rest } := by
  rw [step_store_word (by decide) h (.inl (by decide))]
  exact congrArg _ (State.regWrite_status _ v)

/-- A store to CMD or to an RW word while a command runs is lost (R41). -/
theorem step_store_locked {s : State} {word : Nat} {v : Word} {rest : List HostAction} (hw : word < 64)
    (h : s.inputs = .store (s.plat.regBase + 4 * word) 4 v.toNat :: rest) (hb : s.busy = true)
    (hl : word = 0 ∨ (4 ≤ word ∧ word ≤ 13) ∨ word = 16 ∨ word = 17) :
    step s = .next { s with ovr := true, inputs := rest } := by
  rw [step_store_word hw h (.inr hb)]
  exact congrArg _ (State.regWrite_of_locked v hb ((regAt_lockedWhileBusy hw).mpr hl))

/-! ### Reads -/

theorem State.regRead_frameDlc_lt (s : State) : (s.regRead .frameDlc).toNat < 256 := by
  have hdlc := s.frameDlc.isLt
  simp only [State.regRead, BitVec.toNat_setWidth]
  omega

/-- Bits 4 to 7 and 10 to 31 of STATUS are reserved and read 0 (R35, R40). -/
theorem State.status_reserved (s : State) : s.status &&& 0xFFFFFCF0#32 = 0 := by
  have h : ∀ (o b : Bool) (c : BitVec 4),
      (0#22 ++ BitVec.ofBool o ++ BitVec.ofBool b ++ 0#4 ++ c) &&& 0xFFFFFCF0#32 = 0#32 := by
    decide
  exact h _ _ _

/-- After the reset of any state the registers of the window read what they do after power-up, INFO excepted (R45). -/
theorem State.regRead_resetRegisters (s : State) {r : Reg} (h : r ≠ .info) :
    s.resetRegisters.regRead r = State.reset.regRead r := by
  cases r
  case info => exact absurd rfl h
  all_goals rfl

theorem State.regRead_reset {r : Reg} (h : r ≠ .info) : State.reset.regRead r = 0 := by
  cases r
  case info => exact absurd rfl h
  all_goals decide

/-! ### The form of an access -/

/-- An access that touches the window and is no aligned word of it has no target (R39). -/
theorem State.target_windowAccessForm {s : State} {addr n : Nat} (isStore : Bool)
    (ho : overlaps ⟨addr, n⟩ (registerWindow s.plat.regBase) = true)
    (hn : ∀ word, word < 64 → ¬ (n = 4 ∧ addr = s.plat.regBase + 4 * word)) :
    s.target isStore addr n = .refused .windowAccessForm := by
  obtain ⟨-, -, hlt, -⟩ := overlaps_iff.mp ho
  simp only [registerWindow] at hlt
  unfold State.target
  rw [if_pos ho, if_neg]
  rintro ⟨h4, hle, hmod⟩
  exact hn ((addr - s.plat.regBase) / 4) (by omega) ⟨h4, by omega⟩

end Sys2Proof.Machine

namespace Sys2Proof.Proofs

open Sys2Proof.Machine Sys2Proof.Safety

/-- Settles O10, by the cases of a step: the block's turn keeps the environment, and no host action names the platform. -/
theorem romIsNeverWritten : Obligations.RomIsNeverWritten :=
  fun _ _ h => step_plat h

/-- Settles O46: the word decides whether its register is locked, is STATUS, or ignores writes. -/
theorem writesWhileBusyAreLost : Obligations.WritesWhileBusyAreLost := by
  rintro s word n v rest hw hb rfl
  refine ⟨fun hi => ?_, step_load_register hw⟩
  split
  · exact step_store_locked hw hi hb ‹_›
  · by_cases h1 : word = 1
    · subst h1
      rw [step_store_status hi]
      cases v.getLsbD 9 <;> simp
    · rw [step_store_ignored hw hi h1 ‹_›, if_neg fun h => h1 h.1]

/-- Settles O47: a word that is ignored leaves the register file alone, STATUS and FRAME_DLC are written by their rules, and
the reserved bits are zero in the layout of each register. -/
theorem readOnlyAndReservedOffsets : Obligations.ReadOnlyAndReservedOffsets := by
  intro s word v rest hw
  refine ⟨fun hi => ⟨fun h => ?_, ?_, ?_⟩, s.regRead_frameDlc_lt, s.status_reserved, fun hi h => ?_⟩
  · exact step_store_ignored hw hi (by omega) (by omega)
  · rintro rfl
    exact step_store_status hi
  · rintro rfl hb
    rw [step_store_word hw hi (.inl (by decide))]
    exact congrArg _ (State.regWrite_frameDlc_of_idle v hb)
  · rw [step_load_register hw hi, regAt_of_ge h]
    rfl

/-- Settles O52: ROM_WF keeps both halves within 16 bits, MAX_SIGNALS is a maximum, and INFO depends on the platform
alone. -/
theorem infoDescribesTheRom : Obligations.InfoDescribesTheRom :=
  fun s => ⟨s.toNat_info, fun _ hm => length_le_maxSignals hm, maxSignals_attained _,
    fun _ h => State.info_congr (step_plat h)⟩

/-- Settles O53, by the cases of a step: of those that go on, only a store to STATUS and reset touch a set OVR. -/
theorem ovrIsSticky : Obligations.OvrIsSticky := by
  refine ⟨fun _ _ _ => exec_ovr, fun s t hs h ht => ?_⟩
  have kept : t.ovr ≠ s.popInput.ovr := by
    simp [ht, State.popInput, hs]
  rcases step_cases h with hb | ⟨v, rfl⟩ | ⟨word, v, hw, hi, rfl, -⟩ | ⟨addr, n, v, -, rfl⟩ | ⟨addr, rfl⟩ |
    ⟨spans, rfl, -⟩ | ⟨hi, -⟩
  · obtain ⟨⟨-, hovr, -⟩, -⟩ := blockMoves_frame hb
    exact absurd hovr kept
  · exact absurd rfl kept
  · obtain ⟨rest, hi⟩ := List.head?_eq_some_iff.mp hi
    obtain ⟨hr, hv⟩ := State.regWrite_clears_ovr (show s.popInput.ovr = true from hs) ht
    obtain rfl := (regAt_eq_status hw).mp hr
    rw [BitVec.getLsbD_ofNat] at hv
    exact ⟨rest, .inr ⟨v, hi, hv⟩⟩
  · exact absurd rfl kept
  · exact absurd rfl kept
  · exact absurd rfl kept
  · obtain ⟨rest, hi⟩ := List.head?_eq_some_iff.mp hi
    exact ⟨rest, .inl hi⟩

/-- Settles O54: loads and stores ask `State.target` first. -/
theorem windowTakesAlignedWordsOnly : Obligations.WindowTakesAlignedWordsOnly := by
  intro s addr n v rest ho hn hi
  have ht (isStore : Bool) : State.target { s with inputs := rest } isStore addr n = .refused .windowAccessForm :=
    State.target_windowAccessForm isStore ho hn
  rcases hi with hi | hi
  · rw [step_of_inputs hi, hostStep, hostStore, ht]
  · rw [step_of_inputs hi, hostStep, hostLoad, ht]

/-- Settles O6: the reset event gives every register the value it has after power-up, which is 0, and an abandoned command
leaves the platform alone. -/
theorem resetLeavesZero : Obligations.ResetLeavesZero :=
  ⟨fun _ => State.regRead_reset, rfl, fun s => ⟨_, rfl,
    fun _ h => (State.regRead_resetRegisters _ h).trans (State.regRead_reset h),
    State.info_congr (State.abandonLatched_plat s), rfl, State.abandonLatched_plat s⟩⟩

end Sys2Proof.Proofs
end

section
/-! PROOFS of the family 20_memory: which commands act on registers only (R61). -/

namespace Sys2Proof.Machine

/-! ### Register commands -/

/-- `f` acts on registers only: it does not write host memory, and whatever memory holds, the registers end the same
(R61). -/
def RegistersOnly (f : State → State) : Prop :=
  ∀ s : State, (f s).mem = s.mem ∧ ∀ m : Memory, f { s with mem := m } = { f s with mem := m }

theorem registersOnly_raise (c : Code) : RegistersOnly fun s => s.raise c :=
  fun _ => ⟨rfl, fun _ => rfl⟩

theorem RegistersOnly.finish {u : State → State} (h : RegistersOnly u) (c : Code) :
    RegistersOnly fun s => (u s).finish c :=
  fun s => ⟨(h s).1, fun m => congrArg (State.finish · c) ((h s).2 m)⟩

/-- A command that checks its field first and raises when the check fails (R203): the check is of the word alone. -/
theorem RegistersOnly.checked {u : State → State} (h : RegistersOnly u) (b : Bool) (c e : Code) :
    RegistersOnly fun s => if b then (u s).finish c else s.raise e := by
  cases b with
  | true => exact h.finish c
  | false => exact registersOnly_raise e

/-- The router reads the frame mailbox and the ROM, not memory (R115). -/
theorem State.routed_withMem (s : State) (m : Memory) : State.routed { s with mem := m } = s.routed := rfl

/-- Every command but DECODE and ENCODE acts on registers only. -/
theorem exec_registersOnly {i : Instr} (hd : i ≠ .decode) (he : ∀ kind, i ≠ .encode kind) :
    ∃ f, RegistersOnly f ∧ ∀ s, exec i s = .next (f s) := by
  cases i with
  | nop => exact ⟨_, registersOnly_raise .ok, fun _ => rfl⟩
  | extract f =>
    have hu : RegistersOnly fun s => { s with raw := extract s.frameData f.start f.len f.order } :=
      fun _ => ⟨rfl, fun _ => rfl⟩
    exact ⟨_, hu.checked (fieldLegal f) .ok .illegalCommand, fun _ => rfl⟩
  | sext f =>
    have hu : RegistersOnly fun s => { s with raw := signx s.raw f.len f.signed } :=
      fun _ => ⟨rfl, fun _ => rfl⟩
    exact ⟨_, hu.checked (lenLegal f) .ok .illegalCommand, fun _ => rfl⟩
  | pack f =>
    have hu : RegistersOnly fun s =>
        { s with frameData := packField s.frameData f.start f.len f.order s.raw } :=
      fun _ => ⟨rfl, fun _ => rfl⟩
    exact ⟨_, hu.checked (fieldLegal f) .ok .illegalCommand, fun _ => rfl⟩
  | scale f =>
    have hu : RegistersOnly fun s => { s with
        phys := scaleValue s.plat.scalerFused (Config.freeNan s.nanDraws) s.raw f.signed s.scale s.offset
        nanDraws := s.nanDraws + 1 } :=
      fun _ => ⟨rfl, fun _ => rfl⟩
    exact ⟨_, hu.finish .ok, fun _ => rfl⟩
  | route =>
    refine ⟨_, fun s => ?_, fun _ => rfl⟩
    simp only [State.routed_withMem]
    cases s.routed with
    | error e => exact registersOnly_raise e s
    | ok k => exact ⟨rfl, fun _ => rfl⟩
  | decode => exact absurd rfl hd
  | encode kind => exact absurd rfl (he kind)

end Sys2Proof.Machine

namespace Sys2Proof.Proofs

open Sys2Proof.Machine

/-- Settles O13, by the cases of a command: none of the six reads or writes the memory of the state it is given. -/
theorem onlyMessageCommandsTouchMemory : Obligations.OnlyMessageCommandsTouchMemory := by
  intro i s t m hd he h
  obtain ⟨f, hf, hexec⟩ := exec_registersOnly hd he
  obtain ⟨hkept, hblind⟩ := hf s
  rw [hexec] at h
  cases h
  exact ⟨hkept, (hexec _).trans (congrArg _ (hblind m))⟩

end Sys2Proof.Proofs
end

section
/-! PROOFS of the family 30_encoding: which words are illegal, what an illegal word does, and when a word is accepted (R96,
R99). -/

namespace Sys2Proof

/-! ### Illegal words -/

/-- OP is the number of the four lowest bits (R85). -/
theorem bits_opcode (w : Word) : bits w 0 4 = w.toNat % 16 := by
  simp [bits_eq]

/-- All the bits of a word from `lo` on, as one field (R10). -/
theorem bits_to_top (w : Word) {lo width : Nat} (h : lo + width = 32) : bits w lo width = w.toNat / 2 ^ lo := by
  rw [bits_eq, Nat.mod_eq_of_lt]
  apply Nat.div_lt_of_lt_mul
  rw [← Nat.pow_add, h]
  exact w.isLt

/-- A format-F word is illegal exactly when a bit of 31:19 is set (R96). -/
theorem decodeFormatF_error_iff (w : Word) (mk : FieldDesc → Instr) :
    (∃ r, decodeFormatF w mk = .error r) ↔ w.toNat / 2 ^ 19 ≠ 0 := by
  unfold decodeFormatF
  rw [bits_to_top w rfl]
  split
  · exact iff_of_true ⟨_, rfl⟩ ‹_›
  · exact iff_of_false (by simp) ‹_›

/-- A format-M word of a command without a KIND is illegal exactly when a bit of 31:20 or of KIND is set (R96). -/
theorem decodeKindZero_error_iff (w : Word) (i : Instr) :
    (∃ r, decodeKindZero w i = .error r) ↔ w.toNat / 2 ^ 20 ≠ 0 ∨ w.toNat / 2 ^ 4 % 2 ^ 16 ≠ 0 := by
  unfold decodeKindZero
  rw [bits_to_top w rfl, bits_eq]
  split
  · exact iff_of_true ⟨_, rfl⟩ (.inl ‹_›)
  · split
    · exact iff_of_true ⟨_, rfl⟩ (.inr ‹_›)
    · exact iff_of_false (by simp) (not_or.mpr ⟨‹_›, ‹_›⟩)

/-- The illegal words, opcode by opcode (R96). -/
theorem decode_error_iff (w : Word) : (∃ r, decode w = .error r) ↔
    8 ≤ w.toNat % 16 ∨
    (1 ≤ w.toNat % 16 ∧ w.toNat % 16 ≤ 4 ∧ w.toNat / 2 ^ 19 ≠ 0) ∨
    (5 ≤ w.toNat % 16 ∧ w.toNat % 16 ≤ 7 ∧ w.toNat / 2 ^ 20 ≠ 0) ∨
    ((w.toNat % 16 = 5 ∨ w.toNat % 16 = 6) ∧ w.toNat / 2 ^ 4 % 2 ^ 16 ≠ 0) ∨
    (w.toNat % 16 = 0 ∧ w.toNat ≠ 0) := by
  unfold decode
  rw [bits_opcode]
  split
  case h_1 hop =>
    split
    case isTrue hw => simp [hw]
    case isFalse hw =>
      have hnonzero : w.toNat ≠ 0 := fun h => hw (BitVec.eq_of_toNat_eq h)
      exact iff_of_true ⟨_, rfl⟩ (by omega)
  case h_2 hop | h_3 hop | h_4 hop | h_5 hop => simp [decodeFormatF_error_iff, hop]
  case h_6 hop | h_7 hop => simp [decodeKindZero_error_iff, hop]
  case h_8 hop =>
    rw [bits_to_top w rfl]
    split
    · exact iff_of_true ⟨_, rfl⟩ (by omega)
    · exact iff_of_false (by simp) (by omega)
  case h_9 =>
    have hreserved : 8 ≤ w.toNat % 16 := by
      simp only [imp_false] at *
      omega
    exact iff_of_true ⟨_, rfl⟩ (.inl hreserved)

end Sys2Proof

namespace Sys2Proof.Machine

open Sys2Proof.Safety

/-- The block's turn with an illegal word in LATCH (R96). -/
theorem blockStep_of_illegal {s : State} {w : Word} {r : Illegal} (hl : s.latch = some w) (hd : decode w = .error r) :
    blockStep s = .next (s.raise .illegalCommand) := by
  simp only [blockStep, hl, hd]

/-! ### Acceptance -/

/-- A host that keeps nothing to itself has given the block all its memory (R233). -/
theorem not_usesWithheld_of_nothing_kept {s : State} (h : s.withheld = []) (w : Word) : ¬ usesWithheld s w := by
  have huntouched : ∀ base n, ¬ touchesWithheld s base n := by
    simp [touchesWithheld, h]
  rintro ⟨k, ⟨-, -, -, -, ht⟩ | ⟨-, -, -, -, ht⟩⟩
  · exact huntouched _ _ ht
  · exact huntouched _ _ ht

/-- Acceptance of a word names memory not given exactly when its command would use memory the host keeps (R233). -/
theorem State.namesUngiven_accept_iff (s : State) (w : Word) :
    (s.accept w).namesUngiven = true ↔ usesWithheld s w := by
  rw [State.namesUngiven_iff]
  constructor
  · rintro ⟨w', hl, hu⟩
    cases hl
    exact hu
  · exact fun hu => ⟨w, rfl, hu⟩

/-- A store to CMD while BUSY = 0 latches a word whose command uses no memory the host keeps (R99). -/
theorem storeRegister_accepts {s : State} {w : Word} (hb : s.busy = false) (hu : ¬ usesWithheld s w) :
    storeRegister .cmd w s = .next (s.accept w) := by
  rw [storeRegister_cmd_of_idle w hb, if_neg (mt (s.namesUngiven_accept_iff w).mp hu)]

end Sys2Proof.Machine

namespace Sys2Proof.Proofs

open Sys2Proof.Machine Sys2Proof.Safety

/-- Settles O3: the decoder rejects by the cases of R96, and the block's turn raises for each of them. -/
theorem illegalWordsRaise : Obligations.IllegalWordsRaise := by
  refine ⟨decode_error_iff, fun s w r hi hl hd => ?_⟩
  rw [step_of_idle_host hi]
  exact blockStep_of_illegal hl hd

/-- Settles O45: CMD is word 0 of the window, and a store to it either has the word accepted or, while a command runs, is
lost. -/
theorem commandAcceptance : Obligations.CommandAcceptance := by
  intro s w rest hi
  refine ⟨fun hb hu => ?_, fun hk => not_usesWithheld_of_nothing_kept hk w, fun hb => ?_⟩
  · exact (step_store_register (word := 0) (by decide) hi).trans (storeRegister_accepts hb hu)
  · exact step_store_locked (word := 0) (by decide) hi hb (.inl rfl)

end Sys2Proof.Proofs
end

section
/-! PROOFS of the family 40_dispatcher: NOP, the router behind ROUTE, and the checks and the frame of ENCODE (R110, R115 to
R118, R122 to R124, R205). -/

namespace Sys2Proof

/-! ### Words of format M -/

/-- KIND of a format-M word (R87). -/
theorem bits_encodeFormatM_kind (op : BitVec 4) {kind : Nat} (h : kind < 2 ^ 16) :
    bits (encodeFormatM op kind) 4 16 = kind := by
  have hop := op.isLt
  rw [bits_eq, toNat_encodeFormatM]
  omega

/-- A format-M word sets none of its reserved bits (R87). -/
theorem bits_encodeFormatM_reserved (op : BitVec 4) (kind : Nat) : bits (encodeFormatM op kind) 20 12 = 0 := by
  have hop := op.isLt
  rw [bits_eq, toNat_encodeFormatM]
  omega

theorem decodeKindZero_encodeFormatM (op : BitVec 4) (i : Instr) {kind : Nat} (h : kind < 2 ^ 16) :
    decodeKindZero (encodeFormatM op kind) i = if kind = 0 then .ok i else .error .kindNotZero := by
  simp only [decodeKindZero, bits_encodeFormatM_reserved, bits_encodeFormatM_kind op h]
  split <;> simp_all

/-- A ROUTE word must have KIND = 0 (R96, R118). -/
theorem decode_encodeFormatM_route {kind : Nat} (h : kind < 2 ^ 16) :
    decode (encodeFormatM 5 kind) = if kind = 0 then .ok .route else .error .kindNotZero := by
  have hop : bits (encodeFormatM 5 kind) 0 4 = 5 := Laws.EncodeOpcode.formatM 5 kind
  rw [decode, hop]
  exact decodeKindZero_encodeFormatM 5 .route h

/-- The word of an ENCODE with any KIND is legal (R97, R124). -/
theorem decode_encodeFormatM_encode {kind : Nat} (h : kind < 2 ^ 16) :
    decode (encodeFormatM 7 kind) = .ok (.encode kind) := by
  have hop : bits (encodeFormatM 7 kind) 0 4 = 7 := Laws.EncodeOpcode.formatM 7 kind
  rw [decode, hop]
  simp only [bits_encodeFormatM_reserved, bits_encodeFormatM_kind 7 h, ne_eq, not_true, if_false]

end Sys2Proof

namespace Sys2Proof.Machine

open Sys2Proof.Safety

/-! ### The router -/

/-- A router's error is what ROUTE raises (R118). -/
theorem exec_route_of_error {s : State} {e : Code} (h : s.routed = .error e) :
    exec .route s = .next (statusOnly s e) := by
  simp only [exec, execRoute, h]
  rfl

/-- A router's index is what ROUTE leaves in MSGIDX (R118). -/
theorem exec_route_of_ok {s : State} {k : Nat} (h : s.routed = .ok k) :
    exec .route s = .next { s with msgIdx := BitVec.ofNat 32 k, code := .ok, latch := none } := by
  simp only [exec, execRoute, h]
  rfl

/-! ### What DECODE reports -/

/-- A router's error is what DECODE raises (R120). -/
theorem exec_decode_of_error {s : State} {e : Code} (h : s.routed = .error e) :
    exec .decode s = .next (statusOnly s e) := by
  simp only [exec, execDecode, h]
  rfl

theorem exec_decode_of_ok {s : State} {k : Nat} (h : s.routed = .ok k) :
    exec .decode s = .next (s.decodeMessage k) := by
  simp only [exec, execDecode, h]

/-- Once its message is routed, a DECODE reports Ok or ResourceFault (R120). -/
theorem State.decodeMessage_code (s : State) (k : Nat) :
    (s.decodeMessage k).code = .ok ∨ (s.decodeMessage k).code = .resourceFault := by
  unfold State.decodeMessage
  split
  · exact .inr rfl
  · exact .inl rfl

/-- DECODE has no pointer that must not be null: DEST = 0 is Owned mode (R205). -/
theorem exec_decode_code_ne_nullArgument {s t : State} (h : exec .decode s = .next t) : t.code ≠ .nullArgument := by
  rcases s.routed_cases with ⟨k, -, hr⟩ | ⟨-, hr⟩ | ⟨-, -, hr⟩
  · rw [exec_decode_of_ok hr] at h
    cases h
    rcases s.decodeMessage_code k with hc | hc <;> simp [hc]
  · rw [exec_decode_of_error hr] at h
    cases h
    exact nofun
  · rw [exec_decode_of_error hr] at h
    cases h
    exact nofun

/-! ### The checks of ENCODE -/

/-- The first check: KIND (R123). -/
theorem State.encodeChecks_of_kind_out_of_range {s : State} {k : Nat} (hk : s.plat.rom.msgs.length ≤ k) :
    s.encodeChecks k = .error .illegalCommand :=
  if_pos hk

/-- The second check: the null pointer, for a message with a signal (R205). -/
theorem State.encodeChecks_of_null {s : State} {k : Nat} (hk : k < s.plat.rom.msgs.length) (hn : s.countOf k ≠ 0)
    (hs : s.src = 0) : s.encodeChecks k = .error .nullArgument := by
  rw [State.encodeChecks, if_neg (Nat.not_le.mpr hk), if_pos ⟨hn, hs⟩]

/-- The third check: the window (R66, R206). -/
theorem State.encodeChecks_of_not_admitted {s : State} {k : Nat} (hk : k < s.plat.rom.msgs.length)
    (hp : s.countOf k = 0 ∨ s.src ≠ 0) (ha : admitted s.plat.memWindow s.src.toNat (8 * s.countOf k) = false) :
    s.encodeChecks k = .error .resourceFault := by
  have hnull : ¬ (s.countOf k ≠ 0 ∧ s.src = 0) := fun ⟨hn, hs⟩ => hp.elim hn (absurd hs)
  rw [State.encodeChecks, if_neg (Nat.not_le.mpr hk), if_neg hnull, ha]
  rfl

/-- A check that fails is what ENCODE raises (R124). -/
theorem exec_encode_of_error {s : State} {k : Nat} {e : Code} (h : s.encodeChecks k = .error e) :
    exec (.encode k) s = .next (statusOnly s e) := by
  simp only [exec, execEncode, h]
  rfl

/-! ### The frame of ENCODE -/

/-- The frame ENCODE of message `k` leaves: the raw values at SRC packed into the cleared frame (R124). -/
def State.encodedFrame (s : State) (k : Nat) : FrameData :=
  encodeFrame s.plat.clearScope (messageAt s.plat.rom.msgs k) s.frameData (s.sourceRaws k)

/-- An ENCODE whose checks pass (R124). -/
theorem exec_encode_of_ok {s : State} {k : Nat} (h : s.encodeChecks k = .ok ()) :
    exec (.encode k) s = .next { s with
      frameData := s.encodedFrame k, frameId := BitVec.ofNat 32 (messageAt s.plat.rom.msgs k).id,
      frameDlc := BitVec.ofNat 8 (messageAt s.plat.rom.msgs k).byteLength,
      count := BitVec.ofNat 32 (s.countOf k), msgIdx := BitVec.ofNat 32 k, code := .ok, latch := none } := by
  simp only [exec, execEncode, h]
  rfl

/-- A bit of signal `i` that no later signal holds is the bit of the raw value at SRC + 8i (R124, R128). -/
theorem State.getBit_encodedFrame_of_last {s : State} {k i b : Nat} {g : SignalLayout}
    (hk : k < s.plat.rom.msgs.length) (hg : (s.signalsOf k)[i]? = some g) (hb : b < g.bitLength)
    (hlast : ∀ j h, i < j → (s.signalsOf k)[j]? = some h →
      ¬ inSignal h (bitpos g.startBit g.bitLength g.byteOrder b)) :
    getBit (s.encodedFrame k) (bitpos g.startBit g.bitLength g.byteOrder b) =
      (s.mem.readLE (s.src.toNat + 8 * i) 8).testBit b := by
  have hi : i < s.countOf k := (List.getElem?_eq_some_iff.mp hg).1
  have hb64 : b < 64 := Nat.lt_of_lt_of_le hb (fits_range (s.signal_fits hk (List.mem_of_getElem? hg))).2.2
  have hpacked : getBit (s.encodedFrame k) (bitpos g.startBit g.bitLength g.byteOrder b) =
      (BitVec.ofNat 64 (s.mem.readLE (s.src.toNat + 8 * i) 8)).getLsbD b :=
    getBit_packSignals_of_pos (fun _ => s.signal_fits hk) hg (getElem?_readRaws _ _ hi) hb hlast
  rw [hpacked, BitVec.getLsbD_ofNat]
  simp [hb64]

/-- A bit in no signal is kept, or cleared where CLEAR_SCOPE clears the bytes of the message (R122). -/
theorem State.getBit_encodedFrame_of_no_signal {s : State} {k : Nat} {p : Nat × Nat} (hj : p.1 < 8) (hb : p.2 < 8)
    (hno : ∀ g ∈ s.signalsOf k, ¬ inSignal g p) :
    getBit (s.encodedFrame k) p =
      if s.plat.clearScope = .declaredBytes ∧ p.1 < (messageAt s.plat.rom.msgs k).byteLength then false
      else getBit s.frameData p := by
  have hunpacked : getBit (s.encodedFrame k) p =
      getBit (clearBits s.frameData (clearPositions s.plat.clearScope (messageAt s.plat.rom.msgs k))) p :=
    getBit_packSignals_of_not_pos hno
  rw [hunpacked, getBit_clearBits]
  cases hc : s.plat.clearScope with
  | signalBits =>
    have hkept : p ∉ clearPositions .signalBits (messageAt s.plat.rom.msgs k) := fun hm =>
      let ⟨g, hg, hp⟩ := (mem_clearPositions hb).mp hm
      hno g hg hp
    simp [hkept]
  | declaredBytes =>
    by_cases hin : p.1 < (messageAt s.plat.rom.msgs k).byteLength <;> simp [mem_clearPositions hb, hin, hj, hb]

end Sys2Proof.Machine

namespace Sys2Proof.Proofs

open Sys2Proof.Machine Sys2Proof.Safety

/-- Settles O14: the zero word is NOP, and the meaning of NOP is `finish(Ok)`. -/
theorem nopOnlyReportsOk : Obligations.NopOnlyReportsOk :=
  ⟨by decide, fun _ => rfl⟩

/-- Settles O30: the router answers with the one message the mailbox names, or with the error of its lookup or of its length
check, and ROUTE reports what the router answers. -/
theorem routeSelectsTheMessage : Obligations.RouteSelectsTheMessage :=
  ⟨fun _ => decode_encodeFormatM_route, fun _ =>
    ⟨fun _ hk => ⟨exec_route_of_ok (State.routed_ok_iff.mpr hk), fun _ hk' => namesMessage_unique hk' hk⟩,
      fun hid => exec_route_of_error (State.routed_unknown hid),
      fun hid hn => exec_route_of_error (State.routed_mismatch hid hn)⟩⟩

/-- Settles O42: the checks of ENCODE in their order, and the codes a DECODE can report. -/
theorem encodeChecksKindThenPointer : Obligations.EncodeChecksKindThenPointer :=
  ⟨fun _ => decode_encodeFormatM_encode, fun _ _ =>
    ⟨fun hk => exec_encode_of_error (State.encodeChecks_of_kind_out_of_range hk),
      fun hk hn hs => exec_encode_of_error (State.encodeChecks_of_null hk hn hs),
      fun _ => exec_decode_code_ne_nullArgument⟩⟩

/-- Settles O41: a check that fails is raised; where all pass, the frame is the packed one, and each of its bits either has a
last writer or is in no signal. -/
theorem encodePacksTheMessage : Obligations.EncodePacksTheMessage := by
  intro s k
  refine ⟨fun hk => ?_, fun hk hn hs => ?_, fun hk hp ha => ?_, fun hk hp ha => ⟨s.encodedFrame k, ?_, ?_, ?_⟩⟩
  · exact exec_encode_of_error (State.encodeChecks_of_kind_out_of_range hk)
  · exact exec_encode_of_error (State.encodeChecks_of_null hk hn hs)
  · exact exec_encode_of_error (State.encodeChecks_of_not_admitted hk hp ha)
  · exact exec_encode_of_ok (State.encodeChecks_ok hk hp ha)
  · exact fun _ _ _ => State.getBit_encodedFrame_of_last hk
  · exact fun _ => State.getBit_encodedFrame_of_no_signal

end Sys2Proof.Proofs
end

section
/-! PROOFS of the family 41_bitfield_codec: how fields walk the frame, and the commands EXTRACT, SEXT and PACK (R141, R142,
R145 to R147, R150 to R154). -/

namespace Sys2Proof

/-! ### Words of format F -/

/-- A format-F word sets none of its reserved bits (R86). -/
theorem bits_encodeFormatF_reserved (op : BitVec 4) (f : FieldDesc) : bits (encodeFormatF op f) 19 13 = 0 := by
  have hop := op.isLt
  have horder := Bool.toNat_lt f.order.toBit
  have hsigned := Bool.toNat_lt f.signed
  rw [bits_eq, toNat_encodeFormatF]
  omega

/-- START of a format-F word (R86). -/
theorem bits_encodeFormatF_start (op : BitVec 4) {f : FieldDesc} (h : f.start < 64) :
    bits (encodeFormatF op f) 4 6 = f.start := by
  have hop := op.isLt
  rw [bits_eq, toNat_encodeFormatF]
  omega

/-- LEN of a format-F word (R86). -/
theorem bits_encodeFormatF_len (op : BitVec 4) {f : FieldDesc} (h : f.len < 128) :
    bits (encodeFormatF op f) 10 7 = f.len := by
  have hop := op.isLt
  rw [bits_eq, toNat_encodeFormatF]
  omega

/-- ORDER of a format-F word (R86, R91). -/
theorem getLsbD_encodeFormatF_order (op : BitVec 4) (f : FieldDesc) :
    (encodeFormatF op f).getLsbD 17 = f.order.toBit := by
  have hop := op.isLt
  have hbit : (encodeFormatF op f).toNat / 2 ^ 17 % 2 = f.order.toBit.toNat := by
    have horder := Bool.toNat_lt f.order.toBit
    rw [toNat_encodeFormatF]
    omega
  rw [getLsbD_eq_div, hbit]
  cases f.order <;> rfl

/-- SIGNED of a format-F word (R86). -/
theorem getLsbD_encodeFormatF_signed (op : BitVec 4) (f : FieldDesc) :
    (encodeFormatF op f).getLsbD 18 = f.signed := by
  have hop := op.isLt
  have hbit : (encodeFormatF op f).toNat / 2 ^ 18 % 2 = f.signed.toNat := by
    have horder := Bool.toNat_lt f.order.toBit
    have hsigned := Bool.toNat_lt f.signed
    rw [toNat_encodeFormatF]
    omega
  rw [getLsbD_eq_div, hbit]
  cases f.signed <;> rfl

/-- The fields of a format-F word are those of its descriptor (R86, R97). -/
theorem decodeFormatF_encodeFormatF (op : BitVec 4) (mk : FieldDesc → Instr) {f : FieldDesc}
    (h : f.wellFormed = true) : decodeFormatF (encodeFormatF op f) mk = .ok (mk f) := by
  obtain ⟨hstart, hlen⟩ : f.start < 64 ∧ f.len < 128 := by
    simpa [FieldDesc.wellFormed] using h
  rw [decodeFormatF, if_neg (not_not.mpr (bits_encodeFormatF_reserved op f)), bits_encodeFormatF_start op hstart,
    bits_encodeFormatF_len op hlen, getLsbD_encodeFormatF_order, getLsbD_encodeFormatF_signed, ByteOrder.ofBit_toBit]

theorem decode_encodeFormatF_extract {f : FieldDesc} (h : f.wellFormed = true) :
    decode (encodeFormatF 1 f) = .ok (.extract f) := by
  have hop : bits (encodeFormatF 1 f) 0 4 = 1 := Laws.EncodeOpcode.formatF 1 f
  rw [decode, hop]
  exact decodeFormatF_encodeFormatF 1 .extract h

theorem decode_encodeFormatF_sext {f : FieldDesc} (h : f.wellFormed = true) :
    decode (encodeFormatF 2 f) = .ok (.sext f) := by
  have hop : bits (encodeFormatF 2 f) 0 4 = 2 := Laws.EncodeOpcode.formatF 2 f
  rw [decode, hop]
  exact decodeFormatF_encodeFormatF 2 .sext h

theorem decode_encodeFormatF_pack {f : FieldDesc} (h : f.wellFormed = true) :
    decode (encodeFormatF 3 f) = .ok (.pack f) := by
  have hop : bits (encodeFormatF 3 f) 0 4 = 3 := Laws.EncodeOpcode.formatF 3 f
  rw [decode, hop]
  exact decodeFormatF_encodeFormatF 3 .pack h

end Sys2Proof

namespace Sys2Proof.Machine

open Sys2Proof.Safety

/-! ### The field check -/

/-- A field that fits has a LEN in range, so the check of EXTRACT and PACK is that the field fits (R143, R203). -/
theorem fieldLegal_eq_fits (f : FieldDesc) : fieldLegal f = fits f.start f.len f.order 8 := by
  cases hfit : fits f.start f.len f.order 8 with
  | false => rw [fieldLegal, hfit, Bool.and_false]
  | true =>
    obtain ⟨-, hpos, hle⟩ := fits_range hfit
    simp [fieldLegal, lenLegal, hfit, hpos, hle]

/-- A field of LEN out of range fits nowhere (R143). -/
theorem not_fits_of_illegal {f : FieldDesc} (h : f.len = 0 ∨ 64 < f.len ∨ fits f.start f.len f.order 8 = false) :
    fits f.start f.len f.order 8 = false := by
  rw [Bool.eq_false_iff]
  intro hfit
  obtain ⟨-, hpos, hle⟩ := fits_range hfit
  rcases h with hzero | hlong | hmisfit
  · omega
  · omega
  · exact absurd hfit (by simp [hmisfit])

/-! ### What EXTRACT, SEXT and PACK do -/

theorem exec_extract_of_fits {f : FieldDesc} (s : State) (h : fits f.start f.len f.order 8 = true) :
    exec (.extract f) s =
      .next { s with raw := extract s.frameData f.start f.len f.order, code := .ok, latch := none } := by
  simp only [exec, execExtract, fieldLegal_eq_fits, h]
  rfl

theorem exec_extract_of_not_fits {f : FieldDesc} (s : State) (h : fits f.start f.len f.order 8 = false) :
    exec (.extract f) s = .next (statusOnly s .illegalCommand) := by
  simp only [exec, execExtract, fieldLegal_eq_fits, h]
  rfl

theorem exec_sext_of_len {f : FieldDesc} (s : State) (hpos : 1 ≤ f.len) (hle : f.len ≤ 64) :
    exec (.sext f) s = .next { s with raw := signx s.raw f.len f.signed, code := .ok, latch := none } := by
  have hlegal : lenLegal f = true := by simp [lenLegal, hpos, hle]
  simp only [exec, execSext, hlegal]
  rfl

theorem exec_sext_of_not_len {f : FieldDesc} (s : State) (h : f.len = 0 ∨ 64 < f.len) :
    exec (.sext f) s = .next (statusOnly s .illegalCommand) := by
  have hlegal : lenLegal f = false := by
    simp only [lenLegal, Bool.and_eq_false_iff, decide_eq_false_iff_not]
    omega
  simp only [exec, execSext, hlegal]
  rfl

theorem exec_pack_of_fits {f : FieldDesc} (s : State) (h : fits f.start f.len f.order 8 = true) :
    exec (.pack f) s =
      .next { s with
        frameData := packField s.frameData f.start f.len f.order s.raw, code := .ok, latch := none } := by
  simp only [exec, execPack, fieldLegal_eq_fits, h]
  rfl

theorem exec_pack_of_not_fits {f : FieldDesc} (s : State) (h : fits f.start f.len f.order 8 = false) :
    exec (.pack f) s = .next (statusOnly s .illegalCommand) := by
  simp only [exec, execPack, fieldLegal_eq_fits, h]
  rfl

/-! ### The walk of a field -/

/-- The byte and the bit of an LE position spell its linear index (R141). -/
theorem bitpos_le_linearIndex (s len k : Nat) :
    8 * (bitpos s len .le k).1 + (bitpos s len .le k).2 = s + k :=
  Nat.div_add_mod (s + k) 8

/-- From value bit to value bit an LE field goes one bit up, from bit 7 on to bit 0 of the next byte (R141). -/
theorem bitpos_le_succ (s len k : Nat) :
    bitpos s len .le (k + 1) =
      if (bitpos s len .le k).2 = 7 then ((bitpos s len .le k).1 + 1, 0)
      else ((bitpos s len .le k).1, (bitpos s len .le k).2 + 1) := by
  split
  case isTrue htop =>
    simp only [bitpos, Prod.mk.injEq] at *
    omega
  case isFalse hinside =>
    simp only [bitpos, Prod.mk.injEq] at *
    omega

/-- The most significant bit of a BE field is the bit START names (R142). -/
theorem bitpos_be_msb {s len : Nat} (h : 0 < len) : bitpos s len .be (len - 1) = (s / 8, s % 8) := by
  simp only [bitpos, msb0, Prod.mk.injEq]
  omega

/-- The byte and the bit of a BE position spell its MSB-0 index (R142). -/
theorem bitpos_be_msb0Index (s len k : Nat) :
    8 * (bitpos s len .be k).1 + 7 - (bitpos s len .be k).2 = msb0 s + len - 1 - k := by
  simp only [bitpos]
  omega

/-- To the next lower value bit a BE field goes one bit down, from bit 0 on to bit 7 of the next byte (R142). -/
theorem bitpos_be_pred {s len k : Nat} (hpos : 0 < k) (hk : k < len) :
    bitpos s len .be (k - 1) =
      if (bitpos s len .be k).2 = 0 then ((bitpos s len .be k).1 + 1, 7)
      else ((bitpos s len .be k).1, (bitpos s len .be k).2 - 1) := by
  have hnext : msb0 s + len - 1 - (k - 1) = msb0 s + len - 1 - k + 1 := by omega
  split
  case isTrue hbottom =>
    simp only [bitpos, hnext, Prod.mk.injEq] at *
    omega
  case isFalse hinside =>
    simp only [bitpos, hnext, Prod.mk.injEq] at *
    omega

/-! ### The closed forms of the extractor and the packer -/

/-- The extracted value is the field's part of the reading of its own byte order (R145). -/
theorem toNat_extract {f : FieldDesc} (d : FrameData) (h : fits f.start f.len f.order 8 = true) :
    (extract d f.start f.len f.order).toNat = fieldReading f d / 2 ^ fieldShift f % 2 ^ f.len := by
  have hend := fieldShift_add_len h
  apply Nat.eq_of_testBit_eq
  intro i
  rw [BitVec.testBit_toNat, getLsbD_extract d _ _ _ (by omega), Nat.testBit_mod_two_pow, Nat.testBit_div_two_pow]
  by_cases hi : i < f.len
  · rw [bitpos_eq_readingPos h hi, ← testBit_fieldReading f d (by omega), Nat.add_comm]
  · simp [hi]

/-- The reading of a packed frame, bit by bit: the value's bits in the field, the old ones outside it (R147). -/
theorem testBit_fieldReading_packField {f : FieldDesc} (d : FrameData) (v : Raw)
    (h : fits f.start f.len f.order 8 = true) (i : Nat) :
    (fieldReading f (packField d f.start f.len f.order v)).testBit i =
      if fieldShift f ≤ i ∧ i < fieldShift f + f.len then v.getLsbD (i - fieldShift f)
      else (fieldReading f d).testBit i := by
  have hend := fieldShift_add_len h
  split
  case isTrue hin =>
    have hk : i - fieldShift f < f.len := by omega
    have hpos : bitpos f.start f.len f.order (i - fieldShift f) = readingPos f.order i := by
      rw [bitpos_eq_readingPos h hk, Nat.add_sub_cancel' hin.1]
    rw [testBit_fieldReading f _ (by omega), ← hpos, getBit_packField_of_pos h hk]
  case isFalse hout =>
    by_cases hi : i < 64
    · rw [testBit_fieldReading f _ hi, testBit_fieldReading f _ hi, getBit_packField_of_not_pos]
      intro k hk hpos
      rw [bitpos_eq_readingPos h hk] at hpos
      have := readingPos_injective (by omega) hi hpos
      omega
    · have hhigh (e : FrameData) : (fieldReading f e).testBit i = false :=
        Nat.testBit_lt_two_pow
          (Nat.lt_of_lt_of_le (fieldReading_lt f e) (Nat.pow_le_pow_right (by decide) (by omega)))
      rw [hhigh, hhigh]

/-- The field's part of a packed frame is the low LEN bits of the value (R147). -/
theorem fieldReading_packField_field {f : FieldDesc} (d : FrameData) (v : Raw)
    (h : fits f.start f.len f.order 8 = true) :
    fieldReading f (packField d f.start f.len f.order v) / 2 ^ fieldShift f % 2 ^ f.len = v.toNat % 2 ^ f.len := by
  apply Nat.eq_of_testBit_eq
  intro i
  rw [Nat.testBit_mod_two_pow, Nat.testBit_mod_two_pow, Nat.testBit_div_two_pow, testBit_fieldReading_packField d v h]
  by_cases hi : i < f.len
  · rw [if_pos (by omega), Nat.add_sub_cancel, BitVec.testBit_toNat]
  · simp [hi]

/-- Packing keeps the bits below the field (R147). -/
theorem fieldReading_packField_below {f : FieldDesc} (d : FrameData) (v : Raw)
    (h : fits f.start f.len f.order 8 = true) :
    fieldReading f (packField d f.start f.len f.order v) % 2 ^ fieldShift f =
      fieldReading f d % 2 ^ fieldShift f := by
  apply Nat.eq_of_testBit_eq
  intro i
  rw [Nat.testBit_mod_two_pow, Nat.testBit_mod_two_pow, testBit_fieldReading_packField d v h]
  by_cases hi : i < fieldShift f
  · rw [if_neg (by omega)]
  · simp [hi]

/-- Packing keeps the bits above the field (R147). -/
theorem fieldReading_packField_above {f : FieldDesc} (d : FrameData) (v : Raw)
    (h : fits f.start f.len f.order 8 = true) :
    fieldReading f (packField d f.start f.len f.order v) / 2 ^ (fieldShift f + f.len) =
      fieldReading f d / 2 ^ (fieldShift f + f.len) := by
  apply Nat.eq_of_testBit_eq
  intro i
  rw [Nat.testBit_div_two_pow, Nat.testBit_div_two_pow, testBit_fieldReading_packField d v h, if_neg (by omega)]

/-! ### The sign-extender -/

/-- Unsigned, the value of the low `len` bits (R146). -/
theorem toNat_signx_unsigned (v : Raw) (len : Nat) : (signx v len false).toNat = v.toNat % 2 ^ len := by
  have hlt : v.toNat % 2 ^ len < 2 ^ 64 := Nat.lt_of_le_of_lt (Nat.mod_le _ _) v.isLt
  rw [signx, Bool.false_and, if_neg Bool.false_ne_true, zextFrom, BitVec.toNat_setWidth, BitVec.toNat_setWidth,
    Nat.mod_eq_of_lt hlt]

/-- Signed, both branches of R146 sign-extend the low `len` bits: with a sign bit of 0 that is the zero extension. -/
theorem signx_signed (v : Raw) (len : Nat) : signx v len true = sextFrom len v := by
  rw [signx, Bool.true_and]
  split
  case isTrue => rfl
  case isFalse hbit =>
    have hmsb : (v.setWidth len).msb = false := by
      simpa [BitVec.msb_eq_getLsbD_last, BitVec.getLsbD_setWidth] using fun _ => hbit
    exact (BitVec.signExtend_eq_setWidth_of_msb_false hmsb).symm

/-- Signed, the two's-complement value of the low `len` bits (R146). -/
theorem toInt_signx_signed (v : Raw) {len : Nat} (hpos : 1 ≤ len) (hle : len ≤ 64) :
    (signx v len true).toInt =
      if v.toNat % 2 ^ len < 2 ^ (len - 1) then ((v.toNat % 2 ^ len : Nat) : Int)
      else ((v.toNat % 2 ^ len : Nat) : Int) - 2 ^ len := by
  obtain ⟨n, rfl⟩ : ∃ n, len = n + 1 := ⟨len - 1, by omega⟩
  have hhalf : 2 * (v.toNat % 2 ^ (n + 1)) < 2 ^ (n + 1) ↔ v.toNat % 2 ^ (n + 1) < 2 ^ n := by
    rw [Nat.pow_succ]
    omega
  rw [signx_signed, sextFrom, BitVec.toInt_signExtend_of_le hle, BitVec.toInt_eq_toNat_cond,
    BitVec.toNat_setWidth, Nat.add_sub_cancel]
  simp only [hhalf]
  norm_cast

end Sys2Proof.Machine

namespace Sys2Proof.Proofs

open Sys2Proof.Machine Sys2Proof.Safety

/-- Settles O15: an LE field starts at its least significant bit and walks up, a BE field starts at its most significant bit
and walks down. -/
theorem fieldsWalkTheFrame : Obligations.FieldsWalkTheFrame :=
  fun s len k hk =>
    ⟨⟨rfl, bitpos_le_linearIndex s len k, bitpos_le_succ s len k⟩, bitpos_be_msb (by omega),
      bitpos_be_msb0Index s len k, fun hpos => bitpos_be_pred hpos hk⟩

/-- Settles O18: the check of EXTRACT is that the field fits, and the extractor has the closed form of R145. -/
theorem extractReadsTheField : Obligations.ExtractReadsTheField :=
  fun f s =>
    ⟨decode_encodeFormatF_extract,
      fun _ _ hfit => ⟨extract s.frameData f.start f.len f.order, exec_extract_of_fits s hfit,
        toNat_extract s.frameData hfit⟩,
      fun h => exec_extract_of_not_fits s (not_fits_of_illegal h)⟩

/-- Settles O19: the check of SEXT is of LEN alone, and the sign-extender gives the value of R146 in either reading. -/
theorem sextExtendsRaw : Obligations.SextExtendsRaw := by
  intro f s
  refine ⟨decode_encodeFormatF_sext, fun hpos hle => ⟨signx s.raw f.len f.signed, ?_, fun hsg => ?_, fun hsg => ?_⟩, ?_⟩
  · exact exec_sext_of_len s hpos hle
  · rw [hsg]
    exact toNat_signx_unsigned s.raw f.len
  · rw [hsg]
    exact toInt_signx_signed s.raw hpos hle
  · exact exec_sext_of_not_len s

/-- Settles O20: the check of PACK is that the field fits, and the reading of the packed frame is known in three parts: below
the field, in it and above it. -/
theorem packWritesTheField : Obligations.PackWritesTheField :=
  fun f s =>
    ⟨decode_encodeFormatF_pack,
      fun _ _ hfit => ⟨packField s.frameData f.start f.len f.order s.raw, exec_pack_of_fits s hfit,
        fieldReading_packField_field s.frameData s.raw hfit, fieldReading_packField_below s.frameData s.raw hfit,
        fieldReading_packField_above s.frameData s.raw hfit⟩,
      fun h => exec_pack_of_not_fits s (not_fits_of_illegal h)⟩

end Sys2Proof.Proofs
end

section
/-! PROOFS of the family 42_scaler: the command SCALE and the NaN it may give (R170 to R174). -/

namespace Sys2Proof

theorem decode_encodeFormatF_scale {f : FieldDesc} (h : f.wellFormed = true) :
    decode (encodeFormatF 4 f) = .ok (.scale f) := by
  have hop : bits (encodeFormatF 4 f) 0 4 = 4 := Laws.EncodeOpcode.formatF 4 f
  rw [decode, hop]
  exact decodeFormatF_encodeFormatF 4 .scale h

/-- A SCALE word with a reserved bit set is illegal (R96). -/
theorem decode_scale_reserved {w : Word} (hop : w.toNat % 16 = 4) (hbits : w.toNat / 2 ^ 19 ≠ 0) :
    ∃ r, decode w = .error r :=
  (decode_error_iff w).mpr (.inr (.inl ⟨by omega, by omega, hbits⟩))

end Sys2Proof

namespace Sys2Proof.Machine

open Sys2Proof.Safety

/-! ### NaN results -/

/-- A result that is no NaN is kept, whatever the draw (R172). -/
theorem settleNan_of_not_nan (draw : F64) {v : F64} (h : F64.isNaN v = false) : settleNan draw v = v := by
  rw [settleNan, h, if_neg Bool.false_ne_true]

/-- Settling gives a NaN exactly where the IEEE-754 result is one, whatever the draw (R172). -/
theorem isNaN_settleNan (draw v : F64) : F64.isNaN (settleNan draw v) = F64.isNaN v := by
  cases h : F64.isNaN v with
  | true => rw [settleNan, if_pos h, F64.isNaN_nanOfDraw]
  | false => rw [settleNan_of_not_nan draw h, h]

/-! ### What SCALE does -/

/-- SCALE writes PHYS, uses up one NaN draw and reports Ok (R174). -/
theorem exec_scale (f : FieldDesc) (s : State) :
    exec (.scale f) s = .next { s with
      phys := scaleValue s.plat.scalerFused (Config.freeNan s.nanDraws) s.raw f.signed s.scale s.offset
      nanDraws := s.nanDraws + 1
      code := .ok
      latch := none } :=
  rfl

end Sys2Proof.Machine

namespace Sys2Proof.Proofs

open Sys2Proof.Machine Sys2Proof.Safety

/-- Settles O23: SCALE leaves in PHYS the IEEE-754 result of R171, which only a NaN draw can replace and only where that
result is a NaN; a reserved bit makes the word illegal. -/
theorem scaleComputesPhys : Obligations.ScaleComputesPhys := by
  intro f s
  refine ⟨decode_encodeFormatF_scale, fun x r hx hr => ?_, fun w hop hbits hi hl => ?_⟩
  · have hieee : scaleIeee s.plat.scalerFused s.raw f.signed s.scale s.offset = r := by
      rw [hr, hx]
      rfl
    refine ⟨_, _, exec_scale f s, fun hnumber => ?_, fun hnan => ?_⟩
    · rw [scaleValue, hieee, settleNan_of_not_nan _ hnumber]
    · rw [scaleValue, hieee, isNaN_settleNan, hnan]
  · obtain ⟨_, hd⟩ := decode_scale_reserved hop hbits
    rw [step_of_idle_host hi]
    exact blockStep_of_illegal hl hd

end Sys2Proof.Proofs
end

section
/-! PROOFS of the family 43_result_buffer: what a DECODE leaves at its base, in memory and in HANDLE (R185 to R192). -/

namespace Sys2Proof.Machine

open Sys2Proof.Safety

/-! ### The parts of a record -/

/-- Bytes 0 to 3 of a record (R188). -/
theorem recordImage_ref (ref : Nat) (v : F64) : recordImage ref v / 256 ^ 0 % 256 ^ 4 = ref % 2 ^ 32 := by
  unfold recordImage
  omega

/-- Bytes 4 to 7 of a record (R188). -/
theorem recordImage_reserved (ref : Nat) (v : F64) : recordImage ref v / 256 ^ 4 % 256 ^ 4 = 0 := by
  unfold recordImage
  omega

/-- Bytes 8 to 15 of a record (R188). -/
theorem recordImage_value (ref : Nat) (v : F64) : recordImage ref v / 256 ^ 8 % 256 ^ 8 = v.toNat := by
  have := v.isLt
  unfold recordImage
  omega

/-! ### The records of a message in memory -/

/-- Record `i` of a message is the image of its signal `i` (R117, R188). -/
theorem State.getElem?_decodedRecords {s : State} {k i : Nat} {g : SignalLayout} (hg : (s.signalsOf k)[i]? = some g) :
    (s.decodedRecords k)[i]? = some (recordImage (sigref s.plat.rom.msgs k i)
      (decodeSignal s.plat.scalerFused (Config.freeNan (s.nanDraws + i)) s.frameData g)) := by
  simp [State.decodedRecords, getElem?_recordImages, hg]

/-- A SIGREF fits in the 32 bits a record has for it (R33). -/
theorem State.sigref_lt_two_pow {s : State} {k i : Nat} (hk : k < s.plat.rom.msgs.length) (hi : i < s.countOf k) :
    sigref s.plat.rom.msgs k i < 2 ^ 32 := by
  obtain ⟨-, hsum, -⟩ := Rom.facts s.plat.rom
  exact (sigref_lt hk hi).trans hsum

/-- Writing a message's records from `base` on stores them there (R188, R189). -/
theorem State.recordsStored_writeRecords {s : State} {k : Nat} (hm : Memory.wf s.mem = true)
    (hk : k < s.plat.rom.msgs.length) (base : Nat) :
    recordsStored s (writeRecords s.mem base 0 (s.decodedRecords k)) k base := by
  intro i g hg
  have hr := State.getElem?_decodedRecords hg
  obtain ⟨hi, -⟩ := List.getElem?_eq_some_iff.mp hg
  refine ⟨?_, ?_, Config.freeNan (s.nanDraws + i), ?_⟩
  · have hread := readLE_writeRecords hm base hr (off := 0) (n := 4) (by decide)
    rwa [recordImage_ref, Nat.mod_eq_of_lt (State.sigref_lt_two_pow hk hi)] at hread
  · rw [readLE_writeRecords hm base hr (by decide), recordImage_reserved]
  · rw [readLE_writeRecords hm base hr (by decide), recordImage_value]

/-- Writing a message's `N` records from `base` on changes only the `16N` bytes there (R188, R189). -/
theorem State.sameOutside_writeRecords {s : State} (k : Nat) (hm : Memory.wf s.mem = true) (base : Nat) :
    sameOutside s (writeRecords s.mem base 0 (s.decodedRecords k)) base (16 * s.countOf k) := by
  intro a ha
  rw [read_writeRecords hm]
  split
  · rw [List.getElem?_eq_none (by rw [State.length_decodedRecords]; omega)]
    rfl
  · rfl

/-! ### The base of an Owned DECODE -/

/-- HANDLE has room for the base of an Owned DECODE (R190, R191). -/
theorem State.resultBase_lt_of_owned {s : State} {n base : Nat} (hd : s.dest = 0) (h : s.resultBase n = some base) :
    base < 2 ^ 32 := by
  by_cases hn : n = 0
  · rw [State.resultBase, if_pos hd, if_pos hn] at h
    cases h
    decide
  · obtain ⟨-, hspace⟩ := admitted_inWindow (State.resultBase_admitted h) (j := 0) (by omega)
    unfold addressSpace at hspace
    omega

/-! ### What DECODE does -/

/-- The state a DECODE of message `k` ends in when its records go to `base` (R120). -/
def State.decodedAt (s : State) (k base : Nat) : State :=
  { s.afterResultBase (s.countOf k) with
    mem := writeRecords s.mem base 0 (s.decodedRecords k)
    count := BitVec.ofNat 32 (s.countOf k)
    msgIdx := BitVec.ofNat 32 k
    handle := if s.dest = 0 then BitVec.ofNat 32 base else s.handle
    nanDraws := s.nanDraws + s.countOf k
    code := .ok
    latch := none }

/-- The register HANDLE after a DECODE whose records went to `base` (R192). -/
theorem State.decodedAt_handle (s : State) (k base : Nat) :
    (s.decodedAt k base).handle = if s.dest = 0 then BitVec.ofNat 32 base else s.handle := rfl

theorem State.decodedAt_code (s : State) (k base : Nat) : (s.decodedAt k base).code = .ok := rfl

/-- A DECODE whose records have a base (R120). -/
theorem exec_decode_of_base {s : State} {k base : Nat} (hk : namesMessage s k)
    (hb : s.resultBase (s.countOf k) = some base) : exec .decode s = .next (s.decodedAt k base) := by
  rw [exec_decode_of_ok (State.routed_ok_iff.mpr hk), State.decodeMessage, hb]
  rfl

/-- A DECODE whose records have no base raises ResourceFault, after the allocator has noted its call (R206). -/
theorem exec_decode_of_no_base {s : State} {k : Nat} (hk : namesMessage s k)
    (hb : s.resultBase (s.countOf k) = none) :
    exec .decode s = .next (statusOnly (s.afterResultBase (s.countOf k)) .resourceFault) := by
  rw [exec_decode_of_ok (State.routed_ok_iff.mpr hk), State.decodeMessage, hb]
  rfl

/-- A DECODE either writes the records of the message named at their base, or fails and keeps HANDLE (R120, R192). -/
theorem exec_decode_cases {s t : State} (h : exec .decode s = .next t) :
    (∃ k base, namesMessage s k ∧ s.resultBase (s.countOf k) = some base ∧ t = s.decodedAt k base) ∨
    (t.code ≠ .ok ∧ t.handle = s.handle) := by
  rcases s.routed_cases with ⟨k, hk, -⟩ | ⟨-, hr⟩ | ⟨-, -, hr⟩
  · cases hb : s.resultBase (s.countOf k) with
    | some base =>
      cases (exec_decode_of_base hk hb).symm.trans h
      exact .inl ⟨k, base, hk, hb, rfl⟩
    | none =>
      cases (exec_decode_of_no_base hk hb).symm.trans h
      exact .inr ⟨nofun, State.afterResultBase_handle s _⟩
  · cases (exec_decode_of_error hr).symm.trans h
    exact .inr ⟨nofun, rfl⟩
  · cases (exec_decode_of_error hr).symm.trans h
    exact .inr ⟨nofun, rfl⟩

/-- A Borrowed DECODE changes neither HANDLE nor the allocator's record (R187, R192). -/
theorem State.decodedAt_of_borrowed {s : State} (k base : Nat) (hd : s.dest ≠ 0) :
    s.decodedAt k base = { s with
      mem := writeRecords s.mem base 0 (s.decodedRecords k), count := BitVec.ofNat 32 (s.countOf k),
      msgIdx := BitVec.ofNat 32 k, nanDraws := s.nanDraws + s.countOf k, code := .ok, latch := none } := by
  obtain ⟨-, hafter⟩ := State.resultBase_borrowed (n := s.countOf k) hd
  rw [State.decodedAt, hafter, if_neg hd]

/-! ### The commands that never write HANDLE -/

/-- A command that checks its field first keeps HANDLE if what it does when the check passes does (R203). -/
theorem State.handle_checked {s u : State} {b : Bool} {c e : Code} (h : u.handle = s.handle) :
    (if b then u.finish c else s.raise e).handle = s.handle := by
  split
  · exact h
  · rfl

/-- Every command but DECODE keeps HANDLE. -/
theorem exec_handle_of_ne_decode {i : Instr} {s t : State} (hi : i ≠ .decode) (h : exec i s = .next t) :
    t.handle = s.handle := by
  cases i with
  | nop => cases h; rfl
  | extract f => cases h; exact State.handle_checked rfl
  | sext f => cases h; exact State.handle_checked rfl
  | pack f => cases h; exact State.handle_checked rfl
  | scale f => cases h; rfl
  | route =>
    cases h
    split <;> rfl
  | decode => exact absurd rfl hi
  | encode kind =>
    cases h
    split <;> rfl

end Sys2Proof.Machine

namespace Sys2Proof.Proofs

open Sys2Proof.Machine Sys2Proof.Safety

/-- Settles O34: in Borrowed mode the base is DEST, nothing is asked of the allocator, and the records written at DEST are
stored there and change nothing else. -/
theorem borrowedDecodeWritesRecords : Obligations.BorrowedDecodeWritesRecords := by
  intro s k hm hk hd ha
  have hbase : s.resultBase (s.countOf k) = some s.dest.toNat := by
    rw [(State.resultBase_borrowed hd).1, if_pos ha]
  rw [exec_decode_of_base hk hbase, State.decodedAt_of_borrowed k _ hd]
  exact ⟨_, _, rfl, State.recordsStored_writeRecords hm hk.1 _, State.sameOutside_writeRecords k hm _⟩

/-- Settles O36: no command but DECODE writes HANDLE, a DECODE that fails keeps it, and one that succeeds writes its base
there exactly in Owned mode; the base fits in HANDLE. -/
theorem handleIsWrittenOnlyByOwnedDecode : Obligations.HandleIsWrittenOnlyByOwnedDecode := by
  refine ⟨fun i s t h hnot => ?_, fun s t hd h hok => ?_⟩
  · by_cases hi : i = .decode
    · subst hi
      rcases exec_decode_cases h with ⟨k, base, -, -, rfl⟩ | ⟨-, hkept⟩
      · have hd : s.dest ≠ 0 := fun hd => hnot ⟨rfl, hd, s.decodedAt_code k base⟩
        rw [State.decodedAt_handle, if_neg hd]
      · exact hkept
    · exact exec_handle_of_ne_decode hi h
  · rcases exec_decode_cases h with ⟨k, base, hk, hb, rfl⟩ | ⟨hfail, -⟩
    · refine ⟨k, base, hk, hb, ?_⟩
      rw [State.decodedAt_handle, if_pos hd, BitVec.toNat_ofNat, Nat.mod_eq_of_lt (State.resultBase_lt_of_owned hd hb)]
    · exact absurd hok hfail

end Sys2Proof.Proofs
end

section
/-! PROOFS of the family 60_exceptions: which code a command reports, and that a command that raises changes nothing but
STATUS (R202 to R206, R215). -/

namespace Sys2Proof.Machine

open Sys2Proof.Safety

/-! ### ROUTE and DECODE look the message up -/

/-- What the mailbox names decides what ROUTE and DECODE report: past a successful lookup only the result region can fail
(R115, R202, R204). -/
theorem exec_lookup_cases {s t : State} (h : exec .route s = .next t ∨ exec .decode s = .next t) :
    (∃ k, namesMessage s k ∧ (t.code = .ok ∨ t.code = .resourceFault)) ∨
    (¬ idKnown s ∧ t.code = .unknownMessage) ∨
    (idKnown s ∧ (∀ k, ¬ namesMessage s k) ∧ t.code = .lengthMismatch) := by
  have herror {e : Code} (hr : s.routed = .error e) : t.code = e := by
    rcases h with h | h
    · cases (exec_route_of_error hr).symm.trans h
      rfl
    · cases (exec_decode_of_error hr).symm.trans h
      rfl
  rcases s.routed_cases with ⟨k, hk, hr⟩ | ⟨hid, hr⟩ | ⟨hid, hn, hr⟩
  · refine .inl ⟨k, hk, ?_⟩
    rcases h with h | h
    · cases (exec_route_of_ok hr).symm.trans h
      exact .inl rfl
    · cases (exec_decode_of_ok hr).symm.trans h
      exact s.decodeMessage_code k
  · exact .inr (.inl ⟨hid, herror hr⟩)
  · exact .inr (.inr ⟨hid, hn, herror hr⟩)

/-- UnknownMessage means that no message has the ID (R202). -/
theorem not_idKnown_of_unknownMessage {s t : State} (h : exec .route s = .next t ∨ exec .decode s = .next t)
    (hc : t.code = .unknownMessage) : ¬ idKnown s := by
  rcases exec_lookup_cases h with ⟨-, -, hc' | hc'⟩ | ⟨hid, -⟩ | ⟨-, -, hc'⟩
  · cases hc.symm.trans hc'
  · cases hc.symm.trans hc'
  · exact hid
  · cases hc.symm.trans hc'

/-- LengthMismatch means that the ID is known and no message with it has the length (R204). -/
theorem idKnown_and_not_namesMessage_of_lengthMismatch {s t : State}
    (h : exec .route s = .next t ∨ exec .decode s = .next t) (hc : t.code = .lengthMismatch) :
    idKnown s ∧ ∀ k, ¬ namesMessage s k := by
  rcases exec_lookup_cases h with ⟨-, -, hc' | hc'⟩ | ⟨-, hc'⟩ | ⟨hid, hn, -⟩
  · cases hc.symm.trans hc'
  · cases hc.symm.trans hc'
  · cases hc.symm.trans hc'
  · exact ⟨hid, hn⟩

/-! ### What ENCODE reports -/

/-- The errors of the checks of ENCODE (R124, R210). -/
theorem State.encodeChecks_error {s : State} {k : Nat} {e : Code} (h : s.encodeChecks k = .error e) :
    e = .illegalCommand ∨ e = .nullArgument ∨ e = .resourceFault := by
  unfold State.encodeChecks at h
  split at h
  · cases h
    exact .inl rfl
  · split at h
    · cases h
      exact .inr (.inl rfl)
    · split at h
      · cases h
        exact .inr (.inr rfl)
      · cases h

/-- An ENCODE either passes its checks and reports Ok, or raises the error of its first failing check (R124). -/
theorem exec_encode_cases {s t : State} {k : Nat} (h : exec (.encode k) s = .next t) :
    t.code = .ok ∨ ∃ e, s.encodeChecks k = .error e ∧ t = statusOnly s e := by
  cases hck : s.encodeChecks k with
  | error e =>
    cases (exec_encode_of_error hck).symm.trans h
    exact .inr ⟨e, rfl, rfl⟩
  | ok =>
    cases (exec_encode_of_ok hck).symm.trans h
    exact .inl rfl

/-! ### A command that raises -/

/-- A command that checks its field first changes nothing but STATUS when the check fails (R203). -/
theorem statusOnly_of_checked {s u : State} {b : Bool} {e : Code}
    (h : (if b then u.finish .ok else s.raise e).code ≠ .ok) :
    (if b then u.finish .ok else s.raise e) = statusOnly s e := by
  cases b with
  | true => exact absurd rfl h
  | false => rfl

/-- The allocator is asked in Owned mode only (R186, R190). -/
theorem State.afterResultBase_cases (s : State) (n : Nat) :
    s.afterResultBase n = s ∨ (s.dest = 0 ∧ s.afterResultBase n = s.recordAlloc (16 * n)) := by
  by_cases hd : s.dest = 0
  · cases hask : s.consultsAllocator n with
    | true => exact .inr ⟨hd, State.afterResultBase_of_consults hask⟩
    | false => exact .inl (State.afterResultBase_of_not_consults hask)
  · exact .inl (State.resultBase_borrowed hd).2

/-- A DECODE that raises changes nothing but STATUS; only in Owned mode can it have asked the allocator, which then answered
FAIL (R206, R215). -/
theorem exec_decode_raises {s t : State} (h : exec .decode s = .next t) (hc : t.code ≠ .ok) :
    (∃ c, t = statusOnly s c) ∨
    (s.dest = 0 ∧ ∃ calls, t = statusOnly { s with allocs := calls } .resourceFault) := by
  rcases s.routed_cases with ⟨k, hk, -⟩ | ⟨-, hr⟩ | ⟨-, -, hr⟩
  · cases hb : s.resultBase (s.countOf k) with
    | some base =>
      cases (exec_decode_of_base hk hb).symm.trans h
      exact absurd rfl hc
    | none =>
      cases (exec_decode_of_no_base hk hb).symm.trans h
      rcases s.afterResultBase_cases (s.countOf k) with hafter | ⟨hd, hafter⟩
      · rw [hafter]
        exact .inl ⟨_, rfl⟩
      · rw [hafter]
        exact .inr ⟨hd, _, rfl⟩
  · cases (exec_decode_of_error hr).symm.trans h
    exact .inl ⟨_, rfl⟩
  · cases (exec_decode_of_error hr).symm.trans h
    exact .inl ⟨_, rfl⟩

/-- Every command but DECODE changes nothing but STATUS when it raises (R215). -/
theorem exec_raises_of_ne_decode {i : Instr} {s t : State} (hi : i ≠ .decode) (h : exec i s = .next t)
    (hc : t.code ≠ .ok) : ∃ c, t = statusOnly s c := by
  cases i with
  | nop =>
    cases h
    exact absurd rfl hc
  | extract f =>
    cases h
    exact ⟨_, statusOnly_of_checked hc⟩
  | sext f =>
    cases h
    exact ⟨_, statusOnly_of_checked hc⟩
  | pack f =>
    cases h
    exact ⟨_, statusOnly_of_checked hc⟩
  | scale f =>
    cases h
    exact absurd rfl hc
  | route =>
    cases hr : s.routed with
    | error e =>
      cases (exec_route_of_error hr).symm.trans h
      exact ⟨e, rfl⟩
    | ok k =>
      cases (exec_route_of_ok hr).symm.trans h
      exact absurd rfl hc
  | decode => exact absurd rfl hi
  | encode kind =>
    rcases exec_encode_cases h with hok | ⟨e, -, ht⟩
    · exact absurd hok hc
    · exact ⟨e, ht⟩

end Sys2Proof.Machine

namespace Sys2Proof.Proofs

open Sys2Proof.Machine Sys2Proof.Safety

/-- Settles O12: a command that raises ends in a state that differs from the one it began in by STATUS alone, but for the
allocator's record of a call that failed. -/
theorem errorsChangeOnlyStatus : Obligations.ErrorsChangeOnlyStatus := by
  intro i s t h hc
  by_cases hi : i = .decode
  · subst hi
    rcases exec_decode_raises h hc with ⟨c, rfl⟩ | ⟨hd, calls, rfl⟩
    · exact ⟨rfl, fun _ => rfl⟩
    · exact ⟨rfl, fun hn => absurd ⟨rfl, hd, rfl⟩ hn⟩
  · obtain ⟨c, rfl⟩ := exec_raises_of_ne_decode hi h hc
    exact ⟨rfl, fun _ => rfl⟩

/-- Settles O31: the router's first error is the only source of UnknownMessage, and ENCODE does not ask the router. -/
theorem unknownMessageExactly : Obligations.UnknownMessageExactly := by
  intro s
  refine ⟨fun hid => ?_, fun hid t h hc => not_idKnown_of_unknownMessage h hc hid, fun kind t h => ?_⟩
  · have hr := State.routed_unknown hid
    exact ⟨exec_route_of_error hr, exec_decode_of_error hr⟩
  · rcases exec_encode_cases h with hok | ⟨e, hck, rfl⟩
    · simp [hok]
    · rcases State.encodeChecks_error hck with rfl | rfl | rfl <;> exact nofun

/-- Settles O32: the router's second error, after a lookup that found the ID, is the only source of LengthMismatch. -/
theorem lengthMismatchExactly : Obligations.LengthMismatchExactly := by
  intro s
  refine ⟨fun hid hn => ?_, fun k hk t h hc => ?_, fun hid t h hc => ?_⟩
  · have hr := State.routed_mismatch hid hn
    exact ⟨exec_route_of_error hr, exec_decode_of_error hr⟩
  · obtain ⟨-, hn⟩ := idKnown_and_not_namesMessage_of_lengthMismatch h hc
    exact hn k hk
  · obtain ⟨hknown, -⟩ := idKnown_and_not_namesMessage_of_lengthMismatch h hc
    exact hid hknown

/-- Settles O38: a DECODE with no base, in either mode, and an ENCODE whose last check fails raise ResourceFault. -/
theorem resourceFaultWhenRefused : Obligations.ResourceFaultWhenRefused := by
  intro s k
  refine ⟨fun hk hd ha => ?_, fun hk hd hn hfail => ?_, fun hk hp ha => ?_⟩
  · obtain ⟨hbase, hafter⟩ := State.resultBase_borrowed (n := s.countOf k) hd
    have hnone : s.resultBase (s.countOf k) = none := by rw [hbase, ha, if_neg Bool.false_ne_true]
    rw [exec_decode_of_no_base hk hnone, hafter]
  · obtain ⟨hbase, hafter⟩ := State.resultBase_owned hd hn
    rw [exec_decode_of_no_base hk (hbase.trans hfail), hafter]
    exact ⟨_, rfl⟩
  · exact exec_encode_of_error (State.encodeChecks_of_not_admitted hk hp ha)

end Sys2Proof.Proofs
end

section
/-! PROOFS of the family other, encoding: decoding and encoding are inverse to each other (R86 to R88, R97). -/

namespace Sys2Proof

/-- The word of DECODE is legal (R97, R120). -/
theorem decode_encodeFormatM_decode : decode (encodeFormatM 6 0) = .ok .decode := by
  have hop : bits (encodeFormatM 6 0) 0 4 = 6 := Laws.EncodeOpcode.formatM 6 0
  rw [decode, hop]
  exact decodeKindZero_encodeFormatM 6 .decode (by decide)

/-- Decoding the word of a well-formed command gives the command back (R97). -/
theorem decode_encode {i : Instr} (h : i.wellFormed = true) : decode (encode i) = .ok i := by
  cases i with
  | nop => decide
  | extract f => exact decode_encodeFormatF_extract h
  | sext f => exact decode_encodeFormatF_sext h
  | pack f => exact decode_encodeFormatF_pack h
  | scale f => exact decode_encodeFormatF_scale h
  | route => exact decode_encodeFormatM_route (kind := 0) (by decide)
  | decode => exact decode_encodeFormatM_decode
  | encode kind => exact decode_encodeFormatM_encode (of_decide_eq_true h)

/-- A single bit of a word as a number. -/
theorem toNat_getLsbD (w : Word) (i : Nat) : (w.getLsbD i).toNat = w.toNat / 2 ^ i % 2 := by
  rw [getLsbD_eq_div]
  have := Nat.mod_lt (w.toNat / 2 ^ i) (y := 2) (by decide)
  by_cases h : w.toNat / 2 ^ i % 2 = 1
  · simp [h]
  · simp only [h, decide_false, Bool.toNat_false]
    omega

/-- A legal format-F word is the word of the well-formed descriptor of its fields (R86). -/
theorem decodeFormatF_ok {w : Word} {mk : FieldDesc → Instr} {i : Instr} (h : decodeFormatF w mk = .ok i) :
    ∃ f, i = mk f ∧ f.wellFormed = true ∧ ∀ op : BitVec 4, bits w 0 4 = op.toNat → encodeFormatF op f = w := by
  unfold decodeFormatF at h
  split at h
  case isTrue => cases h
  case isFalse hres =>
    cases h
    simp only [bits_eq] at hres ⊢
    refine ⟨_, rfl, ?_, fun op hop => BitVec.eq_of_toNat_eq ?_⟩
    · simp only [FieldDesc.wellFormed, Bool.and_eq_true, decide_eq_true_eq]
      omega
    · have hw := w.isLt
      rw [toNat_encodeFormatF, ByteOrder.toBit_ofBit, toNat_getLsbD, toNat_getLsbD]
      dsimp only
      omega

/-- A legal format-M word of a command without a KIND is the word with KIND = 0 (R87, R96). -/
theorem decodeKindZero_ok {w : Word} {i j : Instr} (h : decodeKindZero w i = .ok j) :
    j = i ∧ ∀ op : BitVec 4, bits w 0 4 = op.toNat → encodeFormatM op 0 = w := by
  unfold decodeKindZero at h
  split at h
  case isTrue => cases h
  case isFalse hres =>
    split at h
    case isTrue => cases h
    case isFalse hkind =>
      cases h
      refine ⟨rfl, fun op hop => BitVec.eq_of_toNat_eq ?_⟩
      have hw := w.isLt
      rw [bits_eq] at hres hkind hop
      rw [toNat_encodeFormatM]
      omega

/-- A format-M word with its reserved bits zero is the word of its OP and its KIND (R87). -/
theorem encodeFormatM_bits {w : Word} {op : BitVec 4} (hres : bits w 20 12 = 0) (hop : bits w 0 4 = op.toNat) :
    encodeFormatM op (bits w 4 16) = w := by
  apply BitVec.eq_of_toNat_eq
  have hw := w.isLt
  rw [bits_eq] at hres hop
  rw [toNat_encodeFormatM, bits_eq]
  omega

/-- A legal word is the word of the well-formed command it decodes to (R97). -/
theorem encode_of_decode {w : Word} {i : Instr} (h : decode w = .ok i) : i.wellFormed = true ∧ encode i = w := by
  unfold decode at h
  split at h
  case h_1 =>
    split at h
    case isTrue hzero =>
      cases h
      exact ⟨rfl, hzero.symm⟩
    case isFalse => cases h
  case h_2 hop | h_3 hop | h_4 hop | h_5 hop =>
    obtain ⟨f, rfl, hwf, hword⟩ := decodeFormatF_ok h
    exact ⟨hwf, hword _ hop⟩
  case h_6 hop | h_7 hop =>
    obtain ⟨rfl, hword⟩ := decodeKindZero_ok h
    exact ⟨rfl, hword _ hop⟩
  case h_8 hop =>
    split at h
    case isTrue => cases h
    case isFalse hres =>
      cases h
      have hkind : bits w 4 16 < 65536 := by
        rw [bits_eq]
        omega
      exact ⟨decide_eq_true hkind, encodeFormatM_bits (not_not.mp hres) hop⟩
  case h_9 => cases h

end Sys2Proof

namespace Sys2Proof.Proofs

/-- Settles O1, by the cases of a command: each field comes back from where its format puts it. -/
theorem decodeAfterEncode : Obligations.DecodeAfterEncode :=
  fun _ => decode_encode

/-- Settles O2, opcode by opcode: the fields and the zero bits of a legal word make up the whole word. -/
theorem encodeAfterDecode : Obligations.EncodeAfterDecode :=
  fun _ _ => encode_of_decode

/-- Settles O4, by evaluating the decoder on the eight words. -/
theorem workedWordsDecode : Obligations.WorkedWordsDecode := by
  unfold Obligations.WorkedWordsDecode
  decide

end Sys2Proof.Proofs
end

section
/-! PROOFS of the family other, the machine: the invariant of every run, the end of a command and the arguments of a step
(R17, R45, R100, R221). -/

namespace Sys2Proof.Machine

open Sys2Proof.Safety

/-! ### The invariant in four parts -/

/-- Memory is canonical and lists only admitted bytes (R62). -/
def MemoryLawful (s : State) : Prop :=
  Memory.wf s.mem = true ∧ memoryInWindow s = true

/-- COUNT and MSGIDX hold what a ROM can give (R9, R29). -/
def CountersValid (s : State) : Prop :=
  s.count.toNat ≤ maxSignals s.plat.rom.msgs ∧ (s.msgIdx = 0 ∨ s.msgIdx.toNat < s.plat.rom.msgs.length)

/-- CMD reads the running word, and its command names no memory the host has not given (R36, R233). -/
def LatchLawful (s : State) : Prop :=
  (∀ w, s.latch = some w → s.cmd = w) ∧ s.namesUngiven = false

theorem inv_iff {s : State} : Inv s ↔ MemoryLawful s ∧ CountersValid s ∧ regionsLawful s ∧ LatchLawful s := by
  constructor
  · rintro ⟨hwf, hin, hcmd, hcount, hidx, hreg, hgiven⟩
    exact ⟨⟨hwf, hin⟩, ⟨hcount, hidx⟩, hreg, hcmd, hgiven⟩
  · rintro ⟨⟨hwf, hin⟩, ⟨hcount, hidx⟩, hreg, hcmd, hgiven⟩
    exact ⟨hwf, hin, hcmd, hcount, hidx, hreg, hgiven⟩

/-- An idle block runs no word (R43). -/
theorem latchLawful_of_idle {s : State} (h : s.latch = none) : LatchLawful s :=
  ⟨fun _ hw => absurd (h.symm.trans hw) nofun, State.namesUngiven_of_idle h⟩

/-- Whether the latched word is lawful depends on CMD, the word, its operands and what the host keeps. -/
theorem LatchLawful.congr {s t : State} (h : LatchLawful s) (hcmd : t.cmd = s.cmd) (hp : t.plat = s.plat)
    (hl : t.latch = s.latch) (hi : t.frameId = s.frameId) (hc : t.frameDlc = s.frameDlc) (hd : t.dest = s.dest)
    (hs : t.src = s.src) (hw : t.withheld = s.withheld) : LatchLawful t := by
  obtain ⟨hlatch, hgiven⟩ := h
  refine ⟨?_, (State.namesUngiven_congr hp hl hi hc hd hs hw).trans hgiven⟩
  rwa [hl, hcmd]

theorem inv_finish {s : State} (hm : MemoryLawful s) (hc : CountersValid s) (hr : regionsLawful s) {c : Code} :
    Inv (s.finish c) :=
  inv_iff.mpr ⟨hm, hc, hr, latchLawful_of_idle rfl⟩

/-- Finishing keeps the invariant when memory, COUNT, MSGIDX and the allocator's record are kept. -/
theorem inv_finish_of {s u : State} (h : Inv s) (hp : u.plat = s.plat) (hm : u.mem = s.mem) (hc : u.count = s.count)
    (hi : u.msgIdx = s.msgIdx) (ha : u.allocs = s.allocs) {c : Code} : Inv (u.finish c) := by
  obtain ⟨hmem, hcount, hreg, -⟩ := inv_iff.mp h
  refine inv_finish ?_ ?_ ?_
  · rwa [MemoryLawful, memoryInWindow, hm, hp]
  · rwa [CountersValid, hc, hi, hp]
  · rwa [regionsLawful, State.liveRegions, ha, hp]

/-! ### Memory -/

theorem MemoryLawful.writeBytes {s t : State} (h : MemoryLawful s) (hp : t.plat = s.plat) {a : Nat} {bs : List Byte}
    (ha : admitted s.plat.memWindow a bs.length = true) (hm : t.mem = s.mem.writeBytes a bs) : MemoryLawful t := by
  obtain ⟨hwf, hin⟩ := h
  refine ⟨hm ▸ Memory.wf_writeBytes hwf a bs, ?_⟩
  rw [memoryInWindow, hm, hp]
  exact Memory.all_writeBytes a bs hin fun j hj _ => (admitted_inWindow ha hj).1

theorem MemoryLawful.writeLE {s t : State} (h : MemoryLawful s) (hp : t.plat = s.plat) {a n v : Nat}
    (ha : admitted s.plat.memWindow a n = true) (hm : t.mem = s.mem.writeLE a n v) : MemoryLawful t :=
  h.writeBytes hp (by rwa [length_toBytesLE]) hm

/-- A DECODE writes its records where resultBase says, and that is admitted (R190). -/
theorem MemoryLawful.writeRecords {s t : State} (h : MemoryLawful s) (hp : t.plat = s.plat) {k base : Nat}
    (hb : s.resultBase (s.countOf k) = some base)
    (hm : t.mem = Machine.writeRecords s.mem base 0 (s.decodedRecords k)) : MemoryLawful t := by
  obtain ⟨hwf, hin⟩ := h
  refine ⟨hm ▸ wf_writeRecords hwf base 0 _, ?_⟩
  rw [memoryInWindow, hm, hp]
  refine all_writeRecords base 0 _ hin fun j _ hj _ => (admitted_inWindow (State.resultBase_admitted hb) ?_).1
  simpa using hj

/-! ### The counters -/

theorem toNat_ofNat_le (n k : Nat) : (BitVec.ofNat n k).toNat ≤ k := by
  rw [BitVec.toNat_ofNat]
  exact Nat.mod_le _ _

/-- COUNT after a command that iterated over message `k` (R120, R124). -/
theorem State.countOf_le_maxSignals (s : State) {k : Nat} (hk : k < s.plat.rom.msgs.length) :
    (BitVec.ofNat 32 (s.countOf k)).toNat ≤ maxSignals s.plat.rom.msgs :=
  (toNat_ofNat_le 32 _).trans (length_le_maxSignals (messageAt_mem hk))

/-- MSGIDX after a command that selected message `k` (R118, R120, R124). -/
theorem State.index_valid (s : State) {k : Nat} (hk : k < s.plat.rom.msgs.length) :
    BitVec.ofNat 32 k = 0 ∨ (BitVec.ofNat 32 k).toNat < s.plat.rom.msgs.length :=
  .inr ((toNat_ofNat_le 32 k).trans_lt hk)

/-! ### The allocator's regions -/

theorem overlaps_comm (r t : Span) : overlaps r t = overlaps t r := by
  rw [Bool.eq_iff_iff, overlaps_iff, overlaps_iff]
  omega

/-- A call of the allocator adds the region it answers to the live ones (R191). -/
theorem State.liveRegions_recordAlloc (s : State) (n : Nat) :
    (s.recordAlloc n).liveRegions = s.liveRegions ++ ((s.allocAnswer n).map fun a => ⟨a, n⟩).toList := by
  simp only [State.liveRegions, State.recordAlloc_allocs, List.filterMap_append, List.filterMap_cons,
    List.filterMap_nil, Bool.false_eq_true, if_false]
  cases s.allocAnswer n <;> rfl

theorem regionsLawful_recordAlloc {s : State} (h : regionsLawful s) (n : Nat) : regionsLawful (s.recordAlloc n) := by
  obtain ⟨hlaw, hdisj⟩ := h
  rw [regionsLawful, State.liveRegions_recordAlloc]
  cases ha : s.allocAnswer n with
  | none => simpa using ⟨hlaw, hdisj⟩
  | some a =>
    obtain ⟨hne, hadm, hclear⟩ := State.allocAnswer_lawful ha
    simp only [Option.map_some, Option.toList_some, List.mem_append, List.mem_singleton, List.pairwise_append,
      List.pairwise_singleton, State.recordAlloc_plat]
    refine ⟨?_, hdisj, trivial, ?_⟩
    · rintro r (hr | rfl)
      · exact hlaw r hr
      · exact ⟨hne, hadm⟩
    · rintro r hr _ rfl
      rw [overlaps_comm]
      exact hclear r hr

theorem regionsLawful_afterResultBase {s : State} (h : regionsLawful s) (n : Nat) :
    regionsLawful (s.afterResultBase n) := by
  rcases s.afterResultBase_cases n with ha | ⟨-, ha⟩
  · rwa [ha]
  · rw [ha]
    exact regionsLawful_recordAlloc h _

/-- A call of the allocator whose region the host still holds: not released, and not answered with FAIL (R191). -/
def liveRegion (c : AllocCall) : Option Span :=
  if c.released then none else c.answer.map fun a => ⟨a, c.bytes⟩

theorem State.liveRegions_eq (s : State) : s.liveRegions = s.allocs.filterMap liveRegion := rfl

/-- Of the live regions a release keeps those that start elsewhere (R194). -/
theorem liveRegions_releaseIn (a : Nat) (calls : List AllocCall) :
    (releaseIn a calls).filterMap liveRegion = (calls.filterMap liveRegion).filter fun r => decide (r.base ≠ a) := by
  rw [releaseIn, List.filterMap_map, List.filter_filterMap]
  refine List.filterMap_congr fun c _ => ?_
  obtain ⟨bytes, answer, released⟩ := c
  cases released <;> cases answer with
  | none => simp [liveRegion]
  | some b => by_cases hb : b = a <;> simp [liveRegion, hb, Option.filter]

theorem regionsLawful_of_sublist {s t : State} (h : regionsLawful s) (hp : t.plat = s.plat)
    (hl : t.liveRegions.Sublist s.liveRegions) : regionsLawful t := by
  obtain ⟨hlaw, hdisj⟩ := h
  exact ⟨fun r hr => hp ▸ hlaw r (hl.subset hr), hdisj.sublist hl⟩

/-! ### The commands -/

theorem inv_decodedAt {s : State} (h : Inv s) {k base : Nat} (hk : namesMessage s k)
    (hb : s.resultBase (s.countOf k) = some base) : Inv (s.decodedAt k base) := by
  obtain ⟨hm, -, hr, -⟩ := inv_iff.mp h
  have hplat : (s.decodedAt k base).plat = s.plat := State.afterResultBase_plat s _
  refine inv_iff.mpr ⟨hm.writeRecords hplat hb rfl, ?_, regionsLawful_afterResultBase hr _, latchLawful_of_idle rfl⟩
  rw [CountersValid, hplat]
  exact ⟨s.countOf_le_maxSignals hk.1, s.index_valid hk.1⟩

theorem inv_raise {s : State} (h : Inv s) (c : Code) : Inv (s.raise c) :=
  inv_finish_of h rfl rfl rfl rfl rfl

/-- A command that checks its field first and raises when the check fails (R203). -/
theorem inv_checked {s u : State} {b : Bool} {c e : Code} (h : Inv s) (hu : Inv (u.finish c)) :
    Inv (if b then u.finish c else s.raise e) := by
  split
  · exact hu
  · exact inv_raise h e

/-- Every command keeps the invariant. -/
theorem exec_keeps_inv {i : Instr} {s t : State} (h : Inv s) (hx : exec i s = .next t) : Inv t := by
  obtain ⟨hm, hc, hr, -⟩ := inv_iff.mp h
  cases i with
  | nop => cases hx; exact inv_raise h .ok
  | extract f => cases hx; apply inv_checked h; apply inv_finish_of h <;> rfl
  | sext f => cases hx; apply inv_checked h; apply inv_finish_of h <;> rfl
  | pack f => cases hx; apply inv_checked h; apply inv_finish_of h <;> rfl
  | scale f => cases hx; apply inv_finish_of h <;> rfl
  | route =>
    cases hk : s.routed with
    | error e =>
      cases (exec_route_of_error hk).symm.trans hx
      exact inv_raise h e
    | ok k =>
      cases (exec_route_of_ok hk).symm.trans hx
      have hidx := s.index_valid (State.routed_ok_iff.mp hk).1
      exact inv_finish (s := { s with msgIdx := BitVec.ofNat 32 k }) hm ⟨hc.1, hidx⟩ hr
  | decode =>
    rcases s.routed_cases with ⟨k, hk, -⟩ | ⟨-, hk⟩ | ⟨-, -, hk⟩
    · cases hb : s.resultBase (s.countOf k) with
      | some base =>
        cases (exec_decode_of_base hk hb).symm.trans hx
        exact inv_decodedAt h hk hb
      | none =>
        cases (exec_decode_of_no_base hk hb).symm.trans hx
        refine inv_finish (s := s.afterResultBase (s.countOf k)) ?_ ?_ (regionsLawful_afterResultBase hr _)
        · simpa [MemoryLawful, memoryInWindow] using hm
        · simpa [CountersValid] using hc
    · cases (exec_decode_of_error hk).symm.trans hx
      exact inv_raise h _
    · cases (exec_decode_of_error hk).symm.trans hx
      exact inv_raise h _
  | encode k =>
    cases hck : s.encodeChecks k with
    | error e =>
      cases (exec_encode_of_error hck).symm.trans hx
      exact inv_raise h e
    | ok =>
      cases (exec_encode_of_ok hck).symm.trans hx
      obtain ⟨hk, -, -⟩ := State.encodeChecks_ok_iff.mp hck
      exact inv_iff.mpr ⟨hm, ⟨s.countOf_le_maxSignals hk, s.index_valid hk⟩, hr, latchLawful_of_idle rfl⟩

theorem blockMoves_keeps_inv {s t : State} (h : Inv s) (hb : blockMoves s t) : Inv t := by
  rcases hb with ⟨-, rfl⟩ | ⟨w, r, -, -, rfl⟩ | ⟨w, i, -, -, hx⟩
  · exact h
  · exact inv_raise h _
  · exact exec_keeps_inv h hx

/-! ### The host -/

/-- A store to an RW register, or one to STATUS, latches nothing. -/
theorem State.regStore_latch_of_ne_cmd (s : State) {r : Reg} (v : Word) (h : r ≠ .cmd) :
    (s.regStore r v).latch = s.latch := by
  cases r <;> simp only [State.regStore]
  · exact absurd rfl h
  · split <;> rfl

/-- A host write to a register leaves the latched word lawful: while a command runs its operands are locked, and a word
that is accepted has been checked (R41, R233). -/
theorem latchLawful_regWrite {s : State} (h : LatchLawful s) {r : Reg} {v : Word}
    (ha : r = .cmd → s.busy = false → (s.accept v).namesUngiven = false) : LatchLawful (s.regWrite r v) := by
  cases hl : r.lockedWhileBusy with
  | false =>
    by_cases hr : r = .status
    · subst hr
      rw [State.regWrite_status]
      exact h
    · rwa [State.regWrite_of_ignored v hl hr]
  | true =>
    cases hb : s.busy with
    | true =>
      rw [State.regWrite_of_locked v hb hl]
      exact h
    | false =>
      have hw : s.regWrite r v = s.regStore r v := by simp [State.regWrite, hb]
      rw [hw]
      by_cases hr : r = .cmd
      · subst hr
        exact ⟨fun w hw => Option.some.inj hw, ha rfl hb⟩
      · apply latchLawful_of_idle
        rw [State.regStore_latch_of_ne_cmd s v hr]
        simpa [State.busy] using hb

theorem inv_regWrite {s : State} (h : Inv s) {r : Reg} {v : Word}
    (ha : r = .cmd → s.busy = false → (s.accept v).namesUngiven = false) : Inv (s.regWrite r v) := by
  obtain ⟨hm, hc, hr, hl⟩ := inv_iff.mp h
  refine inv_iff.mpr ⟨?_, ?_, ?_, latchLawful_regWrite hl ha⟩
  · simpa [MemoryLawful, memoryInWindow] using hm
  · simpa [CountersValid] using hc
  · simpa [regionsLawful, State.liveRegions] using hr

/-- What a DECODE cut short leaves outside the registers (R227): every byte it may have written lies in its region. -/
theorem memoryLawful_abandonDecode {s : State} (h : MemoryLawful s) (k : Nat) : MemoryLawful (s.abandonDecode k) := by
  unfold State.abandonDecode
  split
  · exact h
  · split
    case h_1 => simpa [MemoryLawful, memoryInWindow] using h
    case h_2 base hb =>
      refine h.writeBytes (State.afterResultBase_plat s _) (a := base) ?_ rfl
      rw [length_mixBytes]
      exact State.resultBase_admitted hb

theorem regionsLawful_abandonDecode {s : State} (h : regionsLawful s) (k : Nat) :
    regionsLawful (s.abandonDecode k) := by
  unfold State.abandonDecode
  split
  · exact h
  · split
    · exact regionsLawful_afterResultBase h _
    · exact regionsLawful_afterResultBase h _

theorem inv_reset {s : State} (h : Inv s) : Inv s.abandonLatched.resetRegisters := by
  obtain ⟨hm, -, hr, -⟩ := inv_iff.mp h
  have hkept : MemoryLawful s.abandonLatched ∧ regionsLawful s.abandonLatched := by
    rcases s.abandonLatched_cases with ha | ⟨w, k, -, -, -, ha⟩
    · rw [ha]
      exact ⟨hm, hr⟩
    · rw [ha]
      exact ⟨memoryLawful_abandonDecode hm k, regionsLawful_abandonDecode hr k⟩
  obtain ⟨hm', hr'⟩ := hkept
  exact inv_iff.mpr ⟨hm', ⟨Nat.zero_le _, .inl rfl⟩, hr', latchLawful_of_idle rfl⟩

/-- Every step keeps the invariant. -/
theorem step_keeps_inv {s t : State} (h : Inv s) (hs : step s = .next t) : Inv t := by
  obtain ⟨hm, hc, hr, hl⟩ := inv_iff.mp h
  have hpop : Inv s.popInput := inv_iff.mpr ⟨hm, hc, hr, hl.congr rfl rfl rfl rfl rfl rfl rfl rfl⟩
  rcases step_cases hs with hb | ⟨v, rfl⟩ | ⟨word, v, -, -, rfl, ha⟩ | ⟨addr, n, v, ha, rfl⟩ | ⟨addr, rfl⟩ |
    ⟨spans, rfl, hgiven⟩ | ⟨-, rfl⟩
  · exact blockMoves_keeps_inv hpop hb
  · exact inv_iff.mpr ⟨hm, hc, hr, hl.congr rfl rfl rfl rfl rfl rfl rfl rfl⟩
  · exact inv_regWrite hpop ha
  · exact inv_iff.mpr ⟨hm.writeLE rfl ha rfl, hc, hr, hl.congr rfl rfl rfl rfl rfl rfl rfl rfl⟩
  · refine inv_iff.mpr ⟨hm, hc, regionsLawful_of_sublist hr rfl ?_, hl.congr rfl rfl rfl rfl rfl rfl rfl rfl⟩
    rw [State.liveRegions_eq]
    exact liveRegions_releaseIn addr s.allocs ▸ List.filter_sublist
  · exact inv_iff.mpr ⟨hm, hc, hr, hl.1, hgiven⟩
  · exact inv_reset hpop

/-- The invariant holds after reset. -/
theorem inv_of_reset : Inv State.reset :=
  inv_iff.mpr ⟨⟨rfl, rfl⟩, ⟨Nat.zero_le _, .inl rfl⟩, ⟨nofun, .nil⟩, latchLawful_of_idle rfl⟩

/-! ### The block's turn -/

/-- The block's turn with a legal word in LATCH (R100). -/
theorem blockStep_of_legal {s : State} {w : Word} {i : Instr} (hl : s.latch = some w) (hd : decode w = .ok i) :
    blockStep s = exec i s := by
  simp only [blockStep, hl, hd]

/-- The block's turn with LATCH empty (R221). -/
theorem blockStep_of_idle {s : State} (hl : s.latch = none) : blockStep s = .next s := by
  simp only [blockStep, hl]

end Sys2Proof.Machine

namespace Sys2Proof.Proofs

open Sys2Proof.Machine Sys2Proof.Safety

/-- Settles O8, by the cases of a step: memory is written in admitted regions only, COUNT and MSGIDX come from a message of
the ROM, the allocator's answers are lawful, and a latched word was checked when it was accepted. -/
theorem stepKeepsInvariant : Obligations.StepKeepsInvariant :=
  fun _ _ => step_keeps_inv

/-- Settles O7: memory, the allocator's record and LATCH are empty after reset, and the counters 0. -/
theorem invariantHoldsAtReset : Obligations.InvariantHoldsAtReset :=
  inv_of_reset

/-- Settles O9: the frame of a command. -/
theorem everyCommandFinishes : Obligations.EveryCommandFinishes :=
  exec_finishes

/-- Settles O11: a step that goes on keeps the platform, so putting it back beside the next state changes nothing. -/
theorem parametersAreArguments : Obligations.ParametersAreArguments := by
  intro p d
  unfold stepUnder
  cases hs : step ⟨d, p⟩ with
  | next t =>
    have hp : t.plat = p := step_plat hs
    subst hp
    rfl
  | fault r => rfl
  | refused r => rfl

/-- Settles O5: no host action, or the action of waiting, gives the block its turn. -/
theorem stepRunsLatchedCommand : Obligations.StepRunsLatchedCommand := by
  intro s w i hl hd
  refine ⟨fun hi => ?_, fun rest hi => ?_, fun u hu hi => ?_⟩
  · rw [step_of_idle_host hi]
    exact blockStep_of_legal hl hd
  · rw [step_of_inputs hi]
    exact blockStep_of_legal (s := { s with inputs := rest }) hl hd
  · rw [step_of_idle_host hi]
    exact blockStep_of_idle hu

end Sys2Proof.Proofs
end

section
/-! PROOFS of the family other, fields: where they lie, and the laws of extracting and packing them (R143 to R149). -/

namespace Sys2Proof.Machine

open Sys2Proof.Safety

/-! ### Where a field lies -/

/-- An LE field goes up to its most significant bit, so it fits when that bit does (R143). -/
theorem fits_le_iff {s len n : Nat} (hs : s ≤ 63) (hpos : 1 ≤ len) (hle : len ≤ 64) :
    fits s len .le n = true ↔ (bitpos s len .le (len - 1)).1 < n := by
  simp only [fits, Bool.and_eq_true, decide_eq_true_eq, bitpos]
  omega

/-- A BE field goes on to its least significant bit, so it fits when that bit does (R143). -/
theorem fits_be_iff {s len n : Nat} (hs : s ≤ 63) (hpos : 1 ≤ len) (hle : len ≤ 64) :
    fits s len .be n = true ↔ (bitpos s len .be 0).1 < n := by
  simp only [fits, Bool.and_eq_true, decide_eq_true_eq, bitpos]
  omega

/-- In one byte value bit `k` of an LE field stands where it does in the BE field that starts at the other end (R149). -/
theorem bitpos_be_of_one_byte {s len k : Nat} (h : s / 8 = (s + len - 1) / 8) (hk : k < len) :
    bitpos (s + len - 1) len .be k = bitpos s len .le k := by
  simp only [bitpos, msb0, Prod.mk.injEq]
  omega

/-! ### Two values of one field -/

/-- Extraction depends on the bits of the field alone (R145). -/
theorem extract_congr {d e : FrameData} {s s' len : Nat} {ord ord' : ByteOrder} (hlen : len ≤ 64)
    (h : ∀ k, k < len → getBit d (bitpos s len ord k) = getBit e (bitpos s' len ord' k)) :
    extract d s len ord = extract e s' len ord' := by
  apply BitVec.eq_of_getLsbD_eq
  intro j _
  rw [getLsbD_extract _ _ _ _ hlen, getLsbD_extract _ _ _ _ hlen]
  by_cases hj : j < len
  · rw [h j hj]
  · simp [hj]

/-- A value is known by its bits: those of `v` below `len` and 0 from there on. -/
theorem toNat_eq_mod_of_getLsbD {x v : Raw} {len : Nat} (h : ∀ j, x.getLsbD j = (decide (j < len) && v.getLsbD j)) :
    x.toNat = v.toNat % 2 ^ len := by
  apply Nat.eq_of_testBit_eq
  intro j
  rw [Nat.testBit_mod_two_pow, BitVec.testBit_toNat, BitVec.testBit_toNat, h]

/-- Law 1 of R148: extracting what was packed gives its low `len` bits. -/
theorem toNat_extract_packField {s len : Nat} {ord : ByteOrder} (d : FrameData) (v : Raw)
    (h : fits s len ord 8 = true) : (extract (packField d s len ord v) s len ord).toNat = v.toNat % 2 ^ len := by
  obtain ⟨-, -, hlen⟩ := fits_range h
  refine toNat_eq_mod_of_getLsbD fun j => ?_
  rw [getLsbD_extract _ _ _ _ hlen]
  by_cases hj : j < len
  · rw [getBit_packField_of_pos h hj]
  · simp [hj]

/-- A frame that already holds the value in the field is not changed by packing it. -/
theorem packField_eq_self {s len : Nat} {ord : ByteOrder} {d : FrameData} {v : Raw} (h : fits s len ord 8 = true)
    (hv : ∀ k, k < len → v.getLsbD k = getBit d (bitpos s len ord k)) : packField d s len ord v = d := by
  apply frame_ext
  intro j b _ _
  by_cases hp : inField s len ord (j, b)
  · obtain ⟨k, hk, hkp⟩ := hp
    rw [← hkp, getBit_packField_of_pos h hk, hv k hk]
  · exact getBit_packField_of_not_pos fun k hk hkp => hp ⟨k, hk, hkp⟩

/-- Law 2 of R148: packing what was extracted changes nothing. -/
theorem packField_extract {s len : Nat} {ord : ByteOrder} (d : FrameData) (h : fits s len ord 8 = true) :
    packField d s len ord (extract d s len ord) = d := by
  obtain ⟨-, -, hlen⟩ := fits_range h
  refine packField_eq_self h fun k hk => ?_
  rw [getLsbD_extract _ _ _ _ hlen, decide_eq_true hk, Bool.true_and]

/-! ### Two fields -/

/-- A signal's value packed into the frame (R147). -/
def packSignal (d : FrameData) (g : SignalLayout) (v : Raw) : FrameData :=
  packField d g.startBit g.bitLength g.byteOrder v

/-- The packer touches the bits of its signal only (R148). -/
theorem getBit_packSignal_outside {g : SignalLayout} (d : FrameData) (v : Raw) {p : Nat × Nat} (h : ¬ inSignal g p) :
    getBit (packSignal d g v) p = getBit d p :=
  getBit_packField_of_not_pos fun k hk hkp => h ⟨k, hk, hkp⟩

/-- A bit of the signal is a bit of the value, whatever the frame was (R147). -/
theorem getBit_packSignal_inside {g : SignalLayout} (h : fits g.startBit g.bitLength g.byteOrder 8 = true)
    (d e : FrameData) (v : Raw) {p : Nat × Nat} (hp : inSignal g p) :
    getBit (packSignal d g v) p = getBit (packSignal e g v) p := by
  obtain ⟨k, hk, rfl⟩ := hp
  rw [packSignal, packSignal, getBit_packField_of_pos h hk, getBit_packField_of_pos h hk]

/-- Law 3 of R148: packing a signal does not change what is extracted from a disjoint one. -/
theorem extractSignal_packSignal_of_disjoint {g h : SignalLayout} (d : FrameData) (v : Raw)
    (hh : fits h.startBit h.bitLength h.byteOrder 8 = true) (hdis : disjointSignals g h) :
    extractSignal (packSignal d g v) h = extractSignal d h := by
  obtain ⟨-, -, hlen⟩ := fits_range hh
  exact extract_congr hlen fun k hk => getBit_packSignal_outside d v fun hg => hdis _ hg ⟨k, hk, rfl⟩

/-- Law 4 of R148: packing disjoint signals commutes. -/
theorem packSignal_comm {g h : SignalLayout} (d : FrameData) (v w : Raw)
    (hg : fits g.startBit g.bitLength g.byteOrder 8 = true) (hh : fits h.startBit h.bitLength h.byteOrder 8 = true)
    (hdis : disjointSignals g h) :
    packSignal (packSignal d g v) h w = packSignal (packSignal d h w) g v := by
  apply frame_ext
  intro j b _ _
  by_cases hinh : inSignal h (j, b)
  · have hnotg : ¬ inSignal g (j, b) := fun hing => hdis _ hing hinh
    rw [getBit_packSignal_outside _ v hnotg]
    exact getBit_packSignal_inside hh _ _ w hinh
  · rw [getBit_packSignal_outside _ w hinh]
    by_cases hing : inSignal g (j, b)
    · exact getBit_packSignal_inside hg _ _ v hing
    · rw [getBit_packSignal_outside d v hing, getBit_packSignal_outside _ v hing, getBit_packSignal_outside d w hinh]

end Sys2Proof.Machine

namespace Sys2Proof.Proofs

open Sys2Proof.Machine Sys2Proof.Safety

/-- Settles O16: a field fits when the last bit of its walk does, which is the most significant one of an LE field and the
least significant one of a BE field. -/
theorem fitsMeansInsideTheBytes : Obligations.FitsMeansInsideTheBytes := by
  intro s len ord n hs hpos hle
  refine ⟨⟨fun h k hk => (bitpos_bound h hk).1, fun h => ?_⟩, fun k k' hk hk' => bitpos_injective hk hk'⟩
  cases ord with
  | le => exact (fits_le_iff hs hpos hle).mpr (h _ (by omega))
  | be => exact (fits_be_iff hs hpos hle).mpr (h _ (by omega))

/-- Settles O17: both fields visit the same positions, and a byte has room for no more than 8 bits. -/
theorem oneByteFieldInBothOrders : Obligations.OneByteFieldInBothOrders :=
  fun _ _ _ _ hbyte => extract_congr (by omega) fun _ hk => by rw [bitpos_be_of_one_byte hbyte hk]

/-- Settles O21: the commands do what the extractor and the packer do, which are inverse to each other. -/
theorem extractAndPackAreInverse : Obligations.ExtractAndPackAreInverse :=
  fun _ s _ _ hfit =>
    ⟨⟨_, _, exec_pack_of_fits s hfit, exec_extract_of_fits _ hfit, toNat_extract_packField s.frameData s.raw hfit⟩,
      _, _, exec_extract_of_fits s hfit, exec_pack_of_fits _ hfit, packField_extract s.frameData hfit⟩

/-- Settles O22: a bit of the frame belongs to one of two disjoint signals at most, and its packer alone decides it. -/
theorem disjointFieldsAreIndependent : Obligations.DisjointFieldsAreIndependent :=
  fun _ _ d v w hg hh =>
    ⟨fun _ => getBit_packSignal_outside d v,
      fun hdis => ⟨extractSignal_packSignal_of_disjoint d v hh hdis, packSignal_comm d v w hg hh hdis⟩⟩

end Sys2Proof.Proofs
end

section
/-! PROOFS of the family other, the scaler: every operation on finite operands rounds its exact result once, and what
becomes of NaN, infinity and zero (R170, R172). -/

namespace Sys2Proof.Machine.F64

open Sys2Proof.Safety

/-! ### Kinds of patterns -/

/-- A pattern is finite, infinite or a NaN. -/
theorem isFinite_iff (x : F64) : isFinite x = true ↔ isNaN x = false ∧ isInf x = false := by
  simp only [isFinite, isNaN, isInf, decide_eq_true_eq, Bool.and_eq_false_iff, decide_eq_false_iff_not]
  tauto

theorem isZero_of_isInf {x : F64} (h : isInf x = true) : isZero x = false := by
  simp only [isInf, isZero, Bool.and_eq_true, decide_eq_true_eq, Bool.and_eq_false_iff, decide_eq_false_iff_not] at *
  omega

@[simp] theorem isInf_inf (neg : Bool) : isInf (inf neg) = true := by cases neg <;> decide

@[simp] theorem sign_inf (neg : Bool) : sign (inf neg) = neg := by cases neg <;> decide

@[simp] theorem isZero_zero (neg : Bool) : isZero (zero neg) = true := by cases neg <;> decide

@[simp] theorem sign_zero (neg : Bool) : sign (zero neg) = neg := by cases neg <;> decide

/-- Infinities of one sign are one pattern. -/
theorem eq_of_isInf {a b : F64} (ha : isInf a = true) (hb : isInf b = true) (h : sign a = sign b) : a = b := by
  rw [eq_inf ha, eq_inf hb, h]

/-! ### Signed numbers -/

/-- The number `n` under a sign. -/
def signed (neg : Bool) (n : Int) : Int :=
  if neg then -n else n

theorem units_eq_signed (x : F64) : units x = signed (sign x) (magnitude x) := rfl

theorem signed_signed (neg : Bool) (n : Int) : signed neg (signed neg n) = n := by
  cases neg <;> simp [signed]

theorem signed_mul (p q : Bool) (m n : Int) : signed p m * signed q n = signed (p != q) (m * n) := by
  cases p <;> cases q <;> simp [signed]

theorem signed_eq_iff {neg : Bool} {m n : Int} : signed neg m = signed neg n ↔ m = n := by
  cases neg <;> simp [signed]

theorem abs_signed (neg : Bool) (n : Int) : |signed neg n| = |n| := by
  cases neg <;> simp [signed]

/-- Distances do not depend on a common sign. -/
theorem abs_signed_mul_sub (neg : Bool) (a c m : Int) : |signed neg a * c - signed neg m| = |a * c - m| := by
  rw [← abs_signed neg (a * c - m)]
  cases neg
  · rfl
  · congr 1
    simp only [signed, if_true]
    ring

/-- A number is one of its absolute value, whatever sign zero has. -/
theorem eq_signed_natAbs {zeroNeg : Bool} (n : Int) :
    n = signed (if n = 0 then zeroNeg else decide (n < 0)) n.natAbs := by
  rcases lt_trichotomy n 0 with h | rfl | h
  · have hne : n ≠ 0 := by omega
    simp only [hne, h, signed, decide_true, if_true, if_false]
    omega
  · cases zeroNeg <;> rfl
  · have hne : n ≠ 0 := by omega
    have hnot : ¬ n < 0 := by omega
    simp only [hne, hnot, signed, decide_false, if_false, Bool.false_eq_true]
    omega

/-- A number with a sign that is not zero is negative exactly under a minus. -/
theorem sign_of_signed_ne_zero {neg : Bool} {m : Nat} (h : signed neg m ≠ 0) : neg = decide (signed neg m < 0) := by
  cases neg with
  | false => simp [signed]
  | true =>
    simp only [signed, if_true] at h ⊢
    symm
    rw [decide_eq_true_eq]
    omega

/-! ### Rounding once -/

theorem round_zero (neg : Bool) : round neg 0 = zero neg := by
  rw [round, roundLow_zero, zero]

/-- Rounding a number rounds its absolute value under its sign, zero having the sign it is given. -/
theorem roundInt_eq_round (zeroNeg : Bool) (n : Int) :
    roundInt zeroNeg n = round (if n = 0 then zeroNeg else decide (n < 0)) n.natAbs := by
  unfold roundInt
  split
  case isTrue h => rw [h, Int.natAbs_zero, round_zero]
  case isFalse => rfl

/-- `r` is the rounding of `exact`, in units of 2^-2148, under a sign of the exact number (R170). -/
def RoundingOf (exact : Int) (r : F64) : Prop :=
  ∃ (neg : Bool) (m : Nat), r = round neg m ∧ exact = signed neg m

theorem roundingOf_roundInt (zeroNeg : Bool) (n : Int) : RoundingOf n (roundInt zeroNeg n) :=
  ⟨_, n.natAbs, roundInt_eq_round zeroNeg n, eq_signed_natAbs n⟩

theorem natCast_shiftLeft (n k : Nat) : ((n <<< k : Nat) : Int) = n * 2 ^ k := by
  rw [Nat.shiftLeft_eq, Nat.cast_mul, Nat.cast_pow, Nat.cast_ofNat]

theorem natCast_one_shiftLeft (k : Nat) : ((1 <<< k : Nat) : Int) = 2 ^ k := by
  rw [natCast_shiftLeft, Nat.cast_one, one_mul]

theorem toF64u_eq (x : Raw) : toF64u x = roundInt false ((x.toNat : Int) * 2 ^ 2148) := by
  rw [toF64u, natCast_shiftLeft]

theorem toF64s_eq (x : Raw) : toF64s x = roundInt false (x.toInt * 2 ^ 2148) := by
  rw [toF64s, natCast_one_shiftLeft]

/-- The product of finite operands (R170). -/
theorem mulF64_of_finite {a b : F64} (ha : isFinite a = true) (hb : isFinite b = true) :
    mulF64 a b = round (sign a != sign b) (magnitude a * magnitude b) := by
  obtain ⟨hna, hia⟩ := (isFinite_iff a).mp ha
  obtain ⟨hnb, hib⟩ := (isFinite_iff b).mp hb
  simp only [mulF64, hna, hnb, hia, hib, Bool.or_self, Bool.false_eq_true, if_false]

/-- The sum of finite operands (R170). -/
theorem addF64_of_finite {a b : F64} (ha : isFinite a = true) (hb : isFinite b = true) :
    addF64 a b = roundInt (sign a && sign b) ((units a + units b) * 2 ^ 1074) := by
  obtain ⟨hna, hia⟩ := (isFinite_iff a).mp ha
  obtain ⟨hnb, hib⟩ := (isFinite_iff b).mp hb
  simp only [addF64, hna, hnb, hia, hib, Bool.or_self, Bool.false_eq_true, if_false, natCast_one_shiftLeft]

/-- The fused product and sum of finite operands (R170). -/
theorem fmaF64_of_finite {a b c : F64} (ha : isFinite a = true) (hb : isFinite b = true) (hc : isFinite c = true) :
    fmaF64 a b c =
      roundInt ((sign a != sign b) && sign c) (units a * units b + units c * 2 ^ 1074) := by
  obtain ⟨hna, hia⟩ := (isFinite_iff a).mp ha
  obtain ⟨hnb, hib⟩ := (isFinite_iff b).mp hb
  obtain ⟨hnc, hic⟩ := (isFinite_iff c).mp hc
  simp only [fmaF64, hna, hnb, hnc, hia, hib, hic, Bool.or_self, Bool.false_eq_true, if_false, natCast_one_shiftLeft]

/-- The exact product as a signed number. -/
theorem units_mul_units (a b : F64) :
    units a * units b = signed (sign a != sign b) ((magnitude a * magnitude b : Nat) : Int) := by
  rw [units_eq_signed, units_eq_signed, signed_mul, Nat.cast_mul]

/-- Every operation of the scaler on finite operands rounds its exact result once (R170). -/
theorem roundingOf_finiteOperation {exact : Int} {r : F64} (h : finiteOperation exact r) : RoundingOf exact r := by
  rcases h with ⟨x, ⟨hr, he⟩ | ⟨hr, he⟩⟩ | ⟨a, b, ha, hb, ⟨hr, he⟩ | ⟨hr, he⟩⟩ | ⟨a, b, c, ha, hb, hc, hr, he⟩
  · rw [hr, he, toF64u_eq]
    exact roundingOf_roundInt _ _
  · rw [hr, he, toF64s_eq]
    exact roundingOf_roundInt _ _
  · exact ⟨_, _, hr.trans (mulF64_of_finite ha hb), he.trans (units_mul_units a b)⟩
  · rw [hr, he, addF64_of_finite ha hb]
    exact roundingOf_roundInt _ _
  · rw [hr, he, fmaF64_of_finite ha hb hc]
    exact roundingOf_roundInt _ _

/-! ### The nearest pattern -/

/-- The value of a rounded pattern. -/
theorem units_round (neg : Bool) (m : Nat) : units (round neg m) = signed neg (magnitude (round neg m)) := by
  rw [units_eq_signed, sign_round]

/-- The value of a pattern, under any sign, is its magnitude or minus its magnitude. -/
theorem signed_units (neg : Bool) (y : F64) :
    signed neg (units y) = magnitude y ∨ signed neg (units y) = -(magnitude y : Int) := by
  rw [units_eq_signed]
  cases neg <;> cases sign y <;> simp [signed]

/-- A rounding that is finite is the nearest finite pattern, and has an even fraction when another is as near (R170). -/
theorem RoundingOf.nearest {exact : Int} {r : F64} (h : RoundingOf exact r) (hr : isFinite r = true) (y : F64) :
    |units r * 2 ^ 1074 - exact| ≤ |units y * 2 ^ 1074 - exact| ∧
      (|units r * 2 ^ 1074 - exact| = |units y * 2 ^ 1074 - exact| → units y ≠ units r → fraction r % 2 = 0) := by
  obtain ⟨neg, m, rfl, rfl⟩ := h
  obtain ⟨hle, heven⟩ := round_nearest hr y (signed_units neg y)
  have hy : units y = signed neg (signed neg (units y)) := (signed_signed neg _).symm
  rw [units_round, abs_signed_mul_sub, hy, abs_signed_mul_sub]
  exact ⟨hle, fun heq hne => heven heq fun h => hne (signed_eq_iff.mpr h)⟩

/-! ### Exact conversions -/

/-- What is a multiple of the last place is its own rounding. -/
theorem roundQuot_of_dvd {m d : Nat} (h : 2 ^ d ∣ m) : roundQuot m d * 2 ^ d = m := by
  have hpos : 0 < 2 ^ d := by positivity
  have hmod := Nat.mod_eq_zero_of_dvd h
  rcases roundQuot_cases m d with ⟨hq, -, -⟩ | ⟨-, hup, -⟩
  · rw [hq, Nat.div_mul_cancel h]
  · omega

/-- Of a whole number of up to 2^53, in units above the smallest, rounding drops no set bit. -/
theorem two_pow_dropBits_dvd {n : Nat} (j : Nat) (h : n ≤ 2 ^ 53) :
    2 ^ dropBits (n * 2 ^ (1074 + j)) ∣ n * 2 ^ (1074 + j) := by
  rcases Nat.eq_zero_or_pos n with rfl | hpos
  · rw [Nat.zero_mul]
    exact Nat.dvd_zero _
  rcases Nat.lt_or_eq_of_le h with hlt | rfl
  · have hlog : Nat.log2 (n * 2 ^ (1074 + j)) < 53 + (1074 + j) := by
      rw [Nat.log2_lt (Nat.mul_pos hpos (Nat.two_pow_pos _)).ne', Nat.pow_add 2 53]
      exact Nat.mul_lt_mul_of_pos_right hlt (Nat.two_pow_pos _)
    have hdrop : dropBits (n * 2 ^ (1074 + j)) ≤ 1074 + j := by
      unfold dropBits
      omega
    exact (Nat.pow_dvd_pow 2 hdrop).trans (Nat.dvd_mul_left _ _)
  · rw [← Nat.pow_add]
    refine Nat.pow_dvd_pow 2 ?_
    rw [dropBits, Nat.log2_two_pow]
    omega

/-- A whole number of up to 2^53 of the units of 2^(j - 1074) is a finite pattern, for every exponent `j` of a finite one
(R170). -/
theorem round_of_small (neg : Bool) {n j : Nat} (h : n ≤ 2 ^ 53) (hj : j ≤ 2044) :
    isFinite (round neg (n * 2 ^ (1074 + j))) = true ∧ magnitude (round neg (n * 2 ^ (1074 + j))) = n * 2 ^ j := by
  have hfin : isFinite (round neg (n * 2 ^ (1074 + j))) = true := by
    refine (isFinite_iff _).mpr ⟨isNaN_round _ _, Bool.eq_false_iff.mpr fun hinf => ?_⟩
    have hlarge := (isInf_round _ _).mp hinf
    have hexp : 1074 + j ≤ 970 + 2148 := by omega
    have hpow := Nat.pow_le_pow_right Nat.two_pos hexp
    have hpos := Nat.two_pow_pos (970 + 2148)
    generalize 2 ^ (970 + 2148) = unit at *
    have hsmall := Nat.mul_le_mul h hpow
    omega
  obtain ⟨hmag, -⟩ := magnitude_round hfin
  rw [roundQuot_of_dvd (two_pow_dropBits_dvd j h)] at hmag
  refine ⟨hfin, Nat.mul_right_cancel (Nat.two_pow_pos 1074) ?_⟩
  rw [hmag, Nat.mul_assoc, ← Nat.pow_add, Nat.add_comm 1074]

/-- A number of magnitude up to 2^53 is converted exactly (R170). -/
theorem roundInt_of_small {n : Int} {j : Nat} (h : n.natAbs ≤ 2 ^ 53) (hj : j ≤ 2044) :
    isFinite (roundInt false (n * 2 ^ (1074 + j))) = true ∧
      units (roundInt false (n * 2 ^ (1074 + j))) = n * 2 ^ j := by
  have hpos : (0 : Int) < 2 ^ (1074 + j) := by positivity
  have habs : (n * 2 ^ (1074 + j)).natAbs = n.natAbs * 2 ^ (1074 + j) := by
    rw [Int.natAbs_mul, Int.natAbs_pow]
    rfl
  have hsign : (if n * 2 ^ (1074 + j) = 0 then false else decide (n * 2 ^ (1074 + j) < 0)) = decide (n < 0) := by
    rcases lt_trichotomy n 0 with hn | rfl | hn
    · have hneg := mul_neg_of_neg_of_pos hn hpos
      simp [hneg, hneg.ne, hn]
    · simp
    · have hnonneg := mul_pos hn hpos
      simp [hnonneg.ne', hnonneg.not_gt, hn.not_gt]
  obtain ⟨hfin, hmag⟩ := round_of_small (decide (n < 0)) h hj
  rw [roundInt_eq_round, hsign, habs, units_round, hmag]
  refine ⟨hfin, ?_⟩
  by_cases hn : n < 0
  · have habs' : (n.natAbs : Int) = -n := by omega
    simp [signed, hn, habs']
  · have habs' : (n.natAbs : Int) = n := by omega
    simp [signed, hn, habs']

/-! ### Overflow -/

/-- When a rounding overflows: exactly from half a last place above the largest finite number on (R170). -/
theorem RoundingOf.isInf_iff {exact : Int} {r : F64} (h : RoundingOf exact r) :
    isInf r = true ↔ (2 ^ 54 - 1) * 2 ^ (970 + 2148) ≤ |exact| := by
  obtain ⟨neg, m, rfl, rfl⟩ := h
  rw [isInf_round, abs_signed, Nat.abs_cast, ← Nat.cast_le (α := Int), Nat.cast_mul, Nat.cast_pow, Nat.cast_ofNat]
  norm_num only

theorem RoundingOf.isNaN_eq_false {exact : Int} {r : F64} (h : RoundingOf exact r) : isNaN r = false := by
  obtain ⟨neg, m, rfl, -⟩ := h
  exact isNaN_round neg m

/-- A rounding of a number other than zero has its sign (R172). -/
theorem RoundingOf.sign_eq {exact : Int} {r : F64} (h : RoundingOf exact r) (hne : exact ≠ 0) :
    sign r = decide (exact < 0) := by
  obtain ⟨neg, m, rfl, rfl⟩ := h
  rw [sign_round]
  exact sign_of_signed_ne_zero hne

/-! ### NaN, infinity and zero -/

theorem isNaN_mulF64_iff (a b : F64) : isNaN (mulF64 a b) = true ↔
    isNaN a = true ∨ isNaN b = true ∨ (isInf a = true ∧ isZero b = true) ∨ (isZero a = true ∧ isInf b = true) := by
  have hza := isZero_of_isInf (x := a)
  have hzb := isZero_of_isInf (x := b)
  unfold mulF64
  split
  · rw [isNaN_nanMark]
    grind
  · split
    · split
      · rw [isNaN_nanMark]
        grind
      · rw [isNaN_inf]
        grind
    · rw [isNaN_round]
      grind

theorem isNaN_addF64_iff (a b : F64) : isNaN (addF64 a b) = true ↔
    isNaN a = true ∨ isNaN b = true ∨ (isInf a = true ∧ isInf b = true ∧ sign a ≠ sign b) := by
  unfold addF64
  split
  · rw [isNaN_nanMark]
    grind
  · split
    · split
      · rw [isNaN_nanMark]
        grind
      · grind
    · split
      · grind
      · rw [isNaN_roundInt]
        grind

theorem isNaN_fmaF64_iff (a b c : F64) : isNaN (fmaF64 a b c) = true ↔
    isNaN a = true ∨ isNaN b = true ∨ isNaN c = true ∨
      (isInf a = true ∧ isZero b = true) ∨ (isZero a = true ∧ isInf b = true) ∨
      ((isInf a = true ∨ isInf b = true) ∧ isInf c = true ∧ sign c ≠ (sign a != sign b)) := by
  have hza := isZero_of_isInf (x := a)
  have hzb := isZero_of_isInf (x := b)
  unfold fmaF64
  split
  · rw [isNaN_nanMark]
    grind
  · split
    · split
      · rw [isNaN_nanMark]
        grind
      · split
        · rw [isNaN_nanMark]
          grind
        · rw [isNaN_inf]
          grind
    · split
      · grind
      · rw [isNaN_roundInt]
        grind

theorem roundInt_zero (zeroNeg : Bool) : roundInt zeroNeg 0 = zero zeroNeg := if_pos rfl

/-- The magnitudes multiply to 0 when the values do. -/
theorem magnitude_mul_of_zero {a b : F64} (h : units a * units b = 0) : magnitude a * magnitude b = 0 := by
  rw [units_mul_units, show (0 : Int) = signed (sign a != sign b) 0 by cases sign a != sign b <;> rfl,
    signed_eq_iff] at h
  exact_mod_cast h

/-- A result that is no NaN passed the check before it. -/
theorem ite_nanMark {p : Prop} [Decidable p] {x : F64} (h : isNaN (if p then nanMark else x) = false) :
    (if p then nanMark else x) = x := by
  split at h
  · rw [isNaN_nanMark] at h
    cases h
  · rw [if_neg ‹_›]

/-- A valid product with an infinite factor (R172). -/
theorem mulF64_of_isInf {a b : F64} (hn : isNaN (mulF64 a b) = false) (h : isInf a = true ∨ isInf b = true) :
    mulF64 a b = inf (sign a != sign b) := by
  unfold mulF64 at hn ⊢
  have hpassed := ite_nanMark hn
  rw [hpassed, if_pos (Bool.or_eq_true _ _ ▸ h)] at hn ⊢
  exact ite_nanMark hn

/-- A valid sum with an infinite first term (R172). -/
theorem addF64_of_isInf_left {a b : F64} (hn : isNaN (addF64 a b) = false) (h : isInf a = true) : addF64 a b = a := by
  unfold addF64 at hn ⊢
  have hpassed := ite_nanMark hn
  rw [hpassed, if_pos h] at hn ⊢
  exact ite_nanMark hn

/-- A valid sum with an infinite second term (R172): an infinite first term has the same sign. -/
theorem addF64_of_isInf_right {a b : F64} (hn : isNaN (addF64 a b) = false) (h : isInf b = true) : addF64 a b = b := by
  by_cases ha : isInf a = true
  · have hsign : sign a = sign b := by
      by_contra hne
      exact absurd ((isNaN_addF64_iff a b).mpr (.inr (.inr ⟨ha, h, hne⟩))) (Bool.eq_false_iff.mp hn)
    rw [addF64_of_isInf_left hn ha, eq_of_isInf ha h hsign]
  · unfold addF64 at hn ⊢
    rw [ite_nanMark hn, if_neg ha, if_pos h]

/-- A valid fused product and sum with an infinite factor (R172). -/
theorem fmaF64_of_isInf_factor {a b c : F64} (hn : isNaN (fmaF64 a b c) = false)
    (h : isInf a = true ∨ isInf b = true) : fmaF64 a b c = inf (sign a != sign b) := by
  unfold fmaF64 at hn ⊢
  have hpassed := ite_nanMark hn
  rw [hpassed, if_pos (Bool.or_eq_true _ _ ▸ h)] at hn ⊢
  have hproduct := ite_nanMark hn
  rw [hproduct] at hn ⊢
  exact ite_nanMark hn

/-- A valid fused product and sum with an infinite addend (R172): an infinite product has the same sign. -/
theorem fmaF64_of_isInf_addend {a b c : F64} (hn : isNaN (fmaF64 a b c) = false) (h : isInf c = true) :
    fmaF64 a b c = c := by
  by_cases hfactor : isInf a = true ∨ isInf b = true
  · have hsign : sign c = (sign a != sign b) := by
      by_contra hne
      exact absurd ((isNaN_fmaF64_iff a b c).mpr (.inr (.inr (.inr (.inr (.inr ⟨hfactor, h, hne⟩))))))
        (Bool.eq_false_iff.mp hn)
    rw [fmaF64_of_isInf_factor hn hfactor, ← hsign, ← eq_inf h]
  · unfold fmaF64 at hn ⊢
    rw [ite_nanMark hn, if_neg (Bool.or_eq_true _ _ ▸ hfactor), if_pos h]

end Sys2Proof.Machine.F64

namespace Sys2Proof.Proofs

open Sys2Proof.Machine Sys2Proof.Safety

/-- Settles O24: the scaler marks a NaN on exactly the invalid operations, and rounding gives none. -/
theorem nanResultsAreTheInvalidOperations : Obligations.NanResultsAreTheInvalidOperations := by
  refine ⟨F64.isNaN_mulF64_iff, F64.isNaN_addF64_iff, F64.isNaN_fmaF64_iff, fun x => ?_⟩
  rw [F64.toF64s_eq, F64.toF64u_eq]
  exact ⟨F64.isNaN_roundInt _ _, F64.isNaN_roundInt _ _⟩

/-- Settles O25: a number of up to 53 bits, or 2^53 itself, has no bit below the last place of its rounding. -/
theorem smallIntegersConvertExactly : Obligations.SmallIntegersConvertExactly := by
  intro x
  rw [F64.toF64s_eq, F64.toF64u_eq, show 2148 = 1074 + 1074 from rfl]
  exact ⟨fun h => F64.roundInt_of_small h (by decide), fun h => F64.roundInt_of_small h (by decide)⟩

/-- Settles O26: every operation rounds its exact result once, and that rounding is the nearest. -/
theorem scalerRoundsToNearestEven : Obligations.ScalerRoundsToNearestEven :=
  fun _ _ hfin hop y _ => (F64.roundingOf_finiteOperation hop).nearest hfin y

/-- Settles O27: every operation rounds its exact result once; the rounding is no NaN, is infinite from the threshold on, and
keeps the sign. -/
theorem scalerOverflowsToInfinity : Obligations.ScalerOverflowsToInfinity := by
  intro exact r hop
  have hround := F64.roundingOf_finiteOperation hop
  refine ⟨hround.isNaN_eq_false, hround.isInf_iff, ?_, hround.sign_eq⟩
  rw [F64.isFinite_iff, ← not_le, ← hround.isInf_iff, Bool.not_eq_true]
  exact and_iff_right hround.isNaN_eq_false

/-- Settles O28: an exact zero is rounded to the zero of the sign the operation gives it. -/
theorem scalerSignOfZero : Obligations.ScalerSignOfZero := by
  refine ⟨fun x r hx hr => ?_, fun a b ha hb => ⟨fun h => ?_, fun h => ?_⟩, fun a b c ha hb hc h => ?_⟩
  · have hzero : r = F64.zero false := by
      subst hx
      rcases hr with rfl | rfl
      · rw [F64.toF64u_eq]
        exact if_pos (zero_mul _)
      · rw [F64.toF64s_eq]
        exact if_pos (zero_mul _)
    rw [hzero]
    exact ⟨F64.isZero_zero _, F64.sign_zero _⟩
  · rw [F64.mulF64_of_finite ha hb, F64.magnitude_mul_of_zero h, F64.round_zero]
    exact ⟨F64.isZero_zero _, F64.sign_zero _⟩
  · rw [F64.addF64_of_finite ha hb, h, zero_mul, F64.roundInt_zero]
    exact ⟨F64.isZero_zero _, F64.sign_zero _⟩
  · rw [F64.fmaF64_of_finite ha hb hc, h, F64.roundInt_zero]
    exact ⟨F64.isZero_zero _, F64.sign_zero _⟩

/-- Settles O29: past the NaN checks an infinite operand decides the result. -/
theorem scalerCarriesInfinity : Obligations.ScalerCarriesInfinity := by
  refine ⟨fun a b hn h => ?_, fun a b hn => ⟨F64.addF64_of_isInf_left hn, F64.addF64_of_isInf_right hn⟩,
    fun a b c hn => ⟨fun h => ?_, F64.fmaF64_of_isInf_addend hn⟩⟩
  · rw [F64.mulF64_of_isInf hn h]
    exact ⟨F64.isInf_inf _, F64.sign_inf _⟩
  · rw [F64.fmaF64_of_isInf_factor hn h]
    exact ⟨F64.isInf_inf _, F64.sign_inf _⟩

end Sys2Proof.Proofs
end

section
/-! PROOFS of the family other, messages: the signal numbering, what a DECODE reads and writes, and how ENCODE and DECODE
belong together (R32, R119 to R130, R185 to R195). -/

namespace Sys2Proof.Machine

open Sys2Proof.Safety

/-! ### The signal numbering -/

/-- The signals of the first message come first (R32). -/
theorem sigref_cons_zero (m : MessageLayout) (msgs : List MessageLayout) (i : Nat) : sigref (m :: msgs) 0 i = i := by
  simp [sigref]

/-- The signals of the later messages come after those of the first (R32). -/
theorem sigref_cons_succ (m : MessageLayout) (msgs : List MessageLayout) (k i : Nat) :
    sigref (m :: msgs) (k + 1) i = m.sigs.length + sigref msgs k i := by
  simp [sigref, signalCounts, Nat.add_assoc]

/-- Every number below the count of all signals is the SIGREF of a signal (R32). -/
theorem exists_sigref_eq {msgs : List MessageLayout} {n : Nat} (h : n < (signalCounts msgs).sum) :
    ∃ k i, k < msgs.length ∧ i < (messageAt msgs k).sigs.length ∧ sigref msgs k i = n := by
  induction msgs generalizing n with
  | nil => simp [signalCounts] at h
  | cons m msgs ih =>
    simp only [signalCounts, List.map_cons, List.sum_cons] at h
    by_cases hn : n < m.sigs.length
    · exact ⟨0, n, by simp, hn, sigref_cons_zero m msgs n⟩
    · obtain ⟨k, i, hk, hi, href⟩ := ih (n := n - m.sigs.length) (by simp only [signalCounts]; omega)
      refine ⟨k + 1, i, by simpa using hk, hi, ?_⟩
      rw [sigref_cons_succ, href]
      omega

/-- SIGREF rises from one message to every later one (R32). -/
theorem sigref_lt_of_lt_message {msgs : List MessageLayout} {k k' i i' : Nat} (hk' : k' < msgs.length)
    (hi : i < (messageAt msgs k).sigs.length) (h : k < k') : sigref msgs k i < sigref msgs k' i' := by
  induction msgs generalizing k k' with
  | nil => simp at hk'
  | cons m msgs ih =>
    obtain ⟨k', rfl⟩ : ∃ j, k' = j + 1 := ⟨k' - 1, by omega⟩
    rw [sigref_cons_succ]
    cases k with
    | zero =>
      rw [sigref_cons_zero]
      exact Nat.lt_add_right _ hi
    | succ k =>
      rw [sigref_cons_succ]
      exact Nat.add_lt_add_left (ih (by simpa using hk') hi (by omega)) _

/-! ### What a DECODE reads -/

/-- The value of a signal depends on the bytes of its message alone (R119). -/
theorem decodeSignal_congr {fused : Bool} {draw : F64} {d e : FrameData} {g : SignalLayout} {n : Nat}
    (hfit : fits g.startBit g.bitLength g.byteOrder n = true) (h : ∀ j, j < n → d.getD j 0 = e.getD j 0) :
    decodeSignal fused draw d g = decodeSignal fused draw e g := by
  obtain ⟨-, -, hlen⟩ := fits_range hfit
  rw [decodeSignal, decodeSignal, extract_congr hlen]
  intro k hk
  rw [getBit, getBit, h _ (bitpos_bound hfit hk).1]

theorem recordImages_congr {fused : Bool} {msgs : List MessageLayout} {k draw i : Nat} {d e : FrameData}
    {gs : List SignalLayout} (h : ∀ g ∈ gs, ∀ x, decodeSignal fused x d g = decodeSignal fused x e g) :
    recordImages fused msgs k draw d i gs = recordImages fused msgs k draw e i gs := by
  induction gs generalizing i with
  | nil => rfl
  | cons g gs ih =>
    rw [recordImages, recordImages, h g (by simp), ih fun g' hg' => h g' (by simp [hg'])]

/-! ### Changes a DECODE does not see

`u` changes the state in a field that a command does not look at; it may be done before or after the command. -/

theorem State.afterResultBase_commutes {u : State → State} {s : State} {n : Nat}
    (hask : (u s).consultsAllocator n = s.consultsAllocator n)
    (hrecord : (u s).recordAlloc (16 * n) = u (s.recordAlloc (16 * n))) :
    (u s).afterResultBase n = u (s.afterResultBase n) := by
  unfold State.afterResultBase
  rw [hask, hrecord]
  split <;> rfl

/-- A DECODE commutes with a change that the router, the base and the records do not see, and that neither the end of a
command nor the record of a call touches (R120). -/
theorem exec_decode_commutes {u : State → State} {s t : State} (hrouted : (u s).routed = s.routed)
    (hbase : ∀ k, (u s).resultBase ((u s).countOf k) = s.resultBase (s.countOf k))
    (hat : ∀ k base, namesMessage s k → (u s).decodedAt k base = u (s.decodedAt k base))
    (hafter : ∀ k, (u s).afterResultBase ((u s).countOf k) = u (s.afterResultBase (s.countOf k)))
    (herror : ∀ v c, statusOnly (u v) c = u (statusOnly v c)) (h : exec .decode s = .next t) :
    exec .decode (u s) = .next (u t) := by
  cases hr : s.routed with
  | error e =>
    cases (exec_decode_of_error hr).symm.trans h
    rw [exec_decode_of_error (hrouted.trans hr), herror]
  | ok k =>
    have hk := State.routed_ok_iff.mp hr
    have hk' := State.routed_ok_iff.mp (hrouted.trans hr)
    cases hb : s.resultBase (s.countOf k) with
    | some base =>
      cases (exec_decode_of_base hk hb).symm.trans h
      rw [exec_decode_of_base hk' ((hbase k).trans hb), hat k base hk]
    | none =>
      cases (exec_decode_of_no_base hk hb).symm.trans h
      rw [exec_decode_of_no_base hk' ((hbase k).trans hb), hafter, herror]

/-- The frame, replaced. -/
def State.withFrame (d : FrameData) (s : State) : State :=
  { s with frameData := d }

theorem State.afterResultBase_withFrame (s : State) (d : FrameData) (n : Nat) :
    (s.withFrame d).afterResultBase n = (s.afterResultBase n).withFrame d :=
  State.afterResultBase_commutes rfl rfl

/-- The records of a message depend on the frame's bytes below its length alone (R24, R119). -/
theorem State.decodedRecords_withFrame {s : State} {k : Nat} (hk : k < s.plat.rom.msgs.length) {d : FrameData}
    (h : ∀ j, j < (messageAt s.plat.rom.msgs k).byteLength → d.getD j 0 = s.frameData.getD j 0) :
    (s.withFrame d).decodedRecords k = s.decodedRecords k :=
  recordImages_congr fun g hg _ => decodeSignal_congr ((s.message_facts hk).2.2.2 g hg) h

/-- A DECODE that succeeds does the same with other bytes beyond the message's length (R119). -/
theorem State.decodedAt_withFrame {s : State} {k : Nat} (base : Nat) (hk : k < s.plat.rom.msgs.length) {d : FrameData}
    (h : ∀ j, j < (messageAt s.plat.rom.msgs k).byteLength → d.getD j 0 = s.frameData.getD j 0) :
    (s.withFrame d).decodedAt k base = (s.decodedAt k base).withFrame d := by
  have hcount : (s.withFrame d).countOf k = s.countOf k := rfl
  unfold State.decodedAt
  rw [State.decodedRecords_withFrame hk h, hcount, State.afterResultBase_withFrame]
  rfl

/-! ### What a DECODE writes -/

/-- An Owned DECODE of signals notes its call of the allocator and leaves the base in HANDLE (R190 to R192). -/
theorem State.decodedAt_of_owned {s : State} {k base : Nat} (hd : s.dest = 0) (hn : s.countOf k ≠ 0)
    (ha : s.allocAnswer (16 * s.countOf k) = some base) :
    s.decodedAt k base = { s with
      mem := writeRecords s.mem base 0 (s.decodedRecords k), count := BitVec.ofNat 32 (s.countOf k),
      msgIdx := BitVec.ofNat 32 k, handle := BitVec.ofNat 32 base, nanDraws := s.nanDraws + s.countOf k,
      allocs := s.allocs ++ [⟨16 * s.countOf k, some base, false⟩], code := .ok, latch := none } := by
  obtain ⟨-, hafter⟩ := State.resultBase_owned hd hn
  rw [State.decodedAt, hafter, if_pos hd, State.recordAlloc, ha]

/-- With no signal there is always a base: 0 in Owned mode, DEST in Borrowed mode (R190, R191). -/
theorem State.resultBase_zero (s : State) : s.resultBase 0 = some s.dest.toNat := by
  unfold State.resultBase
  split
  · simp_all
  · simp [admitted]

/-- A byte of the records is the same at every base, whatever memory was (R189). -/
theorem read_writeRecords_at {m m' : Memory} (hm : Memory.wf m = true) (hm' : Memory.wf m' = true) (base base' : Nat)
    {rs : List Nat} {j : Nat} (hj : j < 16 * rs.length) :
    (writeRecords m base 0 rs).read (base + j) = (writeRecords m' base' 0 rs).read (base' + j) := by
  have hrecord : j / 16 < rs.length := by omega
  rw [read_writeRecords hm, read_writeRecords hm']
  simp only [Nat.mul_zero, Nat.add_zero, Nat.le_add_right, if_true, Nat.add_sub_cancel_left,
    List.getElem?_eq_getElem hrecord, Option.map_some, Option.getD_some]

/-! ### ENCODE without the clearing of signal bits -/

/-- Packing the same values into two frames gives the same frame when the two agree outside the signals. -/
theorem packSignals_congr {gs : List SignalLayout} {vs : List Raw} {d e : FrameData}
    (hfit : ∀ g ∈ gs, fits g.startBit g.bitLength g.byteOrder 8 = true) (hlen : vs.length = gs.length)
    (h : ∀ j b, j < 8 → b < 8 → (∃ g ∈ gs, inSignal g (j, b)) ∨ getBit d (j, b) = getBit e (j, b)) :
    packSignals d gs vs = packSignals e gs vs := by
  induction gs generalizing d e vs with
  | nil => exact frame_ext fun j b hj hb => (h j b hj hb).resolve_left (by simp)
  | cons g gs ih =>
    obtain ⟨v, vs, rfl⟩ : ∃ v vs', vs = v :: vs' := List.exists_cons_of_length_eq_add_one hlen
    refine ih (d := packSignal d g v) (e := packSignal e g v) (fun g' hg' => hfit g' (by simp [hg']))
      (by simpa using hlen) fun j b hj hb => ?_
    by_cases hin : inSignal g (j, b)
    · exact .inr (getBit_packSignal_inside (hfit g (by simp)) d e v hin)
    · rw [getBit_packSignal_outside d v hin, getBit_packSignal_outside e v hin]
      rcases h j b hj hb with ⟨g', hg', hin'⟩ | heq
      · rcases List.mem_cons.mp hg' with rfl | hg'
        · exact absurd hin' hin
        · exact .inl ⟨g', hg', hin'⟩
      · exact .inr heq

/-- Clearing the bits of the signals changes bits of the signals only (R122). -/
theorem getBit_clear_signalBits {m : MessageLayout} (d : FrameData) {p : Nat × Nat} (hb : p.2 < 8)
    (h : ¬ ∃ g ∈ m.sigs, inSignal g p) : getBit (clearBits d (clearPositions .signalBits m)) p = getBit d p := by
  have hkept : p ∉ clearPositions .signalBits m := fun hm => h ((mem_clearPositions hb).mp hm)
  rw [getBit_clearBits]
  simp [hkept]

/-! ### DECODE after ENCODE -/

/-- The state an ENCODE of message `k` ends in when its checks pass (R124). -/
def State.encodedAt (s : State) (k : Nat) : State :=
  { s with
    frameData := s.encodedFrame k
    frameId := BitVec.ofNat 32 (messageAt s.plat.rom.msgs k).id
    frameDlc := BitVec.ofNat 8 (messageAt s.plat.rom.msgs k).byteLength
    count := BitVec.ofNat 32 (s.countOf k)
    msgIdx := BitVec.ofNat 32 k
    code := .ok
    latch := none }

/-- The mailbox an ENCODE leaves names the message encoded (R130). -/
theorem State.namesMessage_encodedAt {s : State} {k : Nat} (hk : k < s.plat.rom.msgs.length) :
    namesMessage (s.encodedAt k) k := by
  obtain ⟨hid, hbytes, -⟩ := s.message_facts hk
  refine ⟨hk, ?_, ?_⟩
  · change _ = (BitVec.ofNat 32 (messageAt s.plat.rom.msgs k).id).toNat
    rw [BitVec.toNat_ofNat, Nat.mod_eq_of_lt (hid.trans (by decide))]
    rfl
  · change _ = (BitVec.ofNat 8 (messageAt s.plat.rom.msgs k).byteLength).toNat
    rw [BitVec.toNat_ofNat, Nat.mod_eq_of_lt (hbytes.trans_lt (by decide))]
    rfl

/-- Field `i` of an encoded frame is value `i` cut to its low bits, when no two fields overlap (R130). -/
theorem State.extractSignal_encodedFrame {s : State} {k i : Nat} {g : SignalLayout} (hk : k < s.plat.rom.msgs.length)
    (hdis : (s.signalsOf k).Pairwise disjointSignals) (hg : (s.signalsOf k)[i]? = some g) :
    (extractSignal (s.encodedFrame k) g).toNat = s.mem.readLE (s.src.toNat + 8 * i) 8 % 2 ^ g.bitLength := by
  obtain ⟨-, -, hlen⟩ := fits_range (s.signal_fits hk (List.mem_of_getElem? hg))
  have hlast : ∀ j h, i < j → (s.signalsOf k)[j]? = some h → disjointSignals g h := by
    intro j h hij hh
    obtain ⟨hi, rfl⟩ := List.getElem?_eq_some_iff.mp hg
    obtain ⟨hj, rfl⟩ := List.getElem?_eq_some_iff.mp hh
    exact List.pairwise_iff_getElem.mp hdis i j hi hj hij
  apply Nat.eq_of_testBit_eq
  intro b
  rw [Nat.testBit_mod_two_pow, BitVec.testBit_toNat, extractSignal, getLsbD_extract _ _ _ _ hlen]
  by_cases hb : b < g.bitLength
  · rw [State.getBit_encodedFrame_of_last hk hg hb fun j h hij hh => hlast j h hij hh _ ⟨b, hb, rfl⟩]
  · simp [hb]

/-- The sign-extender gives a value back from its low bits when it is in the range of its field (R146). -/
theorem signx_of_in_range {e v : Raw} {len : Nat} {sg : Bool} (hpos : 1 ≤ len) (hle : len ≤ 64)
    (he : e.toNat = v.toNat % 2 ^ len)
    (hv : (sg = true ∧ -(2 ^ (len - 1)) ≤ v.toInt ∧ v.toInt < 2 ^ (len - 1)) ∨ (sg = false ∧ v.toNat < 2 ^ len)) :
    signx e len sg = v := by
  rcases hv with ⟨rfl, hlow, hhigh⟩ | ⟨rfl, hlt⟩
  · have hbits : e.setWidth len = v.setWidth len := by
      apply BitVec.eq_of_toNat_eq
      rw [BitVec.toNat_setWidth, BitVec.toNat_setWidth, he, Nat.mod_mod]
    have hbmod : (v.toNat : Int).bmod (2 ^ len) = v.toInt := by
      rw [← Int.bmod_bmod_of_dvd (Nat.pow_dvd_pow 2 hle), ← BitVec.toInt_eq_toNat_bmod]
      obtain ⟨n, rfl⟩ : ∃ n, len = n + 1 := ⟨len - 1, by omega⟩
      rw [Nat.add_sub_cancel] at hlow hhigh
      have hhalf : ((2 ^ (n + 1) : Nat) : Int) = 2 * 2 ^ n := by
        rw [Nat.pow_succ']
        norm_cast
      apply Int.bmod_eq_of_le_mul_two <;> omega
    apply BitVec.eq_of_toInt_eq
    rw [signx_signed, sextFrom, hbits, BitVec.toInt_signExtend_of_le hle, BitVec.toInt_setWidth, hbmod]
  · apply BitVec.eq_of_toNat_eq
    rw [toNat_signx_unsigned, he, Nat.mod_mod, Nat.mod_eq_of_lt hlt]

/-- A DECODE into an admitted Borrowed region ends Ok, with the scaled value of signal `i` in record `i` (R120, R188). -/
theorem exec_decode_borrowed_value {s t : State} {k : Nat} (hm : Memory.wf s.mem = true) (hk : namesMessage s k)
    (hd : s.dest ≠ 0) (ha : admitted s.plat.memWindow s.dest.toNat (16 * s.countOf k) = true)
    (h : exec .decode s = .next t) :
    t.code = .ok ∧ ∀ i g, (s.signalsOf k)[i]? = some g → ∃ draw : F64,
      t.mem.readLE (s.dest.toNat + 16 * i + 8) 8 =
        (scaleValue s.plat.scalerFused draw (signx (extractSignal s.frameData g) g.bitLength g.signed) g.signed g.scale
          g.offset).toNat := by
  have hbase : s.resultBase (s.countOf k) = some s.dest.toNat := by
    rw [(State.resultBase_borrowed hd).1, if_pos ha]
  cases (exec_decode_of_base hk hbase).symm.trans h
  refine ⟨rfl, fun i g hg => ?_⟩
  obtain ⟨-, -, hvalue⟩ := State.recordsStored_writeRecords hm hk.1 s.dest.toNat i g hg
  exact hvalue

end Sys2Proof.Machine

namespace Sys2Proof.Proofs

open Sys2Proof.Machine Sys2Proof.Safety

/-- Settles O33, by induction on the ROM: the numbers of the first message come first, and those of the others follow. -/
theorem sigrefNumbersEverySignalOnce : Obligations.SigrefNumbersEverySignalOnce := by
  refine fun msgs => ⟨fun k i => sigref_lt, fun n => exists_sigref_eq, fun k i k' i' _ hi hk' _ h => ?_⟩
  rcases h with h | ⟨rfl, h⟩
  · exact sigref_lt_of_lt_message hk' hi h
  · exact Nat.add_lt_add_left h _

/-- Settles O35: the base is the allocator's answer, which is lawful, and the records written there are stored there and
change nothing else. -/
theorem ownedDecodeWritesRecords : Obligations.OwnedDecodeWritesRecords := by
  intro s k a hm hk hd hn ha
  refine ⟨State.allocAnswer_lawful ha, ?_⟩
  rw [exec_decode_of_base hk ((State.resultBase_owned hd hn).1.trans ha), State.decodedAt_of_owned hd hn ha]
  exact ⟨_, _, rfl, State.recordsStored_writeRecords hm hk.1 a, State.sameOutside_writeRecords k hm a⟩

/-- Settles O37: with no signal there are no records, and the allocator is not asked. -/
theorem decodeOfNoSignals : Obligations.DecodeOfNoSignals := by
  intro s k hk hn
  have hbase : s.resultBase (s.countOf k) = some s.dest.toNat := by rw [hn, State.resultBase_zero]
  have hrecords : s.decodedRecords k = [] := List.eq_nil_of_length_eq_zero (by rw [State.length_decodedRecords, hn])
  rw [exec_decode_of_base hk hbase, State.decodedAt, hn, hrecords, State.afterResultBase_zero]
  by_cases hd : s.dest = 0
  · rw [if_pos hd, if_pos hd, hd]
    rfl
  · rw [if_neg hd, if_neg hd]
    rfl

/-- Settles O39: the router, the base and the records of a DECODE are the same in both frames. -/
theorem decodeIgnoresBytesBeyondLength : Obligations.DecodeIgnoresBytesBeyondLength := by
  intro s t d hd h
  exact exec_decode_commutes (u := State.withFrame d) rfl (fun _ => rfl)
    (fun k base hk => State.decodedAt_withFrame base hk.1 (hd k hk)) (fun _ => s.afterResultBase_withFrame d _)
    (fun _ _ => rfl) h

/-- Settles O40: the records do not depend on DEST, and a byte of them not on the base. -/
theorem ownedAndBorrowedWriteTheSame : Obligations.OwnedAndBorrowedWriteTheSame := by
  intro s t u k a dest hm hk hd hn ha hdest hadm ht hu
  have hbase : State.resultBase { s with dest := dest } (s.countOf k) = some dest.toNat := by
    rw [(State.resultBase_borrowed (s := { s with dest := dest }) hdest).1]
    exact if_pos hadm
  cases (exec_decode_of_base hk ((State.resultBase_owned hd hn).1.trans ha)).symm.trans ht
  cases (exec_decode_of_base (s := { s with dest := dest }) hk hbase).symm.trans hu
  refine ⟨rfl, rfl, if_neg hdest, fun j hj => read_writeRecords_at hm hm a dest.toNat ?_⟩
  rwa [State.length_decodedRecords]

/-- Settles O44: the cleared bits are packed anyway, each by its last signal. -/
theorem clearingSignalBitsIsUnobservable : Obligations.ClearingSignalBitsIsUnobservable := by
  intro rom m d raws hm hlen
  obtain ⟨-, hbytes, -, hfit⟩ := messageWf_facts ((Rom.facts rom).2.2.1 m hm)
  refine packSignals_congr (fun g hg => fits_mono (hfit g hg) hbytes) hlen fun j b _ hb => ?_
  by_cases hin : ∃ g ∈ m.sigs, inSignal g (j, b)
  · exact .inl hin
  · exact .inr (getBit_clear_signalBits d hb hin)

/-- Settles O43: ENCODE leaves the message's mailbox and its values in the fields, ROUTE and DECODE find the message by that
mailbox, and DECODE extends and scales what it extracts. -/
theorem encodeThenDecodeRecoversRaws : Obligations.EncodeThenDecodeRecoversRaws := by
  intro s k hm hk hp ha hdis
  have hnames := State.namesMessage_encodedAt hk
  obtain ⟨w, hw, -⟩ := exec_finishes .decode (s.encodedAt k)
  have hborrowed := fun hd hadm => exec_decode_borrowed_value (s := s.encodedAt k) hm hnames hd hadm hw
  refine ⟨s.encodedAt k, _, w, exec_encode_of_ok (State.encodeChecks_ok hk hp ha),
    exec_route_of_ok (State.routed_ok_iff.mpr hnames), rfl, ?_, hw, fun hd hadm => (hborrowed hd hadm).1,
    fun i g hg => ?_⟩
  · have hlen := (Rom.facts s.plat.rom).1
    exact (BitVec.toNat_ofNat k 32).trans (Nat.mod_eq_of_lt (by omega))
  · have hextract := State.extractSignal_encodedFrame hk hdis hg
    refine ⟨hextract, fun v hv hrange => ?_⟩
    obtain ⟨-, hpos, hle⟩ := fits_range (s.signal_fits hk (List.mem_of_getElem? hg))
    have hback : signx (extractSignal (s.encodedFrame k) g) g.bitLength g.signed = v :=
      signx_of_in_range hpos hle (hv ▸ hextract) hrange
    refine ⟨hback, fun hd hadm => ?_⟩
    obtain ⟨draw, hvalue⟩ := (hborrowed hd hadm).2 i g hg
    exact ⟨draw, hback ▸ hvalue⟩

end Sys2Proof.Proofs
end

section
/-! PROOFS of the family other, the register window: its map for reads and for writes (R22 to R28, R35, R38, R200). -/

namespace Sys2Proof.Machine

open Sys2Proof.Safety

/-! ### STATUS -/

theorem Code.toNat_toBits (c : Code) : c.toBits.toNat = codeNumber c := by
  cases c <;> rfl

/-- The codes in the order of their numbers (R200). -/
def codesInOrder : List Code :=
  [.ok, .unknownMessage, .lengthMismatch, .nullArgument, .illegalCommand, .resourceFault]

theorem codesInOrder_codeNumber (c : Code) : codeNumber c < 6 ∧ codesInOrder[codeNumber c]? = some c := by
  cases c <;> decide

/-- BUSY as a number (R43). -/
theorem State.toNat_busy (s : State) : s.busy.toNat = if s.latch = none then 0 else 1 := by
  rw [State.busy]
  cases s.latch <;> rfl

/-- STATUS is its three fields at their bits (R35). -/
theorem State.toNat_status (s : State) :
    s.status.toNat = codeNumber s.code + 256 * s.busy.toNat + 512 * s.ovr.toNat := by
  simp only [State.status, toNat_append_eq, BitVec.toNat_ofBool, Code.toNat_toBits, BitVec.toNat_ofNat]
  omega

theorem State.toNat_status_eq_statusNumber (s : State) : s.status.toNat = statusNumber s := by
  rw [State.toNat_status, State.toNat_busy, statusNumber]
  cases s.ovr <;> by_cases hl : s.latch = none <;> simp [hl]

/-! ### Reads -/

/-- The registers of the window from offset 0x00 to 0x4C (R38). -/
def windowRegs : List Reg :=
  [.cmd, .status, .count, .msgIdx, .frameId, .frameDlc, .dataLo, .dataHi, .rawLo, .rawHi,
    .scaleLo, .scaleHi, .offsetLo, .offsetHi, .physLo, .physHi, .dest, .src, .handle, .info]

theorem regAt_eq_getD (word : Nat) : regAt word = windowRegs.getD word .reserved := rfl

/-- The window as numbers is its registers as numbers, word by word (R38). -/
theorem windowValues_eq_map (s : State) : windowValues s = windowRegs.map fun r => (s.regRead r).toNat := by
  have hdlc : (s.frameDlc.setWidth 32).toNat = s.frameDlc.toNat :=
    BitVec.toNat_setWidth_of_le (by decide)
  have hinfo : s.info.toNat = s.plat.rom.msgs.length + 2 ^ 16 * maxSignals s.plat.rom.msgs := s.toNat_info
  simp only [windowValues, windowRegs, List.map_cons, List.map_nil, State.regRead, State.toNat_status_eq_statusNumber,
    hdlc, toNat_frameView, toNat_lowWord, toNat_highWord, hinfo]

/-- A read of a word as a number; past the last register it is 0 (R38, R40). -/
theorem State.toNat_regRead_regAt (s : State) (word : Nat) :
    (s.regRead (regAt word)).toNat = (windowValues s).getD word 0 := by
  rw [windowValues_eq_map, regAt_eq_getD]
  exact (List.getD_map windowRegs Reg.reserved fun r => (s.regRead r).toNat).symm

/-! ### Writes -/

/-- A host write while BUSY = 0 (R40). -/
theorem State.regWrite_of_idle {s : State} (r : Reg) (v : Word) (hb : s.busy = false) :
    s.regWrite r v = s.regStore r v := by
  rw [State.regWrite, hb, Bool.false_and, if_neg Bool.false_ne_true]

/-- The step of a store to a word other than CMD while BUSY = 0. -/
theorem step_store_idle {s : State} {word : Nat} {v : Word} {rest : List HostAction} (hw : word < 64) (h0 : word ≠ 0)
    (hb : s.busy = false) (h : s.inputs = .store (s.plat.regBase + 4 * word) 4 v.toNat :: rest) :
    step s = .next (State.regStore { s with inputs := rest } (regAt word) v) := by
  rw [step_store_word hw h (.inl h0)]
  exact congrArg _ (State.regWrite_of_idle (s := { s with inputs := rest }) _ v hb)

theorem lowWritten_append (x : Raw) (v : Word) : lowWritten x (highWord x ++ v) v := by
  rw [lowWritten, toNat_append_eq, toNat_highWord]
  omega

theorem highWritten_append (x : Raw) (v : Word) : highWritten x (v ++ lowWord x) v := by
  rw [highWritten, toNat_append_eq, toNat_lowWord]
  omega

/-- A byte of the frame after a host write to a view (R24). -/
theorem getD_setFrameView (d : FrameData) (j : Nat) (v : Word) {i : Nat} (hi : i < 8) :
    (setFrameView d j v).getD i 0 =
      if j ≤ i ∧ i < j + 4 then v.extractLsb' (8 * (i - j)) 8 else d.getD i 0 := by
  rcases Nat.lt_or_ge i j with hlow | hge
  · have hne : j ≠ i ∧ j + 1 ≠ i ∧ j + 2 ≠ i ∧ j + 3 ≠ i := by omega
    simp [setFrameView, Vector.getD, hi, hne, Nat.not_le.mpr hlow]
  · obtain ⟨k, rfl⟩ : ∃ k, i = j + k := ⟨i - j, by omega⟩
    have hj : j < 8 := by omega
    by_cases hk : k < 4
    · interval_cases k <;> simp [setFrameView, Vector.getD, hi, Nat.not_le.mpr hj]
    · have hne : k ≠ 0 ∧ 1 ≠ k ∧ 2 ≠ k ∧ 3 ≠ k := by omega
      simp [setFrameView, Vector.getD, hi, hne, hk]

theorem frameWritten_setFrameView (d : FrameData) (j : Nat) (v : Word) : frameWritten d (setFrameView d j v) j v := by
  intro i hi
  rw [getD_setFrameView d j v hi]
  split
  · rw [BitVec.extractLsb'_toNat, Nat.shiftRight_eq_div_pow]
  · rfl

theorem State.regRead_withInputs (s : State) (rest : List HostAction) (r : Reg) :
    State.regRead { s with inputs := rest } r = s.regRead r := by
  cases r <;> rfl

/-- What the host writes to an RW register it reads back; FRAME_DLC keeps 8 bits (R38, R40). -/
theorem State.regRead_regStore_same (s : State) {r : Reg} (v : Word) (hr : r.lockedWhileBusy = true) (hc : r ≠ .cmd) :
    (s.regStore r v).regRead r = if r = .frameDlc then v % 256#32 else v := by
  cases r <;> simp_all [State.regStore, State.regRead, Reg.lockedWhileBusy, extractLow_setWidth]

theorem regAt_eq_frameDlc {word : Nat} (h : word < 64) : regAt word = .frameDlc ↔ word = 5 := by
  revert word
  decide

theorem regAt_ne_reserved {word : Nat} (h : word < 20) : regAt word ≠ .reserved := by
  revert word
  decide

/-- Different words of the window are different registers, but for the reserved ones (R38). -/
theorem regAt_injective {word other : Nat} (hw : word < 20) (h : regAt other = regAt word) : other = word := by
  by_cases ho : other < 20
  · rw [regAt_eq_getD, regAt_eq_getD, List.getD_eq_getElem _ _ ho, List.getD_eq_getElem _ _ hw] at h
    exact (List.Nodup.getElem_inj_iff (by decide)).mp h
  · rw [regAt_of_ge (Nat.not_lt.mp ho)] at h
    exact absurd h.symm (regAt_ne_reserved hw)

end Sys2Proof.Machine

namespace Sys2Proof.Proofs

open Sys2Proof.Machine Sys2Proof.Safety

/-- Settles O48: a load of a word reads its register, and the window as numbers is its registers as numbers. -/
theorem registerMapOfLoads : Obligations.RegisterMapOfLoads := by
  intro s word rest hw hi
  rw [step_load_register hw hi, State.toNat_regRead_regAt]

/-- Settles O49: a store to an RW word while BUSY = 0 writes that register, half or view. -/
theorem registerMapOfStores : Obligations.RegisterMapOfStores := by
  intro s word v rest hb hi
  have hstore (hw : word < 64) (h0 : word ≠ 0) := step_store_idle hw h0 hb hi
  refine ⟨?_, ?_, ?_, ?_, ?_, ?_, ?_, ?_, ?_, ?_, ?_, ?_⟩ <;> rintro rfl <;>
    have hstep := hstore (by decide) (by decide)
  · exact hstep
  · exact ⟨_, by simp, hstep⟩
  · exact ⟨_, frameWritten_setFrameView _ _ v, hstep⟩
  · exact ⟨_, frameWritten_setFrameView _ _ v, hstep⟩
  · exact ⟨_, lowWritten_append _ v, hstep⟩
  · exact ⟨_, highWritten_append _ v, hstep⟩
  · exact ⟨_, lowWritten_append _ v, hstep⟩
  · exact ⟨_, highWritten_append _ v, hstep⟩
  · exact ⟨_, lowWritten_append _ v, hstep⟩
  · exact ⟨_, highWritten_append _ v, hstep⟩
  · exact hstep
  · exact hstep

/-- Settles O50: the register written reads the word, and no other register of the window is the same one. -/
theorem writtenRegistersReadBack : Obligations.WrittenRegistersReadBack := by
  intro s word v hword hb hi
  have hw : word < 64 := by omega
  have hlocked : (regAt word).lockedWhileBusy = true := (regAt_lockedWhileBusy hw).mpr (.inr hword)
  have hcmd : regAt word ≠ .cmd := mt (regAt_eq_cmd hw).mp (by omega)
  have hstatus : regAt word ≠ .status := mt (regAt_eq_status hw).mp (by omega)
  refine ⟨_, step_store_idle hw (by omega) hb hi, ?_, fun other _ hne => ?_⟩
  · rw [State.regRead_regStore_same _ v hlocked hcmd]
    simp only [regAt_eq_frameDlc hw]
  · have hother : regAt word ≠ regAt other := fun h => hne (regAt_injective (by omega) h.symm)
    rw [State.regRead_regStore_of_ne _ v hother hcmd hstatus, State.regRead_withInputs]

/-- Settles O51: the bits of STATUS are its fields, and the codes stand in the order of their numbers. -/
theorem statusWordFields : Obligations.StatusWordFields := by
  intro s
  obtain ⟨hlt, hcode⟩ := codesInOrder_codeNumber s.code
  refine ⟨codeNumber s.code, hlt, hcode, ?_⟩
  have hovr : s.ovr.toNat = if s.ovr = true then 1 else 0 := by cases s.ovr <;> rfl
  rw [← State.toNat_busy, ← hovr]
  exact s.toNat_status

end Sys2Proof.Proofs
end

section
/-! PROOFS of the family other, the host: memory accesses, the host's duties, and reset (R60 to R75, R191 to R194, R225 to
R227, R233). -/

namespace Sys2Proof.Machine

open Sys2Proof.Safety

/-! ### The memory port -/

/-- The little-endian number of a run of bytes as a sum (R63). -/
theorem Memory.readLE_eq_sum (m : Memory) (a n : Nat) :
    m.readLE a n = ((List.range n).map fun j => (m.read (a + j)).toNat * 2 ^ (8 * j)).sum := by
  induction n generalizing a with
  | zero => rfl
  | succ n ih =>
    have hrest : m.readLE (a + 1) n * 256 =
        ((List.range n).map fun j => (m.read (a + (j + 1))).toNat * 2 ^ (8 * (j + 1))).sum := by
      rw [ih, ← List.sum_map_mul_right]
      refine congrArg List.sum (List.map_congr_left fun j _ => ?_)
      have hpow : 2 ^ (8 * (j + 1)) = 2 ^ (8 * j) * 256 := by rw [Nat.mul_succ, Nat.pow_add]
      rw [hpow, Nat.mul_assoc, Nat.add_assoc, Nat.add_comm 1 j]
    rw [List.range_succ_eq_map, List.map_cons, List.sum_cons, List.map_map]
    simp only [Function.comp_def, Nat.succ_eq_add_one]
    rw [← hrest, Nat.mul_comm (m.readLE (a + 1) n)]
    simp [Memory.readLE, Memory.readBytes, ofBytesLE]

/-- Reading back what was written (R63, R64). -/
theorem Memory.readLE_writeLE {m : Memory} (hm : Memory.wf m = true) (a n v : Nat) :
    (m.writeLE a n v).readLE a n = v % 256 ^ n := by
  have hbytes : (m.writeLE a n v).readBytes a n = toBytesLE n v := by
    apply List.ext_getElem?
    intro j
    by_cases hj : j < n
    · rw [getElem?_readBytes hj, getElem?_toBytesLE hj, Memory.read_writeLE hm, if_pos (by omega),
        Nat.add_sub_cancel_left]
    · rw [List.getElem?_eq_none (by simpa using hj), List.getElem?_eq_none (by simpa using hj)]
  rw [Memory.readLE, hbytes, ofBytesLE_toBytesLE]

/-! ### Host accesses -/

/-- A load of admitted memory that spares the result region (R60, R75). -/
theorem hostLoad_of_spared {s : State} {addr n : Nat} (ha : admitted s.plat.memWindow addr n = true)
    (hr : sparesResult s ⟨addr, n⟩) : hostLoad addr n s = .next { s with hostData := s.mem.readLE addr n } := by
  rw [hostLoad, State.target_of_spared ha (State.brokenDuty_none (isStore := false) hr nofun)]

/-- A store to admitted memory that spares the regions of the running command (R60, R75). -/
theorem hostStore_of_spared {s : State} {addr n : Nat} (v : Nat) (ha : admitted s.plat.memWindow addr n = true)
    (hr : sparesResult s ⟨addr, n⟩) (hs : sparesSource s ⟨addr, n⟩) :
    hostStore addr n v s = .next { s with mem := s.mem.writeLE addr n v } := by
  rw [hostStore, State.target_of_spared ha (State.brokenDuty_none hr fun _ => hs)]

/-- Every access spares the regions of an idle block. -/
theorem spares_of_idle {s : State} (hl : s.latch = none) (r : Span) : sparesResult s r ∧ sparesSource s r :=
  ⟨fun _ _ _ hw => absurd (hl.symm.trans hw) nofun, fun _ _ hw => absurd (hl.symm.trans hw) nofun⟩

/-- Where the spec describes nothing: outside the register window and MEM_WINDOW (log 13). -/
theorem State.target_outside {s : State} (isStore : Bool) {addr n : Nat}
    (hreg : overlaps ⟨addr, n⟩ (registerWindow s.plat.regBase) = false)
    (ha : admitted s.plat.memWindow addr n = false) :
    s.target isStore addr n =
      if addressSpace < addr + n then .fault .addressBeyondSpace else .refused .hostMemoryOutsideWindow := by
  rw [State.target, hreg, ha, if_neg Bool.false_ne_true, if_neg Bool.false_ne_true]

theorem hostLoad_outside {s : State} {addr n : Nat}
    (hreg : overlaps ⟨addr, n⟩ (registerWindow s.plat.regBase) = false)
    (ha : admitted s.plat.memWindow addr n = false) :
    hostLoad addr n s =
      if addressSpace < addr + n then .fault .addressBeyondSpace else .refused .hostMemoryOutsideWindow := by
  rw [hostLoad, State.target_outside false hreg ha]
  by_cases hspace : addressSpace < addr + n
  · simp only [if_pos hspace]
  · simp only [if_neg hspace]

theorem hostStore_outside {s : State} {addr n : Nat} (v : Nat)
    (hreg : overlaps ⟨addr, n⟩ (registerWindow s.plat.regBase) = false)
    (ha : admitted s.plat.memWindow addr n = false) :
    hostStore addr n v s =
      if addressSpace < addr + n then .fault .addressBeyondSpace else .refused .hostMemoryOutsideWindow := by
  rw [hostStore, State.target_outside true hreg ha]
  by_cases hspace : addressSpace < addr + n
  · simp only [if_pos hspace]
  · simp only [if_neg hspace]

/-- After a release the live regions are those of before that start elsewhere (R194). -/
theorem State.mem_liveRegions_release {s t : State} {addr : Nat} (h : t.allocs = releaseIn addr s.allocs) {r : Span} :
    r ∈ t.liveRegions ↔ r ∈ s.liveRegions ∧ r.base ≠ addr := by
  rw [State.liveRegions_eq, State.liveRegions_eq, h, liveRegions_releaseIn]
  simp

/-! ### The duties of R75 -/

theorem State.brokenDuty_of_result {s : State} {isStore : Bool} {r t : Span} (h : s.runningRegion = some (.result, t))
    (ho : overlaps r t = true) : s.brokenDuty isStore r = some .touchesResultRegion := by
  simp only [State.brokenDuty, h, ho, if_true]

theorem State.brokenDuty_of_source {s : State} {r t : Span} (h : s.runningRegion = some (.source, t))
    (ho : overlaps r t = true) : s.brokenDuty true r = some .storesToSourceRegion := by
  simp only [State.brokenDuty, h, ho, Bool.and_self, if_true]

/-- A store to admitted memory that breaks a duty is refused (R75). -/
theorem hostStore_of_brokenDuty {s : State} {addr n v : Nat} {r : Refusal}
    (ha : admitted s.plat.memWindow addr n = true) (h : s.brokenDuty true ⟨addr, n⟩ = some r) :
    hostStore addr n v s = .refused r := by
  rw [hostStore, State.target_of_brokenDuty ha h]

/-- A load of admitted memory that breaks a duty is refused (R75). -/
theorem hostLoad_of_brokenDuty {s : State} {addr n : Nat} {r : Refusal}
    (ha : admitted s.plat.memWindow addr n = true) (h : s.brokenDuty false ⟨addr, n⟩ = some r) :
    hostLoad addr n s = .refused r := by
  rw [hostLoad, State.target_of_brokenDuty ha h]

/-! ### The duty of R233 -/

/-- What the host keeps to itself, changed. -/
def State.keeping (kept : List Span) (s : State) : State :=
  { s with withheld := kept }

theorem State.afterResultBase_keeping (s : State) (kept : List Span) (n : Nat) :
    (s.keeping kept).afterResultBase n = (s.afterResultBase n).keeping kept :=
  State.afterResultBase_commutes rfl rfl

theorem State.decodedAt_keeping (s : State) (kept : List Span) (k base : Nat) :
    (s.keeping kept).decodedAt k base = (s.decodedAt k base).keeping kept := by
  have hcount : (s.keeping kept).countOf k = s.countOf k := rfl
  unfold State.decodedAt
  rw [hcount, State.afterResultBase_keeping]
  rfl

/-- No command asks what the host keeps: the block checks no capacity (R233, U3, U4). -/
theorem exec_withWithheld {i : Instr} {s t : State} (kept : List Span) (h : exec i s = .next t) :
    exec i { s with withheld := kept } = .next { t with withheld := kept } := by
  cases i with
  | nop => cases h; rfl
  | extract f => cases h; simp only [exec, execExtract]; split <;> rfl
  | sext f => cases h; simp only [exec, execSext]; split <;> rfl
  | pack f => cases h; simp only [exec, execPack]; split <;> rfl
  | scale f => cases h; rfl
  | route =>
    cases hr : s.routed with
    | error e =>
      cases (exec_route_of_error hr).symm.trans h
      exact exec_route_of_error (s := { s with withheld := kept }) hr
    | ok k =>
      cases (exec_route_of_ok hr).symm.trans h
      exact exec_route_of_ok (s := { s with withheld := kept }) hr
  | decode =>
    exact exec_decode_commutes (u := State.keeping kept) rfl (fun _ => rfl)
      (fun k base _ => s.decodedAt_keeping kept k base) (fun _ => s.afterResultBase_keeping kept _) (fun _ _ => rfl) h
  | encode k =>
    cases hck : s.encodeChecks k with
    | error e =>
      cases (exec_encode_of_error hck).symm.trans h
      exact exec_encode_of_error (s := { s with withheld := kept }) hck
    | ok =>
      cases (exec_encode_of_ok hck).symm.trans h
      exact exec_encode_of_ok (s := { s with withheld := kept }) hck

/-! ### Reset -/

/-- What an abandoned DECODE of message `k` leaves: the state as it was, the allocator not having been asked, or the state
after the base was found, each byte of memory old or as the DECODE would have written it (R227). -/
theorem State.abandonDecode_cases {s : State} (hm : Memory.wf s.mem = true) (k : Nat) :
    s.abandonDecode k = s ∨
    ∃ m draws, s.abandonDecode k = { s.afterResultBase (s.countOf k) with mem := m, nanDraws := draws } ∧
      ∀ a, Memory.read m a = Memory.read s.mem a ∨ ∃ base, s.resultBase (s.countOf k) = some base ∧
        Memory.read m a = Memory.read (s.decodedAt k base).mem a := by
  unfold State.abandonDecode
  split
  · exact .inl rfl
  · refine .inr ?_
    split
    case h_1 =>
      exact ⟨_, _, rfl, fun a => .inl (congrArg (Memory.read · a) (s.afterResultBase_mem _))⟩
    case h_2 base hb =>
      refine ⟨_, _, rfl, fun a => ?_⟩
      rw [read_mixMemory hm]
      split
      · exact .inr ⟨base, hb, rfl⟩
      · exact .inl rfl

/-- The reset of a block that runs no DECODE leaves what is outside the registers alone (R225). -/
theorem State.abandonLatched_of_no_decode {s : State} (h : ∀ w, s.latch = some w → decode w ≠ .ok .decode) :
    s.abandonLatched = s := by
  rcases s.abandonLatched_cases with hsame | ⟨w, k, hl, hd, -⟩
  · exact hsame
  · exact absurd hd (h w hl)

theorem State.abandonLatched_of_decode {s : State} {w : Word} {k : Nat} (hl : s.latch = some w)
    (hd : decode w = .ok .decode) (hk : namesMessage s k) : s.abandonLatched = s.abandonDecode k := by
  simp only [State.abandonLatched, hl, Option.map_some, hd, State.routed_ok_iff.mpr hk]

/-- Each byte is the old one or what the running command would have written (R227). -/
theorem State.read_abandonLatched {s u : State} {w : Word} {i : Instr} (hm : Memory.wf s.mem = true)
    (hl : s.latch = some w) (hi : decode w = .ok i) (hx : exec i s = .next u) (a : Nat) :
    Memory.read s.abandonLatched.mem a = Memory.read s.mem a ∨
      Memory.read s.abandonLatched.mem a = Memory.read u.mem a := by
  rcases s.abandonLatched_cases with hsame | ⟨w', k, hl', hd, hr, heq⟩
  · rw [hsame]
    exact .inl rfl
  · obtain rfl : w = w' := Option.some.inj (hl.symm.trans hl')
    obtain rfl : i = .decode := Except.ok.inj (hi.symm.trans hd)
    rw [heq]
    rcases State.abandonDecode_cases hm k with hsame | ⟨m, draws, heq, hread⟩
    · rw [hsame]
      exact .inl rfl
    · rw [heq]
      rcases hread a with hold | ⟨base, hb, hnew⟩
      · exact .inl hold
      · cases (exec_decode_of_base (State.routed_ok_iff.mp hr) hb).symm.trans hx
        exact .inr hnew

/-- Asking the allocator releases no region (R227). -/
theorem State.liveRegions_subset_afterResultBase (s : State) (n : Nat) :
    s.liveRegions ⊆ (s.afterResultBase n).liveRegions := by
  rcases s.afterResultBase_cases n with h | ⟨-, h⟩
  · rw [h]
    exact List.Subset.refl _
  · rw [h, State.liveRegions_recordAlloc]
    exact List.subset_append_left _ _

/-- Reset releases no region of the allocator (R227). -/
theorem State.liveRegions_subset_abandonLatched {s : State} (hm : Memory.wf s.mem = true) :
    s.liveRegions ⊆ s.abandonLatched.liveRegions := by
  rcases s.abandonLatched_cases with hsame | ⟨w, k, -, -, -, heq⟩
  · rw [hsame]
    exact List.Subset.refl _
  · rw [heq]
    rcases State.abandonDecode_cases hm k with hsame | ⟨m, draws, heq, -⟩
    · rw [hsame]
      exact List.Subset.refl _
    · rw [heq]
      exact s.liveRegions_subset_afterResultBase _

/-- The region an Owned DECODE is answered is live (R191). -/
theorem State.mem_liveRegions_of_owned {s : State} {n a : Nat} (hd : s.dest = 0) (hn : n ≠ 0)
    (ha : s.allocAnswer (16 * n) = some a) : ⟨a, 16 * n⟩ ∈ (s.afterResultBase n).liveRegions := by
  rw [(State.resultBase_owned hd hn).2, State.liveRegions_recordAlloc, ha]
  simp

end Sys2Proof.Machine

namespace Sys2Proof.Proofs

open Sys2Proof.Machine Sys2Proof.Safety

/-- Settles O55: the region of a running command is the one of R75, and an access to admitted memory is held to it. -/
theorem hostDutiesWhileBusy : Obligations.HostDutiesWhileBusy := by
  intro s w addr n v base k rest hl ha
  refine ⟨fun hd hk hb ho hi => ?_, fun hd hk ho hi => ?_⟩
  · have hregion := State.runningRegion_of_decode (s := { s with inputs := rest }) hl hd hk hb
    rcases hi with hi | hi
    · rw [step_of_inputs hi]
      exact hostStore_of_brokenDuty ha (State.brokenDuty_of_result hregion ho)
    · rw [step_of_inputs hi]
      exact hostLoad_of_brokenDuty ha (State.brokenDuty_of_result hregion ho)
  · have hregion := State.runningRegion_of_encode (s := { s with inputs := rest }) hl hd hk
    rw [step_of_inputs hi]
    exact hostStore_of_brokenDuty ha (State.brokenDuty_of_source hregion ho)

/-- Settles O56: the word is checked against what the host keeps when it is accepted and when the host takes memory back,
and by no command. -/
theorem capacityIsTheHostsDuty : Obligations.CapacityIsTheHostsDuty := by
  refine ⟨fun s w rest hb hu hi => ?_, fun s kept rest hi => ⟨fun w hl hu => ?_, fun hu => ?_⟩,
    fun i s t kept => exec_withWithheld kept⟩
  · refine (step_store_register (word := 0) (by decide) hi).trans ?_
    refine (storeRegister_cmd_of_idle (s := { s with inputs := rest }) w hb).trans (if_pos ?_)
    exact (State.namesUngiven_accept_iff { s with inputs := rest } w).mpr hu
  · rw [step_of_inputs hi]
    exact if_pos (State.namesUngiven_iff (s := { s with withheld := kept, inputs := rest }) |>.mpr ⟨w, hl, hu⟩)
  · rw [step_of_inputs hi]
    refine if_neg fun hnames => ?_
    obtain ⟨w, hl, hused⟩ := State.namesUngiven_iff.mp hnames
    exact hu w hl hused

/-- Settles O57: reset writes the registers, and outside them leaves what the abandoned command left. -/
theorem resetCutsTheCommandShort : Obligations.ResetCutsTheCommandShort := by
  intro s t hm h
  cases h
  refine ⟨fun w i u hl hi hx => State.read_abandonLatched hm hl hi hx, fun hidle => ?_,
    fun r hr => State.regRead_resetRegisters _ hr, rfl, State.liveRegions_subset_abandonLatched hm,
    fun w k a hl hd hk hdest hn ha => ?_⟩
  · have hno : ∀ w, s.latch = some w → decode w ≠ .ok .decode := by
      intro w hl hd
      rcases hidle with hnone | ⟨w', r, hl', hr⟩
      · cases hnone.symm.trans hl
      · obtain rfl : w = w' := Option.some.inj (hl.symm.trans hl')
        cases hd.symm.trans hr
    exact congrArg (·.mem) (State.abandonLatched_of_no_decode hno)
  · have heq := State.abandonLatched_of_decode hl hd hk
    rcases State.abandonDecode_cases hm k with hsame | ⟨m, draws, hafter, -⟩
    · rw [hsame] at heq
      exact .inl ⟨congrArg (·.mem) heq, congrArg (·.allocs) heq⟩
    · refine .inr ?_
      have hlive := State.mem_liveRegions_of_owned hdest hn ha
      rw [hafter] at heq
      have hallocs : s.abandonLatched.allocs = (s.afterResultBase (s.countOf k)).allocs := congrArg (·.allocs) heq
      rw [State.liveRegions_eq] at hlive ⊢
      rwa [State.resetRegisters_allocs, hallocs]

/-- Settles O58: an access goes where `State.target` says, and a release marks the calls answered with its address. -/
theorem hostMemoryAccesses : Obligations.HostMemoryAccesses := by
  intro s addr n v rest
  refine ⟨fun ha hr => ⟨fun hi => ?_, fun hs hi => ?_⟩, fun hl => spares_of_idle hl _, fun hreg ha hi => ?_,
    fun hi => ?_⟩
  · rw [step_of_inputs hi]
    exact hostLoad_of_spared (s := { s with inputs := rest }) ha hr
  · rw [step_of_inputs hi]
    exact hostStore_of_spared (s := { s with inputs := rest }) v ha hr hs
  · rcases hi with hi | hi
    · rw [step_of_inputs hi]
      exact hostLoad_outside (s := { s with inputs := rest }) hreg ha
    · rw [step_of_inputs hi]
      exact hostStore_outside (s := { s with inputs := rest }) v hreg ha
  · refine ⟨releaseIn addr s.allocs, _, step_of_inputs hi, rfl, fun r hr => ?_, fun r hr hne => ?_⟩
    · exact (State.mem_liveRegions_release rfl).mp hr
    · exact (State.mem_liveRegions_release rfl).mpr ⟨hr, hne⟩

/-- Settles O59: the bytes of a write are those of its number, and the number of those bytes is the number again. -/
theorem memoryPortReadsAndWritesLittleEndian : Obligations.MemoryPortReadsAndWritesLittleEndian := by
  intro m a n v hm
  refine ⟨fun j hj => ?_, fun c hc => ?_, m.readLE_eq_sum a n, fun hv => ?_⟩
  · rw [Memory.read_writeLE hm, if_pos (by omega), Nat.add_sub_cancel_left, Nat.pow_mul]
  · rw [Memory.read_writeLE hm, if_neg (by omega)]
  · rw [Memory.readLE_writeLE hm, Nat.mod_eq_of_lt (by rwa [Nat.pow_mul] at hv)]

end Sys2Proof.Proofs
end
